-- ==== Sys2Proof/Word.lean ====
section
/-! DEFINITION. The fixed widths of the RVL codec core (00_scope.md R8) and nothing else. -/

namespace Sys2Proof

/-- A register, command word or payload word: 32 bits (00_scope.md R8). -/
abbrev Word := BitVec 32

/-- One byte of IN_MEM or OUT_MEM (10_state.md R42, R43). -/
abbrev Byte := BitVec 8

/-- One element of PIX_MEM, and PREV: 16 bits (00_scope.md R8, 10_state.md R27, R44). -/
abbrev Pixel := BitVec 16

/-- One nibble: bit 3 the continuation bit, bits 2..0 the payload (00_scope.md R8, R9). -/
abbrev Nibble := BitVec 4

end Sys2Proof
end

