-- ==== Sys2Proof/Config.lean ====
section
/-! DEFINITION. What an instance of the block fixes (00_scope.md R7) and the values the spec leaves unspecified. -/

namespace Sys2Proof

/-- The three named parameters of 00_scope.md R7: IN_CAP and OUT_CAP in bytes, MAX_PIXELS in 16-bit elements.
They are fixed for an instance (10_state.md R48). -/
structure Capacities where
  inCap     : Nat
  outCap    : Nat
  maxPixels : Nat
  deriving DecidableEq, Repr

/-- The ranges 00_scope.md R7 gives the three parameters. -/
abbrev Capacities.Legal (c : Capacities) : Prop :=
  4 ≤ c.inCap ∧ c.inCap < 2 ^ 32 ∧ c.outCap < 2 ^ 32 ∧ 1 ≤ c.maxPixels ∧ c.maxPixels < 2 ^ 32

/-- The example values of 95_test_vectors.md; DESIGN CHOICE (unsafe, log 1): the spec gives the parameters no value,
and claims are stated for every value. -/
def Capacities.example64 : Capacities := { inCap := 64, outCap := 64, maxPixels := 64 }

/-- What byte `a` of IN_MEM holds at power-on: unspecified (10_state.md R42, U10; log 2). -/
opaque Config.powerOnIn : Nat → Byte

/-- What byte `a` of OUT_MEM holds at power-on: unspecified (10_state.md R43, U10; log 2). -/
opaque Config.powerOnOut : Nat → Byte

/-- What element `i` of PIX_MEM holds at power-on: unspecified (10_state.md R44, U10; log 2). -/
opaque Config.powerOnPixel : Nat → Pixel

/-- An arbitrary 32-bit value, a fresh one for each count: a register read while BUSY (43_control.md R228, U5; log 5). -/
opaque Config.freeWord : Nat → Word

/-- An arbitrary byte for each count and index: OUT_MEM inside a write window (60_exceptions.md R243, U9) or read by
the host while BUSY (43_control.md R229 (b), U6); log 5. -/
opaque Config.freeByte : Nat → Nat → Byte

/-- An arbitrary element for each count and index: PIX_MEM, as `Config.freeByte`. -/
opaque Config.freePixel : Nat → Nat → Pixel

end Sys2Proof
end

