-- ==== Sys2Proof/Syntax.lean ====
section
/-! DEFINITION. The 16 commands of 30_encoding.md R91 and the fields of a command word (R90). -/

namespace Sys2Proof

/-- One constructor per row of spec/opcode_table.json. A command has no operand in its word: every operand is in a
register (30_encoding.md R90), and the two shape bits pick the row. -/
inductive Instr where
  | nop
  | vleDec
  | vleEnc
  | vleFlush
  | zzEnc
  | zzDec
  | rdcDec
  | rdcEnc
  | fcParseBin
  | fcParseText
  | fcParseTextClip
  | fcWrite
  | frameDecBin
  | frameDecText
  | frameDecTextClip
  | frameEnc
  deriving DecidableEq, Repr

/-- The four fields of a command word (30_encoding.md R90). -/
structure CmdFields where
  op       : BitVec 8
  shape    : Bool
  tclip    : Bool
  reserved : BitVec 22
  deriving DecidableEq, Repr

/-- The fields of each command (30_encoding.md R90 and R91): SHAPE 1 for the textual header, TCLIP 1 for its clip line. -/
def Instr.fields : Instr → CmdFields
  | .nop              => ⟨0x00, false, false, 0⟩
  | .vleDec           => ⟨0x01, false, false, 0⟩
  | .vleEnc           => ⟨0x02, false, false, 0⟩
  | .vleFlush         => ⟨0x03, false, false, 0⟩
  | .zzEnc            => ⟨0x10, false, false, 0⟩
  | .zzDec            => ⟨0x11, false, false, 0⟩
  | .rdcDec           => ⟨0x12, false, false, 0⟩
  | .rdcEnc           => ⟨0x13, false, false, 0⟩
  | .fcParseBin       => ⟨0x20, false, false, 0⟩
  | .fcParseText      => ⟨0x20, true, false, 0⟩
  | .fcParseTextClip  => ⟨0x20, true, true, 0⟩
  | .fcWrite          => ⟨0x21, false, false, 0⟩
  | .frameDecBin      => ⟨0x22, false, false, 0⟩
  | .frameDecText     => ⟨0x22, true, false, 0⟩
  | .frameDecTextClip => ⟨0x22, true, true, 0⟩
  | .frameEnc         => ⟨0x23, false, false, 0⟩

/-- The assembler spelling (30_encoding.md R95). -/
def Instr.asm : Instr → String
  | .nop              => "NOP"
  | .vleDec           => "VLE.DEC"
  | .vleEnc           => "VLE.ENC"
  | .vleFlush         => "VLE.FLUSH"
  | .zzEnc            => "ZZ.ENC"
  | .zzDec            => "ZZ.DEC"
  | .rdcDec           => "RDC.DEC"
  | .rdcEnc           => "RDC.ENC"
  | .fcParseBin       => "FC.PARSE bin"
  | .fcParseText      => "FC.PARSE text"
  | .fcParseTextClip  => "FC.PARSE text, clip"
  | .fcWrite          => "FC.WRITE"
  | .frameDecBin      => "FRAME.DEC bin"
  | .frameDecText     => "FRAME.DEC text"
  | .frameDecTextClip => "FRAME.DEC text, clip"
  | .frameEnc         => "FRAME.ENC"

end Sys2Proof
end

