-- ==== Sys2Proof/WellFormed.lean ====
section
/-! DEFINITION. The checks that make a command word's fields legal (30_encoding.md R92, R93). -/

namespace Sys2Proof

/-- The OP values of 30_encoding.md R91. -/
def knownOps : List (BitVec 8) :=
  [0x00, 0x01, 0x02, 0x03, 0x10, 0x11, 0x12, 0x13, 0x20, 0x21, 0x22, 0x23]

/-- OP is a value of the table (30_encoding.md R93, first case). -/
def CmdFields.opKnown (f : CmdFields) : Bool := knownOps.contains f.op

/-- Bits [31:10] are 0 (30_encoding.md R90; R93, second case). -/
def CmdFields.reservedZero (f : CmdFields) : Bool := f.reserved == 0

/-- SHAPE and TCLIP are nonzero only in the opcodes 0x20 and 0x22 (30_encoding.md R92; R93, third case). -/
def CmdFields.shapeTaken (f : CmdFields) : Bool :=
  (!f.shape && !f.tclip) || f.op == 0x20 || f.op == 0x22

/-- (SHAPE, TCLIP) is not (0, 1) (30_encoding.md R92; R93, fourth case). -/
def CmdFields.clipHasShape (f : CmdFields) : Bool := !f.tclip || f.shape

/-- The fields are those of a legal command word (30_encoding.md R92, R93). -/
def CmdFields.wellFormed (f : CmdFields) : Bool :=
  f.opKnown && f.reservedZero && f.shapeTaken && f.clipHasShape

/-- A command is well-formed when its fields are. -/
def Instr.wellFormed (i : Instr) : Bool := i.fields.wellFormed

end Sys2Proof
end

