-- ==== Sys2Proof/Decode.lean ====
section
/-! DEFINITION. The decoder, total on any word and any bytes, and after it the encoder (30_encoding.md R90 to R93). -/

namespace Sys2Proof

/-- Why a word is no command: the four cases of 30_encoding.md R93, and fewer than four bytes (R90: a command is
exactly one word). -/
inductive DecodeError where
  | reservedBits
  | unknownOp
  | clipWithoutShape
  | shapeNotTaken
  | tooShort
  deriving DecidableEq, Repr

/-- The opcode map, row by row (30_encoding.md R91). -/
def opcodeMap : List (Word × Instr) :=
  [ (0x00000000, .nop),
    (0x00000001, .vleDec),
    (0x00000002, .vleEnc),
    (0x00000003, .vleFlush),
    (0x00000010, .zzEnc),
    (0x00000011, .zzDec),
    (0x00000012, .rdcDec),
    (0x00000013, .rdcEnc) ] ++
  [ (0x00000020, .fcParseBin),
    (0x00000120, .fcParseText),
    (0x00000320, .fcParseTextClip),
    (0x00000021, .fcWrite),
    (0x00000022, .frameDecBin),
    (0x00000122, .frameDecText),
    (0x00000322, .frameDecTextClip),
    (0x00000023, .frameEnc) ]

/-- The fields of a word (30_encoding.md R90). -/
def fieldsOf (w : Word) : CmdFields :=
  { op := w.extractLsb' 0 8, shape := w.getLsbD 8, tclip := w.getLsbD 9, reserved := w.extractLsb' 10 22 }

/-- The case of 30_encoding.md R93 that an unlisted word falls under; where several apply, the first of these tests. -/
def rejectReason (f : CmdFields) : DecodeError :=
  if !f.reservedZero then .reservedBits
  else if !f.opKnown then .unknownOp
  else if !f.clipHasShape then .clipWithoutShape
  else .shapeNotTaken

/-- A decoder compares the whole 32-bit word with the table (30_encoding.md R91); every other word is illegal (R93). -/
def decodeWord (w : Word) : Except DecodeError Instr :=
  match opcodeMap.find? (fun row => row.1 == w) with
  | some row => .ok row.2
  | none     => .error (rejectReason (fieldsOf w))

/-- A word from its four bytes, the lowest first (20_memory.md R61). -/
def wordOfBytes (b0 b1 b2 b3 : Byte) : Word := b3 ++ b2 ++ b1 ++ b0

/-- The four bytes of a word, the lowest first (20_memory.md R61). -/
def bytesOfWord (w : Word) : List Byte :=
  [w.extractLsb' 0 8, w.extractLsb' 8 8, w.extractLsb' 16 8, w.extractLsb' 24 8]

/-- The command at the head of a byte list, and the bytes after it. -/
def decode : List Byte → Except DecodeError (Instr × List Byte)
  | b0 :: b1 :: b2 :: b3 :: rest =>
    match decodeWord (wordOfBytes b0 b1 b2 b3) with
    | .ok i    => .ok (i, rest)
    | .error e => .error e
  | _ => .error .tooShort

/-- The word made of the four fields (30_encoding.md R90). -/
def CmdFields.toWord (f : CmdFields) : Word :=
  f.reserved ++ (BitVec.ofBool f.tclip ++ (BitVec.ofBool f.shape ++ f.op))

/-- The command word of an instruction (30_encoding.md R90, R91). -/
def encode (i : Instr) : Word := i.fields.toWord

/-- The bytes of an instruction, the lowest first. -/
def encodeBytes (i : Instr) : List Byte := bytesOfWord (encode i)

/-- The instruction this decoder reads from the table's word `w` of `nbits` bits; the bits above are 0. -/
def decodeTableWord (nbits w : Nat) : Option Instr :=
  match decode (bytesOfWord (BitVec.ofNat 32 (w % 2 ^ nbits))) with
  | .ok (i, _) => some i
  | .error _   => none

end Sys2Proof
end

