-- ==== Sys2Proof/Machine/State.lean ====
section
/-! DEFINITION. The state of the RVL codec core as plain data (10_state.md), the reasons a run stops, and reset. -/

namespace Sys2Proof.Machine

/-- The typed errors of 60_exceptions.md R240. `rangeError` is the reserved code 6, which nothing raises (R241). -/
inductive CmdError where
  | ioError
  | badMagic
  | malformedHeader
  | truncatedStream
  | pixelCountMismatch
  | rangeError
  | vleOverflow
  | illegalCommand
  deriving DecidableEq, Repr

/-- STATUS (10_state.md R22) by its fields; the reserved bits read 0 and hold nothing. -/
structure Status where
  busy       : Bool
  done       : Bool
  err        : Bool
  frameValid : Bool
  drop       : Bool
  errcode    : BitVec 4
  deriving DecidableEq, Repr

/-- Every register of 10_state.md R20 except CTRL and STATUS: what the acceptance snapshot saves and a raise restores
(43_control.md R220, 60_exceptions.md R243). Reserved bits hold nothing (R41). -/
structure Regs where
  /-- CMD, R23: the last command word accepted. -/
  cmd        : Word
  /-- VAL, R24. -/
  val        : Word
  /-- NPIX, R25. -/
  npix       : Word
  /-- PIXCNT, R26. -/
  pixcnt     : Word
  /-- PREV bits [15:0], R27. -/
  prev       : Pixel
  /-- RD_POS, R28. -/
  rdPos      : Word
  /-- RD_ACC, R29. -/
  rdAcc      : Word
  /-- RD_NIB bits [3:0], R30. -/
  rdNib      : BitVec 4
  /-- WR_POS, R31. -/
  wrPos      : Word
  /-- WR_ACC, R32. -/
  wrAcc      : Word
  /-- WR_NIB bits [3:0], R33. -/
  wrNib      : BitVec 4
  /-- IN_LEN, R34. -/
  inLen      : Word
  /-- WIDTH, R35. -/
  width      : Word
  /-- HEIGHT, R36. -/
  height     : Word
  /-- NEAR, R37: a binary32 bit pattern. -/
  near       : Word
  /-- FAR, R38: a binary32 bit pattern. -/
  far        : Word
  /-- HDR.CLIP_VALID, R39. -/
  clipValid  : Bool
  /-- PAYLOAD_OFF, R40. -/
  payloadOff : Word
  deriving DecidableEq, Repr

/-- The defined registers of the window (10_state.md R20). -/
inductive RegName where
  | ctrl | status | cmd | val | npix | pixcnt | prev | rdPos | rdAcc | rdNib | wrPos | wrAcc | wrNib | inLen
  | width | height | near | far | hdr | payloadOff
  deriving DecidableEq, Repr

/-- A memory: index and content pairs, indices strictly rising. An unlisted index has not been written since power-on
(10_state.md R42: a model treats every byte as unwritten until it is written). -/
abbrev Memory (α : Type) := List (Nat × α)

/-- What an access from outside the block can be (10_state.md R49): the register port (byte offset in the window,
bytes of the access), the memory port (one byte or one element), and the reset input. -/
inductive HostAccess where
  | regWrite (off bytes : Nat) (v : Word)
  | regRead  (off bytes : Nat)
  | inWrite  (a : Nat) (b : Byte)
  | inRead   (a : Nat)
  | outWrite (a : Nat) (b : Byte)
  | outRead  (a : Nat)
  | pixWrite (i : Nat) (p : Pixel)
  | pixRead  (i : Nat)
  | hwReset
  deriving DecidableEq, Repr

/-- Who moves next (00_scope.md R4): the host with one access, or the engine. DESIGN CHOICE (log 3). -/
inductive Turn where
  | host (a : HostAccess)
  | engine
  deriving DecidableEq, Repr

/-- A write window of 60_exceptions.md R244: nothing, bytes lo .. lo+n-1 of OUT_MEM, or elements 0 .. n-1 of PIX_MEM. -/
inductive Window where
  | none
  | out (lo n : Nat)
  | pix (n : Nat)
  deriving DecidableEq, Repr

/-- Everything the spec gives the block (10_state.md), its parameters, and three fields of the model's own
(`agenda`, `readData`, `freeCtr`; logs 3, 5 and 11). -/
structure State where
  /-- IN_CAP, OUT_CAP, MAX_PIXELS: parameters that no step changes (R48; log 1). -/
  cfg      : Capacities
  /-- CTRL.IE, R21. SRST holds no state. -/
  ie       : Bool
  /-- STATUS, R22. -/
  status   : Status
  /-- The other registers of R20. -/
  regs     : Regs
  /-- The acceptance snapshot, R47 (c): held from acceptance to completion. -/
  snapshot : Option Regs
  /-- IN_MEM, R42. -/
  inMem    : Memory Byte
  /-- OUT_MEM, R43. -/
  outMem   : Memory Byte
  /-- PIX_MEM, R44. -/
  pixMem   : Memory Pixel
  /-- The turns to come, the next one first (log 3). -/
  agenda   : List Turn
  /-- What the last host read returned (log 11). -/
  readData : Option Word
  /-- How many unspecified values have been taken (log 5). -/
  freeCtr  : Nat
  deriving DecidableEq, Repr

/-- Why a run stops with a fault. -/
inductive Fault where
  /-- Raised by a host memory access at an index the memory does not have (10_state.md R42 to R44, log 9).
  Safe: the model stops where the spec gives no meaning. -/
  | noSuchIndex
  deriving DecidableEq, Repr

/-- Why a run is refused. -/
inductive Refusal where
  /-- Raised by `exec` for an instruction without a meaning yet. Safe: nothing is claimed of it. -/
  | notModelled (mnemonic : String)
  /-- Raised by a host register access that is not one aligned 32-bit access to the window (20_memory.md R75, U8).
  Safe: the spec gives it no meaning. -/
  | badRegisterAccess
  /-- Raised by a host write to a memory while BUSY = 1 (43_control.md R229 (a) and (c), U7).
  Safe: the spec refuses the whole run. -/
  | memoryWriteWhileBusy
  deriving DecidableEq, Repr

/-- STATUS after reset (10_state.md R22, 70_reset_and_hazards.md R271): all fields 0. -/
def Status.reset : Status :=
  { busy := false, done := false, err := false, frameValid := false, drop := false, errcode := 0 }

/-- The registers after reset (10_state.md R23 to R40, 70_reset_and_hazards.md R270): all 0. -/
def Regs.reset : Regs :=
  { cmd := 0, val := 0, npix := 0, pixcnt := 0, prev := 0, rdPos := 0, rdAcc := 0, rdNib := 0, wrPos := 0, wrAcc := 0,
    wrNib := 0, inLen := 0, width := 0, height := 0, near := 0, far := 0, clipValid := false, payloadOff := 0 }

/-- An instance with capacities `c` after power-on reset (70_reset_and_hazards.md R270, R271): registers 0, nothing held,
memories unwritten, no turn pending. -/
def State.resetOf (c : Capacities) : State :=
  { cfg := c, ie := false, status := Status.reset, regs := Regs.reset, snapshot := none, inMem := [], outMem := [],
    pixMem := [], agenda := [], readData := none, freeCtr := 0 }

/-- The machine right after reset, with the example capacities of 95_test_vectors.md (log 1). -/
def State.reset : State := State.resetOf Capacities.example64

end Sys2Proof.Machine
end

