-- ==== Sys2Proof/Machine/Flags.lean ====
section
/-! DEFINITION. The STATUS and CTRL fields, the error codes and the interrupt output (10_state.md R21, R22;
60_exceptions.md R240, R247). -/

namespace Sys2Proof.Machine

/-- ERRCODE of each error (60_exceptions.md R240). -/
def CmdError.code : CmdError → BitVec 4
  | .ioError            => 1
  | .badMagic           => 2
  | .malformedHeader    => 3
  | .truncatedStream    => 4
  | .pixelCountMismatch => 5
  | .rangeError         => 6
  | .vleOverflow        => 7
  | .illegalCommand     => 8

/-- STATUS as the host reads it (10_state.md R22): BUSY [0], DONE [1], ERR [2], FRAME_VALID [3], DROP [4],
ERRCODE [11:8]; every other bit 0. -/
def Status.toWord (t : Status) : Word :=
  BitVec.ofNat 32 (t.busy.toNat + 2 * t.done.toNat + 4 * t.err.toNat + 8 * t.frameValid.toNat + 16 * t.drop.toNat
    + 256 * t.errcode.toNat)

/-- A host write of `v` to STATUS (10_state.md R22): a 1 in bit 1 clears DONE, a 1 in bit 4 clears DROP, nothing else
has an effect. -/
def Status.w1c (v : Word) (t : Status) : Status :=
  { t with done := t.done && !v.getLsbD 1, drop := t.drop && !v.getLsbD 4 }

/-- What acceptance does to STATUS (43_control.md R220); `clearsFrame` for RDC.DEC and the FRAME.DEC forms. -/
def Status.accepted (clearsFrame : Bool) (t : Status) : Status :=
  { t with err := false, errcode := 0, done := false, frameValid := t.frameValid && !clearsFrame, busy := true }

/-- Completion without error (43_control.md R222). -/
def Status.completed (t : Status) : Status := { t with done := true, busy := false }

/-- Completion with error `e` (60_exceptions.md R243); FRAME_VALID stays. -/
def Status.failed (e : CmdError) (t : Status) : Status :=
  { t with err := true, errcode := e.code, done := true, busy := false }

/-- The interrupt output (60_exceptions.md R247): a level, not a register. -/
def State.irq (s : State) : Bool := s.status.done && s.ie

end Sys2Proof.Machine
end

