-- ==== Sys2Proof/Machine/Ops.lean ====
section
/-! DEFINITION. The operations shared by the commands: the memories, the cursor primitives, the command lifecycle. -/

namespace Sys2Proof.Machine

/-! ## Memories -/

/-- What is written at index `a`, if anything is. -/
def Memory.lookup {α : Type} : Memory α → Nat → Option α
  | [], _ => none
  | (k, x) :: m, a => if a = k then some x else Memory.lookup m a

/-- The memory with `x` at index `a`, every other index as before. -/
def Memory.insert {α : Type} : Memory α → Nat → α → Memory α
  | [], a, x => [(a, x)]
  | (k, y) :: m, a, x =>
    if a < k then (a, x) :: (k, y) :: m
    else if a = k then (a, x) :: m
    else (k, y) :: Memory.insert m a x

/-- The memory with `f a` at each index lo .. lo+n-1, every other index as before. -/
def Memory.fill {α : Type} (m : Memory α) (lo n : Nat) (f : Nat → α) : Memory α :=
  m.filter (fun c => decide (c.1 < lo)) ++ (List.range' lo n).map (fun a => (a, f a)) ++
    m.filter (fun c => decide (lo + n ≤ c.1))

/-- The canonical form: indices strictly rising. An unlisted index is unwritten, which no entry can say. -/
def Memory.wf {α : Type} : Memory α → Bool
  | [] => true
  | [_] => true
  | (a, _) :: (b, y) :: m => decide (a < b) && Memory.wf ((b, y) :: m)

/-- Every listed index is below the capacity `n`. -/
def Memory.within {α : Type} (m : Memory α) (n : Nat) : Bool := m.all (fun c => decide (c.1 < n))

/-- Byte `a` of IN_MEM: what was written there, else what power-on left (10_state.md R42, log 2). -/
def State.inByte (s : State) (a : Nat) : Byte := (s.inMem.lookup a).getD (Config.powerOnIn a)

/-- Byte `a` of OUT_MEM (10_state.md R43, log 2). -/
def State.outByte (s : State) (a : Nat) : Byte := (s.outMem.lookup a).getD (Config.powerOnOut a)

/-- `PixRead(i)`: element `i` of PIX_MEM (20_memory.md R69, log 2). -/
def State.pixel (s : State) (i : Nat) : Pixel := (s.pixMem.lookup i).getD (Config.powerOnPixel i)

/-- `MemRead`: `n` bytes from index `a`, the lowest the least significant (20_memory.md R61). -/
def memRead (byte : Nat → Byte) (a : Nat) : Nat → Nat
  | 0 => 0
  | n + 1 => (byte a).toNat + 256 * memRead byte (a + 1) n

/-- `MemRead(IN, a, 4)` as a word. -/
def State.inWord (s : State) (a : Nat) : Word := BitVec.ofNat 32 (memRead s.inByte a 4)

/-- `MemWrite`: the `n` low bytes of `v` from index `a`, the least significant at the lowest (20_memory.md R61). -/
def memWrite (m : Memory Byte) (a : Nat) : Nat → Nat → Memory Byte
  | 0, _ => m
  | n + 1, v => memWrite (m.insert a (BitVec.ofNat 8 v)) (a + 1) n (v / 256)

/-- `MemWrite(OUT, a, 4, w)`. -/
def State.putOutWord (s : State) (a : Nat) (w : Word) : State := { s with outMem := memWrite s.outMem a 4 w.toNat }

/-- `PixWrite(i, p)` (20_memory.md R69). -/
def State.putPixel (s : State) (i : Nat) (p : Pixel) : State := { s with pixMem := s.pixMem.insert i p }

/-- Unspecified values, fresh and independent, at every place of a window (60_exceptions.md R243, U9; log 5). -/
def State.havoc (s : State) : Window → State
  | .none => s
  | .out lo n => { s with outMem := s.outMem.fill lo n (Config.freeByte s.freeCtr), freeCtr := s.freeCtr + 1 }
  | .pix n => { s with pixMem := s.pixMem.fill 0 n (Config.freePixel s.freeCtr), freeCtr := s.freeCtr + 1 }

/-! ## Cursor primitives -/

/-- A word load of the read cursor: the three assignments inside the `if` of `GetNibble` (20_memory.md R66). -/
def loadWord (s : State) : State :=
  { s with regs := { s.regs with rdAcc := s.inWord s.regs.rdPos.toNat, rdPos := s.regs.rdPos + 4, rdNib := 8 } }

/-- The last lines of `GetNibble` (20_memory.md R66): the top nibble of RD_ACC, shifted out. -/
def takeNibble (s : State) : Nibble × State :=
  (s.regs.rdAcc.extractLsb' 28 4,
    { s with regs := { s.regs with rdAcc := s.regs.rdAcc <<< 4, rdNib := s.regs.rdNib - 1 } })

/-- `GetNibble()` (20_memory.md R66). -/
def getNibble (s : State) : Except CmdError (Nibble × State) :=
  if s.regs.rdNib = 0 then
    if s.regs.rdPos.toNat + 4 > s.regs.inLen.toNat then .error .truncatedStream
    else .ok (takeNibble (loadWord s))
  else .ok (takeNibble s)

/-- A word store of the write cursor, which it leaves empty (20_memory.md R67, R68): `IoError` where the word would
pass OUT_CAP. -/
def storeWord (w : Word) (s : State) : Except CmdError State :=
  if s.regs.wrPos.toNat + 4 > s.cfg.outCap then .error .ioError
  else
    let t := s.putOutWord s.regs.wrPos.toNat w
    .ok { t with regs := { s.regs with wrPos := s.regs.wrPos + 4, wrAcc := 0, wrNib := 0 } }

/-- `PutNibble(n)` (20_memory.md R67). -/
def putNibble (n : Nibble) (s : State) : Except CmdError State :=
  let acc := (s.regs.wrAcc <<< 4) ||| n.setWidth 32
  if s.regs.wrNib.toNat + 1 = 8 then storeWord acc s
  else .ok { s with regs := { s.regs with wrAcc := acc, wrNib := s.regs.wrNib + 1 } }

/-- `FlushWord()` (20_memory.md R68). -/
def flushWord (s : State) : Except CmdError State :=
  if s.regs.wrNib = 0 then .ok s
  else storeWord (s.regs.wrAcc <<< (4 * (8 - s.regs.wrNib.toNat))) s

/-! ## The command lifecycle -/

/-- The word the engine runs: the one in CMD (10_state.md R23). -/
def State.fetchWord (s : State) : Word := s.regs.cmd

/-- RDC.DEC and the FRAME.DEC forms clear FRAME_VALID at acceptance (43_control.md R220). -/
def clearsFrame (c : Word) : Bool :=
  match decodeWord c with
  | .ok .rdcDec | .ok .frameDecBin | .ok .frameDecText | .ok .frameDecTextClip => true
  | _ => false

/-- Acceptance of the command word `c` (43_control.md R220): CMD first, so the snapshot holds `c`. -/
def acceptCommand (c : Word) (s : State) : State :=
  let r := { s.regs with cmd := c }
  { s with regs := r, snapshot := some r, status := s.status.accepted (clearsFrame c) }

/-- Completion without error (43_control.md R222); the snapshot has no further use (log 6). -/
def completeCommand (s : State) : State := { s with status := s.status.completed, snapshot := none }

/-- `raise e` (60_exceptions.md R243), the shared entry of every error: registers back to the acceptance snapshot, STATUS
records the error, the write window becomes unspecified. `s` is the state the command started in. -/
def raiseError (e : CmdError) (win : Window) (s : State) : State :=
  State.havoc { s with regs := s.snapshot.getD s.regs, snapshot := none, status := s.status.failed e } win

/-- How a command that started in `s`, with write window `win`, ends: its pseudocode reached its end or raised. -/
def finishCommand (win : Window) (s : State) (r : Except CmdError State) : Host.Outcome State Fault Refusal :=
  match r with
  | .ok t    => .next (completeCommand t)
  | .error e => .next (raiseError e win s)

/-- FRAME_VALID <- 0, as the first line of RDC.DEC and FRAME.DEC has it; acceptance has done it already (log 8). -/
def clearFrameValid (s : State) : State := { s with status := { s.status with frameValid := false } }

/-- FRAME_VALID <- 1, the last line of RDC.DEC and FRAME.DEC. -/
def setFrameValid (s : State) : State := { s with status := { s.status with frameValid := true } }

/-- Every register at its reset value, CTRL.IE at `ie`, hidden state discarded (70_reset_and_hazards.md R270,
43_control.md R225). Memories stay. -/
def resetRegisters (ie : Bool) (s : State) : State :=
  { s with ie := ie, status := Status.reset, regs := Regs.reset, snapshot := none }

/-- OUT_MEM[WR_POS .. OUT_CAP-1] (60_exceptions.md R244). -/
def outFromCursor (s : State) : Window := .out s.regs.wrPos.toNat (s.cfg.outCap - s.regs.wrPos.toNat)

end Sys2Proof.Machine
end

