-- ==== Sys2Proof/Machine/Control.lean ====
section
/-! DEFINITION. NOP and illegal command words (43_control.md R223, R224). -/

namespace Sys2Proof.Machine

/-- NOP (43_control.md R223): completes at once. -/
def execNop (s : State) : Host.Outcome State Fault Refusal := finishCommand .none s (.ok s)

/-- An illegal command word raises `IllegalCommand` (43_control.md R224). -/
def illegalCommand (s : State) : Host.Outcome State Fault Refusal :=
  finishCommand .none s (.error .illegalCommand)

end Sys2Proof.Machine
end

