-- ==== Sys2Proof/Machine/Float.lean ====
section
/-! DEFINITION. The textual fields of a header and binary32 (30_encoding.md R108, R109; 42_frame.md R182, R183, R186). -/

namespace Sys2Proof.Machine

/-! ## binary32 -/

/-- A binary32 NaN: exponent bits all 1, fraction not 0 (42_frame.md R186). -/
def f32IsNaN (x : Word) : Bool := x.extractLsb' 23 8 == 0xFF && x.extractLsb' 0 23 != 0

/-- The place of a binary32 value that is no NaN in the order of real values with the infinities at the ends:
the magnitude bits, negated under a sign, so that -0 and +0 are at the same place (42_frame.md R186; log 14). -/
def f32Rank (x : Word) : Int :=
  let mag : Int := (x.extractLsb' 0 31).toNat
  if x.getLsbD 31 then -mag else mag

/-- `F32Lt(a, b)`: quiet less-than (42_frame.md R186). -/
def f32Lt (a b : Word) : Bool := !f32IsNaN a && !f32IsNaN b && decide (f32Rank a < f32Rank b)

/-- `num / den` rounded to an integer, ties to even. -/
def divTiesEven (num den : Nat) : Nat :=
  let q := num / den
  let r := num % den
  if 2 * r > den ∨ (2 * r = den ∧ q % 2 = 1) then q + 1 else q

/-- The magnitude bits of `num / den` rounded to binary32 with roundTiesToEven (30_encoding.md R109; log 14).
The value is counted in units of 2^-149, the least positive binary32. With `f` its integer part, the last kept bit is
2^t with t = log2 f - 23 (0 in the subnormal range), and t 2^23 + significand is the bit pattern: a carry out of the
significand moves to the next exponent by itself. Patterns of 0x7F800000 and above say the value overflows. -/
def f32OfRatio (num den : Nat) : Nat :=
  let x := num * 2 ^ 149
  let t := Nat.log2 (x / den) - 23
  t * 2 ^ 23 + divTiesEven x (den * 2 ^ t)

/-- The magnitude bits of `m 10^e` rounded to binary32. From 10^39 on a value overflows and below 10^-46 it rounds to
zero, which is settled before any large power is taken (log 15). -/
def f32OfDecimal (m : Nat) (e : Int) : Nat :=
  if m = 0 then 0
  else if 39 ≤ e then 0x7F800000
  else if e + Nat.log2 m + 1 ≤ -46 then 0
  else if 0 ≤ e then f32OfRatio (m * 10 ^ e.toNat) 1
  else f32OfRatio m (10 ^ (-e).toNat)

/-! ## Field syntax -/

/-- '0' .. '9' (30_encoding.md R108). -/
def isDigit (b : Byte) : Bool := decide (0x30 ≤ b.toNat ∧ b.toNat ≤ 0x39)

/-- The number a string of digits spells, after the value `v` of the digits before it. -/
def digitsValue (v : Nat) : List Byte → Nat
  | [] => v
  | b :: bs => digitsValue (10 * v + (b.toNat - 0x30)) bs

/-- A spelled decimal: sign, and the value `mant 10^exp`. -/
structure Decimal where
  neg  : Bool
  mant : Nat
  exp  : Int
  deriving DecidableEq, Repr

/-- `sign?`: whether it is '-', and the bytes after it (30_encoding.md R109). -/
def takeSign : List Byte → Bool × List Byte
  | [] => (false, [])
  | b :: bs => if b = 0x2D then (true, bs) else if b = 0x2B then (false, bs) else (false, b :: bs)

/-- `exponent?` to the end of the token (30_encoding.md R109). -/
def takeExponent : List Byte → Option Int
  | [] => some 0
  | b :: bs =>
    if b = 0x65 ∨ b = 0x45 then
      let (neg, ds) := takeSign bs
      if ds ≠ [] ∧ ds.all isDigit then
        let v : Int := digitsValue 0 ds
        some (if neg then -v else v)
      else none
    else none

/-- The production `flt` on a whole token (30_encoding.md R109). -/
def parseFlt (tok : List Byte) : Option Decimal :=
  let (neg, body) := takeSign tok
  let ints := body.takeWhile isDigit
  let rest := body.dropWhile isDigit
  let (fracs, tail) :=
    match rest with
    | [] => ([], [])
    | b :: bs => if b = 0x2E then (bs.takeWhile isDigit, bs.dropWhile isDigit) else ([], b :: bs)
  if ints = [] ∧ fracs = [] then none
  else
    match takeExponent tail with
    | none => none
    | some e => some { neg := neg, mant := digitsValue 0 (ints ++ fracs), exp := e - fracs.length }

/-- The binary32 pattern of a spelled decimal, none where it rounds to an infinity (30_encoding.md R109). -/
def f32OfSpelled (d : Decimal) : Option Word :=
  let mag := f32OfDecimal d.mant d.exp
  if mag ≥ 0x7F800000 then none
  else some (BitVec.ofNat 32 (mag + if d.neg then 2 ^ 31 else 0))

/-- The `while` of `ParseDec` (42_frame.md R182): the value and the position after the digits. -/
def scanDigits (byte : Nat → Byte) : Nat → Nat → Nat → Nat × Nat
  | 0, pos, v => (v, pos)
  | fuel + 1, pos, v =>
    if isDigit (byte pos) then scanDigits byte fuel (pos + 1) (10 * v + ((byte pos).toNat - 0x30)) else (v, pos)

/-- `ParseDec(pos, term)` with buffer length `len` (42_frame.md R182). -/
def parseDec (byte : Nat → Byte) (len pos : Nat) (term : Byte) : Except CmdError (Nat × Nat) :=
  let (v, q) := scanDigits byte (len - pos) pos 0
  if q = pos then .error .malformedHeader
  else if v > 2 ^ 32 - 1 then .error .malformedHeader
  else if q ≥ len ∨ byte q ≠ term then .error .malformedHeader
  else .ok (v, q + 1)

/-- The bytes from `pos` up to the first `term`, looking at `fuel` bytes (42_frame.md R183). -/
def scanToken (byte : Nat → Byte) (term : Byte) : Nat → Nat → Option (List Byte)
  | 0, _ => none
  | fuel + 1, pos =>
    if byte pos = term then some []
    else (scanToken byte term fuel (pos + 1)).map (fun bs => byte pos :: bs)

/-- `ParseF32(pos, term)` with buffer length `len` (42_frame.md R183). -/
def parseF32 (byte : Nat → Byte) (len pos : Nat) (term : Byte) : Except CmdError (Word × Nat) :=
  match scanToken byte term (len - pos) pos with
  | none => .error .malformedHeader
  | some tok =>
    match parseFlt tok with
    | none => .error .malformedHeader
    | some d =>
      match f32OfSpelled d with
      | none => .error .malformedHeader
      | some x => .ok (x, pos + tok.length + 1)

end Sys2Proof.Machine
end

