-- ==== Sys2Proof/Machine/Vle.lean ====
section
/-! DEFINITION. The VLECoder commands (40_vlecoder.md). -/

namespace Sys2Proof.Machine

/-- The `while` of `VleEncode` from count `k` (40_vlecoder.md R130), at most `fuel` increments. -/
def chunkCountFrom (v : Word) : Nat → Nat → Nat
  | 0, k => k
  | fuel + 1, k => if v >>> (3 * k) ≠ 0 then chunkCountFrom v fuel (k + 1) else k

/-- The chunk count of `v`: the loop starts at 1 and stops at 11 at the latest (40_vlecoder.md R130). -/
def chunkCount (v : Word) : Nat := chunkCountFrom v 10 1

/-- The nibble for chunk `i` counted from the last (40_vlecoder.md R130): continuation bit and 3 payload bits. -/
def chunkNibble (v : Word) (i : Nat) : Nibble :=
  BitVec.ofBool (decide (i ≠ 0)) ++ (v >>> (3 * i)).extractLsb' 0 3

/-- The `for` of `VleEncode`: chunks k-1 down to 0 (40_vlecoder.md R130). -/
def putChunks (v : Word) : Nat → State → Except CmdError State
  | 0, s => .ok s
  | i + 1, s =>
    match putNibble (chunkNibble v i) s with
    | .ok t    => putChunks v i t
    | .error e => .error e

/-- `VleEncode(v)` (40_vlecoder.md R130). -/
def vleEncode (v : Word) (s : State) : Except CmdError State := putChunks v (chunkCount v) s

/-- The `loop` of `VleDecode` with accumulator `r` and `fuel` nibbles still allowed (40_vlecoder.md R131). -/
def vleDecodeFrom : Nat → Word → State → Except CmdError (Word × State)
  | 0, _, _ => .error .vleOverflow
  | fuel + 1, r, s =>
    match getNibble s with
    | .error e => .error e
    | .ok (n, t) =>
      if r >>> 29 ≠ 0 then .error .vleOverflow
      else
        let r' := (r <<< 3) ||| (n.extractLsb' 0 3).setWidth 32
        if n.getLsbD 3 then vleDecodeFrom fuel r' t else .ok (r', t)

/-- `VleDecode()` (40_vlecoder.md R131): at most 11 nibbles. -/
def vleDecode (s : State) : Except CmdError (Word × State) := vleDecodeFrom 11 0 s

/-- VAL <- v. -/
def setVal (v : Word) (s : State) : State := { s with regs := { s.regs with val := v } }

/-- VLE.DEC (40_vlecoder.md R133). -/
def execVleDec (s : State) : Host.Outcome State Fault Refusal :=
  finishCommand .none s <|
    match vleDecode s with
    | .ok (v, t) => .ok (setVal v t)
    | .error e   => .error e

/-- VLE.ENC (40_vlecoder.md R132). -/
def execVleEnc (s : State) : Host.Outcome State Fault Refusal :=
  finishCommand (outFromCursor s) s (vleEncode s.regs.val s)

/-- VLE.FLUSH (40_vlecoder.md R134). -/
def execVleFlush (s : State) : Host.Outcome State Fault Refusal :=
  finishCommand (outFromCursor s) s (flushWord s)

end Sys2Proof.Machine
end

