-- ==== Sys2Proof/Machine/RunDelta.lean ====
section
/-! DEFINITION. The zigzag functions and the RunDeltaCodec commands (41_rundelta.md). -/

namespace Sys2Proof.Machine

/-- `ZigzagEncode16(d)` (41_rundelta.md R150). -/
def zigzagEncode16 (d : BitVec 16) : BitVec 16 :=
  (d <<< 1) ^^^ (if d.getLsbD 15 then 0xFFFF else 0x0000)

/-- `ZigzagDecode32(c)` (41_rundelta.md R151). -/
def zigzagDecode32 (c : Word) : Word :=
  (c >>> 1) ^^^ (if c.getLsbD 0 then 0xFFFFFFFF else 0x00000000)

/-- ZZ.ENC (41_rundelta.md R152). -/
def execZzEnc (s : State) : Host.Outcome State Fault Refusal :=
  finishCommand .none s (.ok (setVal ((zigzagEncode16 (s.regs.val.extractLsb' 0 16)).setWidth 32) s))

/-- ZZ.DEC (41_rundelta.md R153). -/
def execZzDec (s : State) : Host.Outcome State Fault Refusal :=
  finishCommand .none s (.ok (setVal (zigzagDecode32 s.regs.val) s))

/-! ## Decode -/

/-- PIXCNT <- PIXCNT + n. -/
def addPixcnt (n : Word) (s : State) : State := { s with regs := { s.regs with pixcnt := s.regs.pixcnt + n } }

/-- `PixWrite(i + k, 0)` for k below the count (41_rundelta.md R155). -/
def putZeros (i : Nat) : Nat → State → State
  | 0, s => s
  | k + 1, s => putZeros (i + 1) k (s.putPixel i 0)

/-- One pixel of a nonzero run: `cur` written at PIXCNT, PREV and PIXCNT advanced (41_rundelta.md R154, R155). -/
def emitPixel (cur : Pixel) (s : State) : State :=
  let t := s.putPixel s.regs.pixcnt.toNat cur
  { t with regs := { s.regs with prev := cur, pixcnt := s.regs.pixcnt + 1 } }

/-- The `for` over a nonzero run (41_rundelta.md R155): the sum is taken mod 2^16. -/
def decodeDeltas : Nat → State → Except CmdError State
  | 0, s => .ok s
  | k + 1, s =>
    match vleDecode s with
    | .error e => .error e
    | .ok (coded, t) => decodeDeltas k (emitPixel (t.regs.prev + (zigzagDecode32 coded).setWidth 16) t)

/-- One pass of the `repeat` of `RdcDecodeBody` (41_rundelta.md R155): a zero run, then a nonzero run. -/
def decodePair (n : Nat) (s : State) : Except CmdError State :=
  match vleDecode s with
  | .error e => .error e
  | .ok (zr, t) =>
    if t.regs.pixcnt.toNat + zr.toNat > n then .error .pixelCountMismatch
    else
      match vleDecode (addPixcnt zr (putZeros t.regs.pixcnt.toNat zr.toNat t)) with
      | .error e => .error e
      | .ok (nzr, u) =>
        if u.regs.pixcnt.toNat + nzr.toNat > n then .error .pixelCountMismatch
        else decodeDeltas nzr.toNat u

/-- The `repeat` of `RdcDecodeBody`, at most `fuel` passes (41_rundelta.md R155). -/
def decodePairs (n : Nat) : Nat → State → Except CmdError State
  | 0, _ => .error .truncatedStream
  | fuel + 1, s =>
    match decodePair n s with
    | .error e => .error e
    | .ok t => if t.regs.pixcnt.toNat = n then .ok t else decodePairs n fuel t

/-- More passes than the nibbles the read cursor can still give: each pass takes at least two, so a decode ends in
completion or an error before the passes do (41_rundelta.md R160; log 13). -/
def decodeFuel (s : State) : Nat := s.regs.rdNib.toNat + 2 * s.regs.inLen.toNat + 1

/-- PREV <- 0 ; PIXCNT <- 0 (41_rundelta.md R154, R155, R157). -/
def startBody (s : State) : State := { s with regs := { s.regs with prev := 0, pixcnt := 0 } }

/-- `N == 0 or N > MAX_PIXELS` (41_rundelta.md R155, R157). -/
def badPixelCount (s : State) : Bool := decide (s.regs.npix.toNat = 0 ∨ s.regs.npix.toNat > s.cfg.maxPixels)

/-- `RdcDecodeBody()` (41_rundelta.md R155). -/
def rdcDecodeBody (s : State) : Except CmdError State :=
  if badPixelCount s then .error .pixelCountMismatch
  else decodePairs s.regs.npix.toNat (decodeFuel s) (startBody s)

/-- RDC.DEC's write window (60_exceptions.md R244). -/
def rdcDecWindow (s : State) : Window := if badPixelCount s then .none else .pix s.regs.npix.toNat

/-- RDC.DEC (41_rundelta.md R156). -/
def execRdcDec (s : State) : Host.Outcome State Fault Refusal :=
  finishCommand (rdcDecWindow s) (clearFrameValid s) <|
    match rdcDecodeBody (clearFrameValid s) with
    | .ok t    => .ok (setFrameValid t)
    | .error e => .error e

/-! ## Encode -/

/-- The length of the maximal run of pixels that satisfy `p` from index `i`, looking at `fuel` pixels
(the two inner `while`s of 41_rundelta.md R157, with `fuel` = N - i). -/
def runLength (pixel : Nat → Pixel) (p : Pixel → Bool) : Nat → Nat → Nat
  | 0, _ => 0
  | fuel + 1, i => if p (pixel i) then runLength pixel p fuel (i + 1) + 1 else 0

/-- The `for` over a nonzero run from index `j` (41_rundelta.md R157). -/
def encodeDeltas (j : Nat) : Nat → State → Except CmdError State
  | 0, s => .ok s
  | k + 1, s =>
    let p := s.pixel j
    match vleEncode ((zigzagEncode16 (p - s.regs.prev)).setWidth 32) s with
    | .error e => .error e
    | .ok t => encodeDeltas (j + 1) k { t with regs := { t.regs with prev := p } }

/-- One pass of the outer `while` from index `i`: the state and the next index (41_rundelta.md R157). -/
def encodePair (n i : Nat) (s : State) : Except CmdError (State × Nat) :=
  let z := runLength s.pixel (fun p => p == 0) (n - i) i
  match vleEncode (BitVec.ofNat 32 z) s with
  | .error e => .error e
  | .ok t =>
    let nz := runLength s.pixel (fun p => p != 0) (n - (i + z)) (i + z)
    match vleEncode (BitVec.ofNat 32 nz) t with
    | .error e => .error e
    | .ok u =>
      match encodeDeltas (i + z) nz u with
      | .error e => .error e
      | .ok w =>
        .ok ({ w with regs := { w.regs with pixcnt := BitVec.ofNat 32 (i + z + nz) } }, i + z + nz)

/-- The outer `while` of `RdcEncodeBody`, at most `fuel` passes; `i` grows in every pass (41_rundelta.md R157, R160;
log 13). -/
def encodePairs (n : Nat) : Nat → Nat → State → Except CmdError State
  | 0, _, s => .ok s
  | fuel + 1, i, s =>
    if i < n then
      match encodePair n i s with
      | .error e => .error e
      | .ok (t, j) => encodePairs n fuel j t
    else .ok s

/-- `RdcEncodeBody()` (41_rundelta.md R157). DESIGN CHOICE between rules (log 22): it clears no part of the write cursor, so
RDC.ENC stores the nibbles pending in WR_ACC ahead of its own (R158, D36), although 70_reset_and_hazards.md R278 lists RDC.ENC
among the commands that lose them. -/
def rdcEncodeBody (s : State) : Except CmdError State :=
  if badPixelCount s then .error .pixelCountMismatch
  else
    match encodePairs s.regs.npix.toNat s.regs.npix.toNat 0 (startBody s) with
    | .error e => .error e
    | .ok t => flushWord t

/-- RDC.ENC (41_rundelta.md R158): it appends after the nibbles pending in WR_ACC (log 22). -/
def execRdcEnc (s : State) : Host.Outcome State Fault Refusal :=
  finishCommand (outFromCursor s) s (rdcEncodeBody s)

end Sys2Proof.Machine
end

