-- ==== Sys2Proof/Machine/Frame.lean ====
section
/-! DEFINITION. The FrameContainer commands (42_frame.md) and the write windows (60_exceptions.md R244). -/

namespace Sys2Proof.Machine

/-- What a header parse returns: (w, h, nr, fr, clip, off) (42_frame.md R181, R184). -/
structure Header where
  width  : Word
  height : Word
  near   : Word
  far    : Word
  clip   : Bool
  off    : Word
  deriving DecidableEq, Repr

/-- R[IN_LEN] as a number: the L of 42_frame.md. -/
def State.inLimit (s : State) : Nat := s.regs.inLen.toNat

/-- `CheckMagic()` passes (42_frame.md R180). -/
def magicOk (s : State) : Bool :=
  decide (4 ≤ s.inLimit) && s.inByte 0 == 0x52 && s.inByte 1 == 0x56 && s.inByte 2 == 0x4C && s.inByte 3 == 0x0A

/-- `ParseBinaryHeader()` (42_frame.md R181). -/
def parseBinaryHeader (s : State) : Except CmdError Header :=
  if s.inLimit < 20 then .error .malformedHeader
  else .ok { width := s.inWord 4, height := s.inWord 8, near := s.inWord 12, far := s.inWord 16, clip := true, off := 20 }

/-- `ParseTextHeader(tclip)` (42_frame.md R184). -/
def parseTextHeader (tclip : Bool) (s : State) : Except CmdError Header :=
  match parseDec s.inByte s.inLimit 4 0x20 with
  | .error e => .error e
  | .ok (w, p) =>
    match parseDec s.inByte s.inLimit p 0x0A with
    | .error e => .error e
    | .ok (h, q) =>
      if tclip then
        match parseF32 s.inByte s.inLimit q 0x20 with
        | .error e => .error e
        | .ok (nr, r) =>
          match parseF32 s.inByte s.inLimit r 0x0A with
          | .error e => .error e
          | .ok (fr, o) =>
            .ok { width := BitVec.ofNat 32 w, height := BitVec.ofNat 32 h, near := nr, far := fr, clip := true,
                  off := BitVec.ofNat 32 o }
      else
        .ok { width := BitVec.ofNat 32 w, height := BitVec.ofNat 32 h, near := 0, far := 0, clip := false,
              off := BitVec.ofNat 32 q }

/-- `ValidateHeader(w, h, nr, fr, clip)` passes (42_frame.md R185). -/
def headerOk (c : Capacities) (w h nr fr : Word) (clip : Bool) : Bool :=
  decide (w ≠ 0) && decide (h ≠ 0) && decide (w.toNat * h.toNat ≤ c.maxPixels) && (!clip || f32Lt nr fr)

/-- The register writes of `FcParseBody` (42_frame.md R187). -/
def setHeader (hd : Header) (s : State) : State :=
  { s with regs := { s.regs with
      width := hd.width, height := hd.height, near := hd.near, far := hd.far, clipValid := hd.clip,
      payloadOff := hd.off, rdPos := hd.off, rdNib := 0, rdAcc := 0 } }

/-- The header of the shape (SHAPE, TCLIP), before validation (42_frame.md R187). -/
def parseHeader (shape tclip : Bool) (s : State) : Except CmdError Header :=
  if shape then parseTextHeader tclip s else parseBinaryHeader s

/-- `FcParseBody(shape, tclip)` (42_frame.md R187). -/
def fcParseBody (shape tclip : Bool) (s : State) : Except CmdError State :=
  if !magicOk s then .error .badMagic
  else
    match parseHeader shape tclip s with
    | .error e => .error e
    | .ok hd =>
      if headerOk s.cfg hd.width hd.height hd.near hd.far hd.clip then .ok (setHeader hd s)
      else .error .malformedHeader

/-- FC.PARSE bin (42_frame.md R188). -/
def execFcParseBin (s : State) : Host.Outcome State Fault Refusal :=
  finishCommand .none s (fcParseBody false false s)

/-- FC.PARSE text (42_frame.md R189). -/
def execFcParseText (s : State) : Host.Outcome State Fault Refusal :=
  finishCommand .none s (fcParseBody true false s)

/-- FC.PARSE text, clip (42_frame.md R190). -/
def execFcParseTextClip (s : State) : Host.Outcome State Fault Refusal :=
  finishCommand .none s (fcParseBody true true s)

/-- The header validation of `WriteHeaderBody`: `ValidateHeader` and CLIP_VALID = 1 (42_frame.md R191). -/
def writeHeaderOk (s : State) : Bool :=
  headerOk s.cfg s.regs.width s.regs.height s.regs.near s.regs.far true && s.regs.clipValid

/-- The five `MemWrite`s of `WriteHeaderBody` (42_frame.md R191). -/
def putHeader (s : State) : State :=
  ((((s.putOutWord 0 0x0A4C5652).putOutWord 4 s.regs.width).putOutWord 8 s.regs.height).putOutWord 12
    s.regs.near).putOutWord 16 s.regs.far

/-- `WriteHeaderBody()` (42_frame.md R191). -/
def writeHeaderBody (s : State) : Except CmdError State :=
  if !writeHeaderOk s then .error .malformedHeader
  else if s.cfg.outCap < 20 then .error .ioError
  else
    let t := putHeader s
    .ok { t with regs := { s.regs with wrPos := 20, wrNib := 0, wrAcc := 0 } }

/-- FC.WRITE (42_frame.md R192); every error of it comes before its first byte write, so its error window is empty
(60_exceptions.md R244). -/
def execFcWrite (s : State) : Host.Outcome State Fault Refusal :=
  finishCommand .none s (writeHeaderBody s)

/-- R[NPIX] <- R[WIDTH] * R[HEIGHT] (42_frame.md R193 to R196). -/
def setNpixFromHeader (s : State) : State :=
  { s with regs := { s.regs with npix := BitVec.ofNat 32 (s.regs.width.toNat * s.regs.height.toNat) } }

/-- FRAME.DEC's pseudocode between the two FRAME_VALID writes, and the second (42_frame.md R193 to R195). -/
def frameDecBody (shape tclip : Bool) (s : State) : Except CmdError State :=
  match fcParseBody shape tclip s with
  | .error e => .error e
  | .ok t =>
    match rdcDecodeBody (setNpixFromHeader t) with
    | .error e => .error e
    | .ok u => .ok (setFrameValid u)

/-- FRAME.DEC's write window (60_exceptions.md R244): PIX_MEM[0 .. N-1] if `FcParseBody` completed, N as parsed. -/
def frameDecWindow (shape tclip : Bool) (s : State) : Window :=
  match fcParseBody shape tclip s with
  | .error _ => .none
  | .ok t => .pix (t.regs.width.toNat * t.regs.height.toNat)

/-- FRAME.DEC bin (42_frame.md R193). -/
def execFrameDecBin (s : State) : Host.Outcome State Fault Refusal :=
  finishCommand (frameDecWindow false false s) (clearFrameValid s) (frameDecBody false false (clearFrameValid s))

/-- FRAME.DEC text (42_frame.md R194). -/
def execFrameDecText (s : State) : Host.Outcome State Fault Refusal :=
  finishCommand (frameDecWindow true false s) (clearFrameValid s) (frameDecBody true false (clearFrameValid s))

/-- FRAME.DEC text, clip (42_frame.md R195). -/
def execFrameDecTextClip (s : State) : Host.Outcome State Fault Refusal :=
  finishCommand (frameDecWindow true true s) (clearFrameValid s) (frameDecBody true true (clearFrameValid s))

/-- FRAME.ENC's pseudocode (42_frame.md R196). -/
def frameEncBody (s : State) : Except CmdError State :=
  match writeHeaderBody s with
  | .error e => .error e
  | .ok t => rdcEncodeBody (setNpixFromHeader t)

/-- `win` if `WriteHeaderBody`'s checks pass, OUT_CAP among them, otherwise none (60_exceptions.md R244): every error of
`WriteHeaderBody` is a check made before its first byte write (42_frame.md R191, R192). -/
def windowIfHeaderChecks (win : Window) (s : State) : Window :=
  match writeHeaderBody s with
  | .error _ => .none
  | .ok _ => win

/-- FRAME.ENC's write window: all of OUT_MEM if `WriteHeaderBody`'s checks pass (60_exceptions.md R244; DEDUCED, log 7:
42_frame.md R196 says 'if the header validation had passed'). -/
def frameEncWindow (s : State) : Window := windowIfHeaderChecks (.out 0 s.cfg.outCap) s

/-- FRAME.ENC (42_frame.md R196). -/
def execFrameEnc (s : State) : Host.Outcome State Fault Refusal :=
  finishCommand (frameEncWindow s) s (frameEncBody s)

/-! ## Write windows of all commands -/

/-- FC.WRITE's window on a reset abort: OUT_MEM[0 .. 19] if `WriteHeaderBody`'s checks pass (60_exceptions.md R244). -/
def fcWriteResetWindow (s : State) : Window := windowIfHeaderChecks (.out 0 20) s

/-- The window left unspecified when `i`, started in `s`, ends with an error (60_exceptions.md R244). -/
def errorWindow (i : Instr) (s : State) : Window :=
  match i with
  | .nop | .zzEnc | .zzDec | .vleDec | .fcParseBin | .fcParseText | .fcParseTextClip | .fcWrite => .none
  | .vleEnc | .vleFlush | .rdcEnc => outFromCursor s
  | .frameEnc => frameEncWindow s
  | .rdcDec => rdcDecWindow s
  | .frameDecBin => frameDecWindow false false s
  | .frameDecText => frameDecWindow true false s
  | .frameDecTextClip => frameDecWindow true true s

/-- The window left unspecified when a reset aborts the running command of `s` (60_exceptions.md R244): as on an error,
but for FC.WRITE; an illegal word, or no command running, has none. -/
def abortWindow (s : State) : Window :=
  if s.status.busy then
    match decodeWord s.fetchWord with
    | .error _ => .none
    | .ok .fcWrite => fcWriteResetWindow s
    | .ok i => errorWindow i s
  else .none

end Sys2Proof.Machine
end

