-- ==== Sys2Proof/Machine/Dispatch.lean ====
section
/-! DEFINITION. The instruction's meaning: one arm per command (30_encoding.md R91). -/

namespace Sys2Proof.Machine

def exec (i : Instr) (s : State) : Host.Outcome State Fault Refusal :=
  match i with
  | .nop => Sys2Proof.Machine.execNop s
  | .vleDec => Sys2Proof.Machine.execVleDec s
  | .vleEnc => Sys2Proof.Machine.execVleEnc s
  | .vleFlush => Sys2Proof.Machine.execVleFlush s
  | .zzEnc => Sys2Proof.Machine.execZzEnc s
  | .zzDec => Sys2Proof.Machine.execZzDec s
  | .rdcDec => Sys2Proof.Machine.execRdcDec s
  | .rdcEnc => Sys2Proof.Machine.execRdcEnc s
  | .fcParseBin => Sys2Proof.Machine.execFcParseBin s
  | .fcParseText => Sys2Proof.Machine.execFcParseText s
  | .fcParseTextClip => Sys2Proof.Machine.execFcParseTextClip s
  | .fcWrite => Sys2Proof.Machine.execFcWrite s
  | .frameDecBin => Sys2Proof.Machine.execFrameDecBin s
  | .frameDecText => Sys2Proof.Machine.execFrameDecText s
  | .frameDecTextClip => Sys2Proof.Machine.execFrameDecTextClip s
  | .frameEnc => Sys2Proof.Machine.execFrameEnc s

end Sys2Proof.Machine
end

