-- ==== Sys2Proof/Machine/Operands.lean ====
section
/-! DEFINITION. The register window, where every operand of a command is (10_state.md R20 to R41; 43_control.md
R220, R221, R225 to R228). -/

namespace Sys2Proof.Machine

/-- The byte offset of each register (10_state.md R20). -/
def RegName.offset : RegName → Nat
  | .ctrl       => 0x00
  | .status     => 0x04
  | .cmd        => 0x08
  | .val        => 0x0C
  | .npix       => 0x10
  | .pixcnt     => 0x14
  | .prev       => 0x18
  | .rdPos      => 0x1C
  | .rdAcc      => 0x20
  | .rdNib      => 0x24
  | .wrPos      => 0x28
  | .wrAcc      => 0x2C
  | .wrNib      => 0x30
  | .inLen      => 0x34
  | .width      => 0x38
  | .height     => 0x3C
  | .near       => 0x40
  | .far        => 0x44
  | .hdr        => 0x48
  | .payloadOff => 0x4C

/-- The registers of the window in the order of their offsets (10_state.md R20). -/
def regNames : List RegName :=
  [.ctrl, .status, .cmd, .val, .npix, .pixcnt, .prev, .rdPos, .rdAcc, .rdNib] ++
  [.wrPos, .wrAcc, .wrNib, .inLen, .width, .height, .near, .far, .hdr, .payloadOff]

/-- The register at an offset; none at a reserved one (10_state.md R20, R41). -/
def regAt (off : Nat) : Option RegName := regNames.find? (fun r => r.offset == off)

/-- An access that the register port gives a meaning: one aligned 32-bit access to the window (10_state.md R20,
20_memory.md R75). -/
def goodAccess (off bytes : Nat) : Bool := decide (bytes = 4 ∧ off % 4 = 0 ∧ off < 256)

/-- The value of a register as its rule lays it out (10_state.md R21 to R40); reserved bits and CTRL.SRST read 0. -/
def regValue (r : RegName) (s : State) : Word :=
  match r with
  | .ctrl       => BitVec.ofNat 32 s.ie.toNat
  | .status     => s.status.toWord
  | .cmd        => s.regs.cmd
  | .val        => s.regs.val
  | .npix       => s.regs.npix
  | .pixcnt     => s.regs.pixcnt
  | .prev       => s.regs.prev.setWidth 32
  | .rdPos      => s.regs.rdPos
  | .rdAcc      => s.regs.rdAcc
  | .rdNib      => s.regs.rdNib.setWidth 32
  | .wrPos      => s.regs.wrPos
  | .wrAcc      => s.regs.wrAcc
  | .wrNib      => s.regs.wrNib.setWidth 32
  | .inLen      => s.regs.inLen
  | .width      => s.regs.width
  | .height     => s.regs.height
  | .near       => s.regs.near
  | .far        => s.regs.far
  | .hdr        => BitVec.ofNat 32 s.regs.clipValid.toNat
  | .payloadOff => s.regs.payloadOff

/-- The soft reset of CTRL.SRST (43_control.md R225): the running command's window becomes unspecified (R244), every
register takes its reset value but IE, which comes from the same write. -/
def softReset (ie : Bool) (s : State) : State := resetRegisters ie (s.havoc (abortWindow s))

/-- The hardware reset (70_reset_and_hazards.md R270; log 10). -/
def hardwareReset (s : State) : State := resetRegisters false (s.havoc (abortWindow s))

/-- A write of `v` to CTRL, busy or not (10_state.md R21). -/
def writeCtrl (v : Word) (s : State) : State :=
  if v.getLsbD 1 then softReset (v.getLsbD 0) s else { s with ie := v.getLsbD 0 }

/-- A write of `v` to STATUS, busy or not (10_state.md R22, 43_control.md R227). -/
def writeStatus (v : Word) (s : State) : State := { s with status := s.status.w1c v }

/-- A write of `c` to CMD: accepted when idle (43_control.md R220), dropped while BUSY (R221). -/
def writeCmd (c : Word) (s : State) : State :=
  if s.status.busy then { s with status := { s.status with drop := true } } else acceptCommand c s

/-- A write of `v` to register `r` other than CTRL, STATUS and CMD while idle (43_control.md R226; 10_state.md R24 to
R40): a write to RD_POS or WR_POS empties that cursor, IN_LEN is clamped to IN_CAP, RO registers stay. -/
def writeIdleReg (r : RegName) (v : Word) (s : State) : Regs :=
  match r with
  | .val    => { s.regs with val := v }
  | .npix   => { s.regs with npix := v }
  | .rdPos  => { s.regs with rdPos := v, rdNib := 0, rdAcc := 0 }
  | .wrPos  => { s.regs with wrPos := v, wrNib := 0, wrAcc := 0 }
  | .inLen  => { s.regs with inLen := BitVec.ofNat 32 (min v.toNat s.cfg.inCap) }
  | .width  => { s.regs with width := v }
  | .height => { s.regs with height := v }
  | .near   => { s.regs with near := v }
  | .far    => { s.regs with far := v }
  | .hdr    => { s.regs with clipValid := v.getLsbD 0 }
  | .pixcnt | .prev | .rdAcc | .rdNib | .wrAcc | .wrNib | .payloadOff | .ctrl | .status | .cmd => s.regs

/-- A host write of `v` to register `r` (43_control.md R226, R227). -/
def writeReg (r : RegName) (v : Word) (s : State) : State :=
  match r with
  | .ctrl   => writeCtrl v s
  | .status => writeStatus v s
  | .cmd    => writeCmd v s
  | r       => if s.status.busy then s else { s with regs := writeIdleReg r v s }

/-- The registers that read their value while BUSY (43_control.md R228). -/
def readableWhileBusy : RegName → Bool
  | .ctrl | .status | .cmd | .inLen => true
  | _ => false

/-- The datum of a host read moves to the model's read port. -/
def putReadData (v : Word) (s : State) : State := { s with readData := some v }

/-- A host read of register `r` (43_control.md R228): its value, or while BUSY a fresh arbitrary one (log 5). DESIGN CHOICE
(log 21): that value is free in all 32 bits (R228, U5), also in the reserved bits of PREV, RD_NIB, WR_NIB and HDR, of which
10_state.md R41 and U12 say that they read 0. -/
def readReg (r : RegName) (s : State) : State :=
  if s.status.busy && !readableWhileBusy r then
    { s with readData := some (Config.freeWord s.freeCtr), freeCtr := s.freeCtr + 1 }
  else putReadData (regValue r s) s

/-- A host write at a window offset: a reserved offset has no effect (10_state.md R41). -/
def writeWindow (off : Nat) (v : Word) (s : State) : State :=
  match regAt off with
  | some r => writeReg r v s
  | none   => s

/-- A host read at a window offset: a reserved offset reads 0 (10_state.md R41; log 12). -/
def readWindow (off : Nat) (s : State) : State :=
  match regAt off with
  | some r => readReg r s
  | none   => putReadData 0 s

end Sys2Proof.Machine
end

