-- ==== Sys2Proof/Machine/HostPort.lean ====
section
/-! DEFINITION. One access from outside the block: the register port, the memory port and the reset input
(10_state.md R49), and the pseudo-instructions of 30_encoding.md R96 as agendas. -/

namespace Sys2Proof.Machine

/-- A host write to a memory of `cap` places at index `a` (10_state.md R42 to R44): outside the memory there is no such
index (log 9), and while BUSY the run is refused (43_control.md R229 (a), (c)). -/
def memoryWrite (cap a : Nat) (s t : State) : Host.Outcome State Fault Refusal :=
  if cap ≤ a then .fault .noSuchIndex
  else if s.status.busy then .refused .memoryWriteWhileBusy
  else .next t

/-- A host read of a memory of `cap` places at index `a`, with `v` the value read and `free` the arbitrary value a read
while BUSY returns, if it does (43_control.md R229 (b), (d)). -/
def memoryRead (cap a : Nat) (v : Word) (free : Option Word) (s : State) : Host.Outcome State Fault Refusal :=
  if cap ≤ a then .fault .noSuchIndex
  else
    match s.status.busy, free with
    | true, some u => .next { s with readData := some u, freeCtr := s.freeCtr + 1 }
    | _, _ => .next (putReadData v s)

/-- One access from outside (10_state.md R49; 43_control.md R226 to R229). -/
def hostAccess (a : HostAccess) (s : State) : Host.Outcome State Fault Refusal :=
  match a with
  | .regWrite off bytes v => if goodAccess off bytes then .next (writeWindow off v s) else .refused .badRegisterAccess
  | .regRead off bytes => if goodAccess off bytes then .next (readWindow off s) else .refused .badRegisterAccess
  | .inWrite i b => memoryWrite s.cfg.inCap i s { s with inMem := s.inMem.insert i b }
  | .inRead i => memoryRead s.cfg.inCap i ((s.inByte i).setWidth 32) none s
  | .outWrite i b => memoryWrite s.cfg.outCap i s { s with outMem := s.outMem.insert i b }
  | .outRead i =>
    memoryRead s.cfg.outCap i ((s.outByte i).setWidth 32) (some ((Config.freeByte s.freeCtr i).setWidth 32)) s
  | .pixWrite i p => memoryWrite s.cfg.maxPixels i s (s.putPixel i p)
  | .pixRead i =>
    memoryRead s.cfg.maxPixels i ((s.pixel i).setWidth 32) (some ((Config.freePixel s.freeCtr i).setWidth 32)) s
  | .hwReset => .next (hardwareReset s)

/-! ## Pseudo-instructions (30_encoding.md R96) -/

/-- `WR <REG>, v` (00_scope.md R12). -/
def turnWr (r : RegName) (v : Word) : Turn := .host (.regWrite r.offset 4 v)

/-- `RD <REG>` (00_scope.md R12). -/
def turnRd (r : RegName) : Turn := .host (.regRead r.offset 4)

/-- `WAIT`: RD STATUS until BUSY reads 0; `n` reads come before the engine's turn, which completes the command. -/
def turnsWait (n : Nat) : List Turn := List.replicate n (turnRd .status) ++ [.engine, turnRd .status]

/-- A mnemonic as a host step: its command word written to CMD (30_encoding.md R95). -/
def turnIssue (i : Instr) : Turn := turnWr .cmd (encode i)

/-- `ENC v`. -/
def turnsEnc (n : Nat) (v : Word) : List Turn := [turnWr .val v, turnIssue .vleEnc] ++ turnsWait n

/-- `DEC`. -/
def turnsDec (n : Nat) : List Turn := [turnIssue .vleDec] ++ turnsWait n ++ [turnRd .val]

/-- `RSEEK a`. -/
def turnsRseek (a : Word) : List Turn := [turnWr .rdPos a]

/-- `WSEEK a`. -/
def turnsWseek (a : Word) : List Turn := [turnWr .wrPos a]

/-- `CLRDONE`. -/
def turnsClrdone : List Turn := [turnWr .status 0x00000002]

end Sys2Proof.Machine
end

