-- ==== Sys2Proof/Machine/Engine.lean ====
section
/-! DEFINITION. The engine's turn (43_control.md R220, R224; 60_exceptions.md R253). -/

namespace Sys2Proof.Machine

/-- The engine's turn (43_control.md R220, last line; R224; 60_exceptions.md R253): while BUSY it runs the word in CMD
to its end, idle it does nothing. -/
def engineTurn (s : State) : Host.Outcome State Fault Refusal :=
  if s.status.busy then
    match decodeWord s.fetchWord with
    | .ok i    => exec i s
    | .error _ => illegalCommand s
  else .next s

/-- One turn (00_scope.md R4; log 3). -/
def takeTurn (t : Turn) (s : State) : Host.Outcome State Fault Refusal :=
  match t with
  | .engine => engineTurn s
  | .host a => hostAccess a s

end Sys2Proof.Machine
end

