-- ==== Sys2Proof/Machine/Step.lean ====
section
/-! DEFINITION. One step: the next turn of the agenda (00_scope.md R4; log 3). -/

namespace Sys2Proof.Machine

/-- One turn. With no turn pending the engine is the only agent left to move. -/
def step (s : State) : Host.Outcome State Fault Refusal :=
  match s.agenda with
  | []        => engineTurn s
  | t :: rest => takeTurn t { s with agenda := rest }

/-- `s` with the word `w` of `nbits` bits accepted as its command and the engine to move next: the state in which the
host has written `w` to CMD and the engine has not run it yet (43_control.md R220; log 3). -/
def State.withFetchWord (s : State) (nbits w : Nat) : State :=
  { acceptCommand (BitVec.ofNat 32 (w % 2 ^ nbits)) s with agenda := .engine :: s.agenda }

end Sys2Proof.Machine
end

