-- ==== Sys2Proof/Safety.lean ====
section
/-! DEFINITION. What counts as a legal state and a run that keeps the host's contract, in the terms claims use. -/

namespace Sys2Proof.Machine

/-- The read cursor is as 10_state.md R29 and R30 say: RD_NIB = k is 0 to 8 and RD_ACC[31-4k:0] is 0. -/
abbrev ReadCursorOk (r : Regs) : Prop :=
  r.rdNib.toNat ≤ 8 ∧ r.rdAcc.toNat % 2 ^ (32 - 4 * r.rdNib.toNat) = 0

/-- The write cursor is as 10_state.md R32 and R33 say: WR_NIB = k is 0 to 7 and WR_ACC[31:4k] is 0. -/
abbrev WriteCursorOk (r : Regs) : Prop :=
  r.wrNib.toNat ≤ 7 ∧ r.wrAcc.toNat < 2 ^ (4 * r.wrNib.toNat)

/-- STATUS as 10_state.md R22 and 60_exceptions.md R240, R241 allow: ERRCODE is 0 without an error and 1 to 5, 7 or 8
with one, and while BUSY neither DONE nor ERR is set (43_control.md R220). -/
abbrev StatusOk (t : Status) : Prop :=
  (t.err = false → t.errcode = 0) ∧
  (t.err = true → 1 ≤ t.errcode.toNat ∧ t.errcode.toNat ≤ 8 ∧ t.errcode ≠ 6) ∧
  (t.busy = true → t.done = false ∧ t.err = false)

/-- The registers the host or the snapshot can hold: both cursors legal, IN_LEN at most IN_CAP (10_state.md R34). -/
abbrev RegsOk (c : Capacities) (r : Regs) : Prop :=
  ReadCursorOk r ∧ WriteCursorOk r ∧ r.inLen.toNat ≤ c.inCap

/-- The three memories are canonical and list no index beyond their capacity (10_state.md R42 to R44). -/
abbrev MemoriesOk (s : State) : Prop :=
  (s.inMem.wf = true ∧ s.inMem.within s.cfg.inCap = true) ∧
  (s.outMem.wf = true ∧ s.outMem.within s.cfg.outCap = true) ∧
  (s.pixMem.wf = true ∧ s.pixMem.within s.cfg.maxPixels = true)

/-- The legal states of the block: parameters in range (00_scope.md R7), registers, STATUS and memories as their rules
say, a snapshot held exactly while BUSY and equal to the registers then (43_control.md R220, R227; log 4), and
FRAME_VALID clear while RDC.DEC or FRAME.DEC runs (R220). -/
structure State.Inv (s : State) : Prop where
  caps     : s.cfg.Legal
  regs     : RegsOk s.cfg s.regs
  status   : StatusOk s.status
  memories : MemoriesOk s
  snapshot : s.snapshot = if s.status.busy then some s.regs else none
  frame    : s.status.busy = true → clearsFrame s.regs.cmd = true → s.status.frameValid = false

/-- An access that keeps the host's contract in `s`: a register access is one aligned 32-bit access (20_memory.md R75), a
memory access has an index of that memory (10_state.md R42 to R44), and no memory is written while BUSY
(43_control.md R229). -/
def HostAccess.keepsContract (a : HostAccess) (s : State) : Bool :=
  match a with
  | .regWrite off bytes _ => goodAccess off bytes
  | .regRead off bytes    => goodAccess off bytes
  | .inWrite i _  => decide (i < s.cfg.inCap) && !s.status.busy
  | .inRead i     => decide (i < s.cfg.inCap)
  | .outWrite i _ => decide (i < s.cfg.outCap) && !s.status.busy
  | .outRead i    => decide (i < s.cfg.outCap)
  | .pixWrite i _ => decide (i < s.cfg.maxPixels) && !s.status.busy
  | .pixRead i    => decide (i < s.cfg.maxPixels)
  | .hwReset      => true

/-- The next turn keeps the host's contract; an engine's turn always does. -/
def State.nextTurnLegal (s : State) : Bool :=
  match s.agenda with
  | .host a :: _ => a.keepsContract s
  | _ => true

/-- A state in which a command has been accepted and not yet run (43_control.md R220). -/
abbrev State.Accepted (s : State) : Prop := s.Inv ∧ s.status.busy = true

/-- The command `i` issued to an idle engine and run to its end with no host turn between (43_control.md R220, R222). -/
def issue (i : Instr) (s : State) : Host.Outcome State Fault Refusal := exec i (acceptCommand (encode i) s)

/-- VAL written and VLE.ENC issued for each value in turn (40_vlecoder.md R135): the state at the end, none if a command
ended with an error. -/
def encodeAll : List Word → State → Option State
  | [], s => some s
  | v :: vs, s =>
    match issue .vleEnc (setVal v s) with
    | .next t => if t.status.err then none else encodeAll vs t
    | _ => none

/-- VLE.DEC issued `n` times (40_vlecoder.md R135): the values of VAL in order, none if a command ended with an error. -/
def decodeAll : Nat → State → Option (List Word)
  | 0, _ => some []
  | n + 1, s =>
    match issue .vleDec s with
    | .next t => if t.status.err then none else (decodeAll n t).map (fun vs => t.regs.val :: vs)
    | _ => none

/-- The errors that the table of 60_exceptions.md R240 says a command raises; an illegal word is no command. -/
def mayRaise : Instr → List CmdError
  | .nop | .zzEnc | .zzDec => []
  | .vleDec => [.truncatedStream, .vleOverflow]
  | .vleEnc | .vleFlush => [.ioError]
  | .rdcDec => [.truncatedStream, .pixelCountMismatch, .vleOverflow]
  | .rdcEnc => [.ioError, .pixelCountMismatch]
  | .fcParseBin | .fcParseText | .fcParseTextClip => [.badMagic, .malformedHeader]
  | .fcWrite | .frameEnc => [.ioError, .malformedHeader]
  | .frameDecBin | .frameDecText | .frameDecTextClip =>
    [.badMagic, .malformedHeader, .truncatedStream, .pixelCountMismatch, .vleOverflow]

/-- The registers the rule of a command names as written (40_vlecoder.md R132 to R134, 41_rundelta.md R152 to R158,
42_frame.md R188 to R196, 43_control.md R223), STATUS aside. -/
def writtenRegs : Instr → List RegName
  | .nop => []
  | .vleDec => [.val, .rdPos, .rdAcc, .rdNib]
  | .vleEnc | .vleFlush => [.wrPos, .wrAcc, .wrNib]
  | .zzEnc | .zzDec => [.val]
  | .rdcDec => [.rdPos, .rdAcc, .rdNib, .prev, .pixcnt]
  | .rdcEnc => [.wrPos, .wrAcc, .wrNib, .prev, .pixcnt]
  | .fcParseBin | .fcParseText | .fcParseTextClip =>
    [.width, .height, .near, .far, .hdr, .payloadOff, .rdPos, .rdNib, .rdAcc]
  | .fcWrite => [.wrPos, .wrNib, .wrAcc]
  | .frameDecBin | .frameDecText | .frameDecTextClip =>
    [.width, .height, .near, .far, .hdr, .payloadOff, .rdPos, .rdNib, .rdAcc] ++ [.npix, .pixcnt, .prev]
  | .frameEnc => [.wrPos, .wrNib, .wrAcc, .npix, .prev, .pixcnt]

end Sys2Proof.Machine
end

