-- ==== Sys2Proof/Safety/Streams.lean ====
section
/-! DEFINITION. The data encodings of 30_encoding.md part B in closed form, the terms in which claims say what a command
reads and writes. Nothing here is used by the machine. -/

namespace Sys2Proof.Machine

/-! ## The VLE code (R98 to R101) -/

/-- k(v), the minimal number of 3-bit chunks (R99): 1 for 0, else the bit length divided by 3, rounded up. -/
def vleLength (v : Word) : Nat := if v = 0 then 1 else (Nat.log2 v.toNat + 3) / 3

/-- Nibble i of the code of v (R98): chunk (v >> 3(k-1-i)) mod 8 under continuation bit 1 if i < k - 1. -/
def vleNibble (v : Word) (i : Nat) : Nibble :=
  BitVec.ofNat 4
    ((if i < vleLength v - 1 then 8 else 0) + v.toNat / 2 ^ (3 * (vleLength v - 1 - i)) % 8)

/-- The VLE code of v: its k nibbles in emission order (R98). -/
def vleCode (v : Word) : List Nibble := (List.range (vleLength v)).map (vleNibble v)

/-- A nibble's continuation bit (00_scope.md R9). -/
def isCont (n : Nibble) : Bool := n.getLsbD 3

/-- The number the chunks of a code spell (R98, R101). -/
def codeValue (c : List Nibble) : Nat := c.foldl (fun r n => 8 * r + n.toNat % 8) 0

/-- A code, minimal or not (R100, R101): 1 to 11 nibbles, the last alone with continuation bit 0. -/
def IsCode (c : List Nibble) : Prop :=
  ∃ ns n, c = ns ++ [n] ∧ ns.length ≤ 10 ∧ (∀ m ∈ ns, isCont m = true) ∧ isCont n = false

/-- `c` is a code of the 32-bit value `v` (R101): not outside the domain of R100. -/
def CodeOf (c : List Nibble) (v : Word) : Prop := IsCode c ∧ codeValue c = v.toNat

/-! ## Nibbles and words (R63, R102) -/

/-- The eight nibbles of a word, bits [31:28] first (20_memory.md R63). -/
def wordNibbles (w : Word) : List Nibble := (List.range 8).map (fun j => w.extractLsb' (28 - 4 * j) 4)

/-- The word whose low nibbles are a list of at most 8, the last at bits [3:0] (10_state.md R32). -/
def nibblesWord (ns : List Nibble) : Word := ns.foldl (fun w n => (w <<< 4) ||| n.setWidth 32) 0

/-! ## The read cursor -/

/-- The unread nibbles of the loaded word (10_state.md R29). -/
def unreadNibbles (r : Regs) : List Nibble := (wordNibbles r.rdAcc).take r.rdNib.toNat

/-- How many whole words lie between RD_POS and IN_LEN (20_memory.md R65, R66). -/
def wordsLeft (r : Regs) : Nat := (r.inLen.toNat - r.rdPos.toNat) / 4

/-- Every nibble the read cursor can still give, in order (20_memory.md R63, R66). -/
def readStream (s : State) : List Nibble :=
  unreadNibbles s.regs ++
    (List.range (wordsLeft s.regs)).flatMap (fun q => wordNibbles (s.inWord (s.regs.rdPos.toNat + 4 * q)))

/-- The state with `k` nibbles of the read stream consumed (20_memory.md R66): words are loaded only as needed. -/
def advanceRead (k : Nat) (s : State) : State :=
  let have' := s.regs.rdNib.toNat
  if k ≤ have' then
    { s with regs := { s.regs with
        rdAcc := s.regs.rdAcc <<< (4 * k), rdNib := BitVec.ofNat 4 (have' - k) } }
  else
    let loads := (k - have' + 7) / 8
    let left := 8 * loads - (k - have')
    { s with regs := { s.regs with
        rdPos := s.regs.rdPos + BitVec.ofNat 32 (4 * loads),
        rdAcc := s.inWord (s.regs.rdPos.toNat + 4 * (loads - 1)) <<< (4 * (8 - left)),
        rdNib := BitVec.ofNat 4 left } }

/-! ## The write cursor -/

/-- The nibbles held in WR_ACC, the oldest first (10_state.md R32). -/
def pendingNibbles (r : Regs) : List Nibble :=
  (List.range r.wrNib.toNat).map (fun j => r.wrAcc.extractLsb' (4 * (r.wrNib.toNat - 1 - j)) 4)

/-- Words stored one after the other from index `a` (20_memory.md R67, R102). -/
def storeWords (m : Memory Byte) (a : Nat) : List Word → Memory Byte
  | [] => m
  | w :: ws => storeWords (memWrite m a 4 w.toNat) (a + 4) ws

/-- The whole words of a nibble list, eight nibbles each (R102). -/
def wholeWords (ns : List Nibble) : List Word :=
  (List.range (ns.length / 8)).map (fun q => nibblesWord ((ns.drop (8 * q)).take 8))

/-- The state with `ns` appended to the write cursor (20_memory.md R67, R102): whole words stored from WR_POS, the rest
pending. -/
def appendNibbles (ns : List Nibble) (s : State) : State :=
  let all := pendingNibbles s.regs ++ ns
  { s with
    outMem := storeWords s.outMem s.regs.wrPos.toNat (wholeWords all)
    regs := { s.regs with
      wrPos := s.regs.wrPos + BitVec.ofNat 32 (4 * (all.length / 8)),
      wrAcc := nibblesWord (all.drop (8 * (all.length / 8))),
      wrNib := BitVec.ofNat 4 (all.length % 8) } }

/-- The words that `ns` more nibbles complete fit below OUT_CAP, computed without wrap (20_memory.md R65). -/
def RoomFor (ns : List Nibble) (s : State) : Prop :=
  let words := (s.regs.wrNib.toNat + ns.length) / 8
  words = 0 ∨ s.regs.wrPos.toNat + 4 * words ≤ s.cfg.outCap

/-- The zero nibbles that complete the last word after `ns` more nibbles (20_memory.md R68, R103). -/
def padding (ns : List Nibble) (r : Regs) : List Nibble :=
  List.replicate ((8 - (r.wrNib.toNat + ns.length) % 8) % 8) 0

/-! ## The run-pair stream (R104) -/

/-- A frame as the encoder splits it (R104, 41_rundelta.md R157): maximal zero runs, each with the maximal nonzero run
after it. -/
def pairsOf : List Pixel → List (Nat × List Pixel)
  | [] => []
  | p :: ps =>
    if p = 0 then
      match pairsOf ps with
      | [] => [(1, [])]
      | (z, nz) :: rest => (z + 1, nz) :: rest
    else
      match pairsOf ps with
      | (0, nz) :: rest => (0, p :: nz) :: rest
      | rest => (0, [p]) :: rest

/-- The zigzag delta codes of a nonzero run after the nonzero pixel `prev` (R104, 41_rundelta.md R157). -/
def deltaNibbles (prev : Pixel) : List Pixel → List Nibble
  | [] => []
  | p :: ps => vleCode ((zigzagEncode16 (p - prev)).setWidth 32) ++ deltaNibbles p ps

/-- The codes of a list of pairs after the nonzero pixel `prev` (R104). -/
def pairNibbles (prev : Pixel) : List (Nat × List Pixel) → List Nibble
  | [] => []
  | (z, nz) :: rest =>
    vleCode (BitVec.ofNat 32 z) ++ vleCode (BitVec.ofNat 32 nz.length) ++ deltaNibbles prev nz ++
      pairNibbles (nz.getLastD prev) rest

/-- The run-pair stream of a frame, without padding (R104). -/
def frameNibbles (ps : List Pixel) : List Nibble := pairNibbles 0 (pairsOf ps)

/-- PREV at the end of a frame: its last nonzero pixel, 0 if it has none (41_rundelta.md R154). -/
def lastNonzero (ps : List Pixel) : Pixel := (ps.filter (fun p => p != 0)).getLastD 0

/-- The first `n` elements of PIX_MEM. -/
def pixels (s : State) (n : Nat) : List Pixel := (List.range n).map s.pixel

/-- One pair of a stream as a decoder may find it: the two lengths and the delta codes (R104). -/
structure PairCodes where
  zero    : List Nibble
  nonzero : List Nibble
  deltas  : List (List Nibble)

/-- The nibbles of a pair in order (R104). -/
def PairCodes.nibbles (p : PairCodes) : List Nibble := p.zero ++ p.nonzero ++ p.deltas.flatten

/-- The number of pixels a pair stands for (R104). -/
def PairCodes.length (p : PairCodes) : Nat := codeValue p.zero + codeValue p.nonzero

/-- Every code of the pair is in the domain (R100), and there are as many deltas as the nonzero-run length says. -/
def PairCodes.Legal (p : PairCodes) : Prop :=
  (IsCode p.zero ∧ codeValue p.zero < 2 ^ 32) ∧ (IsCode p.nonzero ∧ codeValue p.nonzero < 2 ^ 32) ∧
  (∀ d ∈ p.deltas, IsCode d ∧ codeValue d < 2 ^ 32) ∧ p.deltas.length = codeValue p.nonzero

/-- The pixels of a nonzero run after `prev` (41_rundelta.md R155): sums mod 2^16. -/
def deltaPixels (prev : Pixel) : List (List Nibble) → List Pixel
  | [] => []
  | d :: ds =>
    let cur := prev + (zigzagDecode32 (BitVec.ofNat 32 (codeValue d))).setWidth 16
    cur :: deltaPixels cur ds

/-- The pixels of a list of pairs after `prev`, and PREV at their end (41_rundelta.md R154, R155). -/
def pairPixels (prev : Pixel) : List PairCodes → List Pixel × Pixel
  | [] => ([], prev)
  | p :: rest =>
    let run := deltaPixels prev p.deltas
    let (more, last) := pairPixels (run.getLastD prev) rest
    (List.replicate (codeValue p.zero) 0 ++ run ++ more, last)

/-- The pairs end a frame of `n` pixels: their lengths sum to `n`, and before the last the sum is below `n` (R104). -/
def EndsFrame (n : Nat) (ps : List PairCodes) : Prop :=
  ∃ init last, ps = init ++ [last] ∧ ((init ++ [last]).map PairCodes.length).sum = n ∧
    ∀ k, k ≤ init.length → ((init.take k).map PairCodes.length).sum < n

/-- The first codes of a pair that has at most `m` pixels (R104): each in the domain (R100), the lengths read so far
within `m`, and, once both are read, fewer deltas than the nonzero-run length says. -/
def PairBegun (m : Nat) (cs : List (List Nibble)) : Prop :=
  (∀ c ∈ cs, IsCode c ∧ codeValue c < 2 ^ 32) ∧ ((cs.take 2).map codeValue).sum ≤ m ∧
  match cs with
  | [] | [_] => True
  | _ :: nz :: ds => ds.length < codeValue nz

/-- Elements written one after the other from index `i` (41_rundelta.md R155). -/
def storePixels (m : Memory Pixel) (i : Nat) : List Pixel → Memory Pixel
  | [] => m
  | p :: ps => storePixels (m.insert i p) (i + 1) ps

/-- The state after a frame body of `ps` has been read (41_rundelta.md R155, R156), FRAME_VALID included. -/
def decodedFrame (ps : List PairCodes) (s : State) : State :=
  let t := advanceRead (ps.flatMap PairCodes.nibbles).length s
  { t with
    pixMem := storePixels s.pixMem 0 (pairPixels 0 ps).1
    regs := { t.regs with prev := (pairPixels 0 ps).2, pixcnt := s.regs.npix }
    status := { s.status with frameValid := true } }

/-- The state after a frame body of NPIX pixels has been written (41_rundelta.md R157, R158). -/
def encodedFrame (s : State) : State :=
  let ps := pixels s s.regs.npix.toNat
  let ns := frameNibbles ps
  let t := appendNibbles (ns ++ padding ns s.regs) s
  { t with regs := { t.regs with prev := lastNonzero ps, pixcnt := s.regs.npix } }

/-! ## binary32 (R109, 42_frame.md R186) -/

/-- The value of a binary32 magnitude (sign bit 0). The pattern of +infinity stands for 2^128, the value the next finite
exponent would have, which is above every finite value. -/
def f32MagValue (mag : Nat) : Rat :=
  if mag / 2 ^ 23 = 0 then (mag : Rat) * 2 ^ (-149 : Int)
  else ((2 ^ 23 + mag % 2 ^ 23 : Nat) : Rat) * 2 ^ ((mag / 2 ^ 23 : Nat) - 150 : Int)

/-- The value of a binary32 pattern that is no NaN, with the infinities at the ends (42_frame.md R186). -/
def f32Value (x : Word) : Rat :=
  if x.getLsbD 31 then -f32MagValue (x.toNat % 2 ^ 31) else f32MagValue (x.toNat % 2 ^ 31)

/-- `mag` is `q` rounded to nearest, ties to even: `q` lies between the midpoints to the two neighbours, on a midpoint
only if `mag` is even; 0x7F800000 stands for overflow (R109). -/
def IsRounded (q : Rat) (mag : Nat) : Prop :=
  mag ≤ 0x7F800000 ∧
  (0 < mag → f32MagValue (mag - 1) + f32MagValue mag < 2 * q ∨
    (mag % 2 = 0 ∧ f32MagValue (mag - 1) + f32MagValue mag = 2 * q)) ∧
  (mag < 0x7F800000 → 2 * q < f32MagValue mag + f32MagValue (mag + 1) ∨
    (mag % 2 = 0 ∧ 2 * q = f32MagValue mag + f32MagValue (mag + 1)))

/-! ## Text fields (R107 to R109) -/

/-- DIGIT+ (R108). -/
def IsDigits (ds : List Byte) : Prop := ds ≠ [] ∧ ∀ b ∈ ds, isDigit b = true

/-- sign? (R109), and whether it is '-'. -/
def IsSign (sg : List Byte) (neg : Bool) : Prop :=
  (sg = [] ∧ neg = false) ∨ (sg = [0x2B] ∧ neg = false) ∨ (sg = [0x2D] ∧ neg = true)

/-- mantissa (R109), and its digits before and after the point. -/
def IsMantissa (man ints fracs : List Byte) : Prop :=
  (∀ b ∈ ints ++ fracs, isDigit b = true) ∧
  ((man = ints ∧ ints ≠ [] ∧ fracs = []) ∨
   (man = ints ++ 0x2E :: fracs ∧ ints ≠ []) ∨
   (man = 0x2E :: fracs ∧ ints = [] ∧ fracs ≠ []))

/-- exponent? (R109), and its value, 0 where there is none. -/
def IsExponent (ex : List Byte) (e : Int) : Prop :=
  (ex = [] ∧ e = 0) ∨
  ∃ mark sg neg ds, ex = mark :: (sg ++ ds) ∧ (mark = 0x65 ∨ mark = 0x45) ∧ IsSign sg neg ∧ IsDigits ds ∧
    e = if neg then -(digitsValue 0 ds : Int) else digitsValue 0 ds

/-- flt (R109), and the sign and value mant 10^exp it spells. -/
def IsFlt (tok : List Byte) (d : Decimal) : Prop :=
  ∃ sg man ints fracs ex e, tok = sg ++ man ++ ex ∧ IsSign sg d.neg ∧ IsMantissa man ints fracs ∧ IsExponent ex e ∧
    d.mant = digitsValue 0 (ints ++ fracs) ∧ d.exp = e - fracs.length

/-- dec (R108): digits that spell a number below 2^32. -/
def IsDec (ds : List Byte) (v : Word) : Prop := IsDigits ds ∧ digitsValue 0 ds = v.toNat

/-- A float field whose rounded value is the pattern `x`, no infinity (R109). -/
def IsF32Field (tok : List Byte) (x : Word) : Prop := ∃ d, IsFlt tok d ∧ f32OfSpelled d = some x

/-! ## Headers (R106, R107) -/

/-- IN_MEM holds `bs` from index `a`, all of it below IN_LEN. -/
def BytesAt (s : State) (a : Nat) (bs : List Byte) : Prop :=
  a + bs.length ≤ s.inLimit ∧ ∀ j (h : j < bs.length), s.inByte (a + j) = bs[j]

/-- "RVL\n" (R106). -/
def magicBytes : List Byte := [0x52, 0x56, 0x4C, 0x0A]

/-- The binary header shape (R106): 20 bytes, all below IN_LEN. -/
def BinHeaderAt (s : State) (hd : Header) : Prop :=
  20 ≤ s.inLimit ∧ BytesAt s 0 magicBytes ∧
  hd = { width := s.inWord 4, height := s.inWord 8, near := s.inWord 12, far := s.inWord 16, clip := true, off := 20 }

/-- The textual header shape with one line (R107, R108). -/
def TextHeaderAt (s : State) (hd : Header) : Prop :=
  ∃ wd ht, BytesAt s 0 (magicBytes ++ wd ++ [0x20] ++ ht ++ [0x0A]) ∧ IsDec wd hd.width ∧ IsDec ht hd.height ∧
    hd.near = 0 ∧ hd.far = 0 ∧ hd.clip = false ∧
    hd.off = BitVec.ofNat 32 (magicBytes ++ wd ++ [0x20] ++ ht ++ [0x0A]).length

/-- The textual header shape with its clip line (R107 to R109). -/
def ClipHeaderAt (s : State) (hd : Header) : Prop :=
  ∃ wd ht nt ft,
    BytesAt s 0 (magicBytes ++ wd ++ [0x20] ++ ht ++ [0x0A] ++ nt ++ [0x20] ++ ft ++ [0x0A]) ∧
    IsDec wd hd.width ∧ IsDec ht hd.height ∧ IsF32Field nt hd.near ∧ IsF32Field ft hd.far ∧ hd.clip = true ∧
    hd.off = BitVec.ofNat 32 (magicBytes ++ wd ++ [0x20] ++ ht ++ [0x0A] ++ nt ++ [0x20] ++ ft ++ [0x0A]).length

/-- The header of the shape (SHAPE, TCLIP) stands at the start of IN_MEM. -/
def HeaderAt (shape tclip : Bool) (s : State) (hd : Header) : Prop :=
  match shape, tclip with
  | false, _ => BinHeaderAt s hd
  | true, false => TextHeaderAt s hd
  | true, true => ClipHeaderAt s hd

/-- The DepthFrame invariants (42_frame.md R185, R186): positive dimensions that fit PIX_MEM, near below far. -/
def HeaderLegal (c : Capacities) (w h nr fr : Word) (clip : Bool) : Prop :=
  1 ≤ w.toNat ∧ 1 ≤ h.toNat ∧ w.toNat * h.toNat ≤ c.maxPixels ∧
  (clip = true → f32IsNaN nr = false ∧ f32IsNaN fr = false ∧ f32Value nr < f32Value fr)

/-- The 20 header bytes in order (R106). -/
def headerBytes (w h nr fr : Word) : List Byte :=
  magicBytes ++ bytesOfWord w ++ bytesOfWord h ++ bytesOfWord nr ++ bytesOfWord fr

/-- Bytes written one after the other from index `a`. -/
def storeBytes (m : Memory Byte) (a : Nat) : List Byte → Memory Byte
  | [] => m
  | b :: bs => storeBytes (m.insert a b) (a + 1) bs

/-- The state after the header of the frame in the header registers has been written (42_frame.md R191). -/
def writtenHeader (s : State) : State :=
  { s with
    outMem := storeBytes s.outMem 0 (headerBytes s.regs.width s.regs.height s.regs.near s.regs.far)
    regs := { s.regs with wrPos := 20, wrNib := 0, wrAcc := 0 } }

end Sys2Proof.Machine
end

