-- ==== Sys2Proof/Certificates/Slice0/Obligations.lean ====
section
/-! DEFINITION. The statements about the model, for the provers. Each docstring names the rules of spec/ it formalises. -/

open Sys2Proof Sys2Proof.Machine

/-! ## Encoding -/

/-- 30_encoding.md R91: each command word of the opcode map decodes to its command. -/
def Obligations.CommandWordsDecode : Prop :=
  (decodeWord 0x00000000 = .ok .nop ∧ decodeWord 0x00000001 = .ok .vleDec ∧ decodeWord 0x00000002 = .ok .vleEnc ∧
    decodeWord 0x00000003 = .ok .vleFlush ∧ decodeWord 0x00000010 = .ok .zzEnc ∧ decodeWord 0x00000011 = .ok .zzDec ∧
    decodeWord 0x00000012 = .ok .rdcDec ∧ decodeWord 0x00000013 = .ok .rdcEnc) ∧
  (decodeWord 0x00000020 = .ok .fcParseBin ∧ decodeWord 0x00000120 = .ok .fcParseText ∧
    decodeWord 0x00000320 = .ok .fcParseTextClip ∧ decodeWord 0x00000021 = .ok .fcWrite ∧
    decodeWord 0x00000022 = .ok .frameDecBin ∧ decodeWord 0x00000122 = .ok .frameDecText ∧
    decodeWord 0x00000322 = .ok .frameDecTextClip ∧ decodeWord 0x00000023 = .ok .frameEnc)

/-- 30_encoding.md R90, R91: a well-formed command is read from exactly one word, the one its fields make, and from the
bytes of that word whatever follows them. -/
def Obligations.DecodeAndEncodeAgree : Prop :=
  ∀ i : Instr, i.wellFormed = true →
    (∀ w, decodeWord w = .ok i ↔ w = encode i) ∧ (∀ rest, decode (encodeBytes i ++ rest) = .ok (i, rest))

/-- 30_encoding.md R92, R93: a word is rejected exactly when a reserved bit is set, OP is not in the table, SHAPE or TCLIP
is set in an opcode that does not take them, or (SHAPE, TCLIP) = (0, 1). -/
def Obligations.IllegalWordsAreRejected : Prop :=
  ∀ w : Word, (∃ e, decodeWord w = .error e) ↔
    (w.extractLsb' 10 22 ≠ 0 ∨
     w.extractLsb' 0 8 ∉ [0x00, 0x01, 0x02, 0x03, 0x10, 0x11, 0x12, 0x13, 0x20, 0x21, 0x22, 0x23] ∨
     ((w.getLsbD 8 = true ∨ w.getLsbD 9 = true) ∧ w.extractLsb' 0 8 ∉ [0x20, 0x22]) ∨
     (w.getLsbD 8 = false ∧ w.getLsbD 9 = true))

/-! ## The command lifecycle -/

/-- 43_control.md R220: acceptance of a CMD write while BUSY = 0. -/
def Obligations.CommandIsAccepted : Prop :=
  ∀ (s : State) (c : Word) (rest : List Turn), s.agenda = turnWr .cmd c :: rest → s.status.busy = false →
    step s = .next { s with
      agenda := rest
      regs := { s.regs with cmd := c }
      snapshot := some { s.regs with cmd := c }
      status := { busy := true, done := false, err := false, errcode := 0, drop := s.status.drop,
                  frameValid := if c = 0x12 ∨ c = 0x22 ∨ c = 0x122 ∨ c = 0x322 then false else s.status.frameValid } }

/-- 43_control.md R221: a CMD write while BUSY = 1 only sets DROP. -/
def Obligations.CommandIsDroppedWhileBusy : Prop :=
  ∀ (s : State) (c : Word) (rest : List Turn), s.agenda = turnWr .cmd c :: rest → s.status.busy = true →
    step s = .next { s with agenda := rest, status := { s.status with drop := true } }

/-- 43_control.md R220 (last line): while BUSY the engine's turn is the meaning of the command whose word is in CMD, with
the turn taken off the agenda; with no turn pending the engine moves. The model's turns are log 3. -/
def Obligations.StepRunsTheDecodedCommand : Prop :=
  ∀ (s : State) (i : Instr), s.status.busy = true → decodeWord s.regs.cmd = .ok i →
    (s.agenda = [] → step s = exec i s) ∧
    (∀ rest, s.agenda = .engine :: rest → step s = exec i { s with agenda := rest })

/-- 60_exceptions.md R253: an idle engine does nothing and keeps all state. -/
def Obligations.IdleEngineDoesNothing : Prop :=
  ∀ s : State, s.status.busy = false →
    (s.agenda = [] → step s = .next s) ∧
    (∀ rest, s.agenda = .engine :: rest → step s = .next { s with agenda := rest })

/-- 43_control.md R222, 41_rundelta.md R160: every command completes, with DONE set and BUSY clear; it never faults
and is never refused. That it releases its snapshot is the model's choice (log 6). -/
def Obligations.EveryCommandCompletes : Prop :=
  ∀ (i : Instr) (s : State), ∃ t, exec i s = .next t ∧ t.status.done = true ∧ t.status.busy = false ∧ t.snapshot = none

/-- 60_exceptions.md R243, R240, R241: a command that ends with an error has rolled every register of its snapshot back,
records the code of an error that R240's table says it raises, keeps FRAME_VALID but for RDC.DEC and FRAME.DEC, which
leave it 0, and leaves every memory location outside the window of R244 as it was. -/
def Obligations.ErrorsRollBack : Prop :=
  ∀ (i : Instr) (s t : State) (r : Regs), s.cfg.Legal → s.status.err = false → s.snapshot = some r → exec i s = .next t →
    t.status.err = true →
    t.regs = r ∧ t.ie = s.ie ∧
    (∃ e ∈ mayRaise i, t.status = { s.status with
      err := true, errcode := e.code, done := true, busy := false,
      frameValid := s.status.frameValid &&
        !decide (i ∈ [Instr.rdcDec, .frameDecBin, .frameDecText, .frameDecTextClip]) }) ∧
    t.inMem = s.inMem ∧
    (∀ a, (∀ lo n, errorWindow i s = .out lo n → a < lo ∨ lo + n ≤ a) → t.outByte a = s.outByte a) ∧
    (∀ j, (∀ n, errorWindow i s = .pix n → n ≤ j) → t.pixel j = s.pixel j)

/-- 43_control.md R224, 30_encoding.md R93: an illegal word in CMD raises IllegalCommand: STATUS records it; every other
register and all memories keep their values. That the snapshot is let go (`snapshot := none`) is the model's choice, which
no rule states (DESIGN CHOICE, log 6); the turns and the agenda are the model's (log 3). -/
def Obligations.IllegalCommandIsReported : Prop :=
  ∀ (s : State) (e : DecodeError), s.status.busy = true → s.snapshot = some s.regs →
    decodeWord s.regs.cmd = .error e →
    let failed := { s.status with done := true, busy := false, err := true, errcode := 8 }
    (s.agenda = [] → step s = .next { s with snapshot := none, status := failed }) ∧
    (∀ rest, s.agenda = .engine :: rest →
      step s = .next { s with agenda := rest, snapshot := none, status := failed })

/-! ## Frames -/

/-- 40_vlecoder.md R132 to R134, 41_rundelta.md R152 to R158, 42_frame.md R188 to R196, 43_control.md R223: a command
changes no register of the window but STATUS and those its rule names as written. -/
def Obligations.CommandsKeepOtherRegisters : Prop :=
  ∀ (i : Instr) (s t : State) (r : RegName), s.snapshot = some s.regs → exec i s = .next t →
    r ∉ writtenRegs i → r ≠ .status → regValue r t = regValue r s

/-- 10_state.md R42, R48, R22, 60_exceptions.md R248: no command changes IN_MEM, the parameters, CTRL.IE or DROP, nor the
model's agenda and read port. -/
def Obligations.CommandsKeepTheRest : Prop :=
  ∀ (i : Instr) (s t : State), exec i s = .next t →
    t.inMem = s.inMem ∧ t.cfg = s.cfg ∧ t.ie = s.ie ∧ t.status.drop = s.status.drop ∧ t.agenda = s.agenda ∧
      t.readData = s.readData

/-- 10_state.md R43, R44, 70_reset_and_hazards.md R284, D45: a command that ends without an error changes only the bytes
it stores (from WR_POS at acceptance to WR_POS at completion; the 20 header bytes; a whole frame from 0) and, when it
decodes a frame, only elements below NPIX. -/
def Obligations.CommandsStoreOnlyTheirOutput : Prop :=
  ∀ (i : Instr) (s t : State), s.Inv → s.status.err = false → exec i s = .next t → t.status.err = false →
    (∀ a, t.outByte a ≠ s.outByte a →
      match i with
      | .vleEnc | .vleFlush | .rdcEnc => s.regs.wrPos.toNat ≤ a ∧ a < t.regs.wrPos.toNat
      | .fcWrite => a < 20
      | .frameEnc => a < t.regs.wrPos.toNat
      | _ => False) ∧
    (∀ j, t.pixel j ≠ s.pixel j →
      match i with
      | .rdcDec | .frameDecBin | .frameDecText | .frameDecTextClip => j < t.regs.npix.toNat
      | _ => False)

/-- 10_state.md R34, R43, 20_memory.md R65: a command never reads OUT_MEM: two runs that differ only there end alike but
for OUT_MEM, where each byte is either the same in both or untouched in both. And it never reads IN_MEM at IN_LEN or
beyond: two runs that agree below IN_LEN end alike but for IN_MEM, which neither changes. -/
def Obligations.CommandsReadOnlyValidInput : Prop :=
  (∀ (i : Instr) (s : State) (m : Memory Byte), ∃ t m', exec i s = .next t ∧
    exec i { s with outMem := m } = .next { t with outMem := m' } ∧
    ∀ a, Memory.lookup t.outMem a = Memory.lookup m' a ∨
      (Memory.lookup t.outMem a = Memory.lookup s.outMem a ∧ Memory.lookup m' a = Memory.lookup m a)) ∧
  (∀ (i : Instr) (s : State) (m : Memory Byte),
    (∀ a, a < s.regs.inLen.toNat → Memory.lookup m a = Memory.lookup s.inMem a) →
    ∃ t, exec i s = .next t ∧ exec i { s with inMem := m } = .next { t with inMem := m })

/-- 60_exceptions.md R240: the error codes. -/
def Obligations.ErrorCodes : Prop :=
  CmdError.code .ioError = 1 ∧ CmdError.code .badMagic = 2 ∧ CmdError.code .malformedHeader = 3 ∧
    CmdError.code .truncatedStream = 4 ∧ CmdError.code .pixelCountMismatch = 5 ∧ CmdError.code .rangeError = 6 ∧
    CmdError.code .vleOverflow = 7 ∧ CmdError.code .illegalCommand = 8

/-- 20_memory.md R61, R62: words are little-endian: `MemRead` sums byte i times 2^(8i), `MemWrite` puts byte i of the word
at index a + i and leaves every other index. -/
def Obligations.WordsAreLittleEndian : Prop :=
  ∀ (s : State) (a : Nat) (w : Word),
    (s.inWord a).toNat = (s.inByte a).toNat + 2 ^ 8 * (s.inByte (a + 1)).toNat + 2 ^ 16 * (s.inByte (a + 2)).toNat +
      2 ^ 24 * (s.inByte (a + 3)).toNat ∧
    (∀ i, i < 4 → ((s.putOutWord a w).outByte (a + i)).toNat = w.toNat / 2 ^ (8 * i) % 2 ^ 8) ∧
    (∀ c, c < a ∨ a + 4 ≤ c → (s.putOutWord a w).outByte c = s.outByte c)

/-- 43_control.md R223: NOP completes and has no other effect; that the snapshot is let go is the model's choice
(log 6). -/
def Obligations.NopCompletes : Prop :=
  ∀ s : State, exec .nop s = .next { s with snapshot := none, status := { s.status with done := true, busy := false } }

/-! ## VLECoder -/

/-- 40_vlecoder.md R130, R132, 30_encoding.md R98, R99, R102: VLE.ENC appends the minimal code of VAL to the write cursor;
IoError where a completed word would pass OUT_CAP. -/
def Obligations.VleEncAppendsTheCode : Prop :=
  ∀ s : State, s.Inv →
    (RoomFor (vleCode s.regs.val) s →
      exec .vleEnc s = .next (completeCommand (appendNibbles (vleCode s.regs.val) s))) ∧
    (¬ RoomFor (vleCode s.regs.val) s →
      exec .vleEnc s = .next (raiseError .ioError (outFromCursor s) s))

/-- 40_vlecoder.md R131, R133, 30_encoding.md R100, R101: VLE.DEC reads the code at the head of the read stream, minimal
or not, into VAL and consumes exactly its nibbles. -/
def Obligations.VleDecReadsTheCode : Prop :=
  ∀ (s : State) (c rest : List Nibble) (v : Word), s.Inv → readStream s = c ++ rest → CodeOf c v →
    exec .vleDec s = .next (completeCommand (setVal v (advanceRead c.length s)))

/-- 40_vlecoder.md R131, R133, 30_encoding.md R100, 60_exceptions.md R245: TruncatedStream where the stream ends inside a
code of fewer than 11 nibbles; VleOverflow for eleven nibbles with continuation bit 1 and for a code of 2^32 or more. -/
def Obligations.VleDecReportsBadStreams : Prop :=
  ∀ s : State, s.Inv →
    ((∀ n ∈ readStream s, isCont n = true) → (readStream s).length < 11 →
      exec .vleDec s = .next (raiseError .truncatedStream .none s)) ∧
    (∀ c rest, readStream s = c ++ rest →
      ((c.length = 11 ∧ ∀ n ∈ c, isCont n = true) ∨ (IsCode c ∧ 2 ^ 32 ≤ codeValue c)) →
      exec .vleDec s = .next (raiseError .vleOverflow .none s))

/-- 40_vlecoder.md R134, 20_memory.md R68: VLE.FLUSH does nothing on an empty write cursor, else completes the word with
zero nibbles and stores it, or raises IoError. -/
def Obligations.VleFlushStoresTheWord : Prop :=
  ∀ s : State, s.Inv →
    (s.regs.wrNib = 0 → exec .vleFlush s = .next (completeCommand s)) ∧
    (s.regs.wrNib ≠ 0 → s.regs.wrPos.toNat + 4 ≤ s.cfg.outCap →
      exec .vleFlush s = .next (completeCommand (appendNibbles (List.replicate (8 - s.regs.wrNib.toNat) 0) s))) ∧
    (s.regs.wrNib ≠ 0 → s.cfg.outCap < s.regs.wrPos.toNat + 4 →
      exec .vleFlush s = .next (raiseError .ioError (outFromCursor s) s))

/-- 30_encoding.md R102: after nibbles are appended to an empty write cursor at WR_POS = base, nibble j of the whole words
is in byte base + 4 (j div 8) + 3 - ((j mod 8) div 2), in bits [7:4] when j is even and [3:0] when it is odd. -/
def Obligations.NibblePacking : Prop :=
  ∀ (s : State) (ns : List Nibble) (j : Nat) (h : j < ns.length), s.regs.wrNib = 0 → j < 8 * (ns.length / 8) →
    let b := (appendNibbles ns s).outByte (s.regs.wrPos.toNat + 4 * (j / 8) + 3 - j % 8 / 2)
    (if j % 2 = 0 then b.extractLsb' 4 4 else b.extractLsb' 0 4) = ns[j]

/-- 40_vlecoder.md R135: the VLE round trip, for every list of 32-bit values. -/
def Obligations.VleRoundTrip : Prop :=
  ∀ (vs : List Word) (s : State), s.Inv → s.status.busy = false → s.regs.wrNib = 0 →
    s.regs.wrPos.toNat + 4 * (((vs.flatMap vleCode).length + 7) / 8) ≤ s.cfg.outCap →
    ∃ e t, encodeAll vs s = some e ∧ issue .vleFlush e = .next t ∧ t.status.err = false ∧
      ∀ u : State, u.Inv → u.status.busy = false → u.regs.rdPos = s.regs.wrPos → u.regs.rdNib = 0 →
        t.regs.wrPos.toNat ≤ u.regs.inLen.toNat →
        (∀ a, s.regs.wrPos.toNat ≤ a → a < t.regs.wrPos.toNat → u.inByte a = t.outByte a) →
        decodeAll vs.length u = some vs

/-! ## RunDeltaCodec -/

/-- 41_rundelta.md R150, R152: ZZ.ENC maps VAL[15:0], read as a signed d, to 2d or -2d - 1 and clears VAL[31:16]. -/
def Obligations.ZzEncMapsTheLowHalf : Prop :=
  ∀ s : State, let d := (s.regs.val.setWidth 16).toInt
    exec .zzEnc s = .next (completeCommand { s with regs := { s.regs with
      val := BitVec.ofInt 32 (if 0 ≤ d then 2 * d else -2 * d - 1) } })

/-- 41_rundelta.md R151, R153: ZZ.DEC maps VAL = c to c / 2 for even c and to -(c + 1) / 2 for odd c, in 32 bits. -/
def Obligations.ZzDecMapsVal : Prop :=
  ∀ s : State, let c := s.regs.val.toNat
    exec .zzDec s = .next (completeCommand { s with regs := { s.regs with
      val := BitVec.ofInt 32 (if c % 2 = 0 then (c / 2 : Int) else -((c + 1) / 2 : Int)) } })

/-- 41_rundelta.md R151: decoding the zigzag code of a 16-bit d gives its sign extension; hence ZZ.ENC is injective on
16-bit patterns. -/
def Obligations.ZigzagRoundTrip : Prop :=
  ∀ d : BitVec 16, zigzagDecode32 ((zigzagEncode16 d).setWidth 32) = d.signExtend 32

/-- 41_rundelta.md R154 to R156, R161, 30_encoding.md R104, R105: RDC.DEC reads the pairs that end a frame of NPIX pixels
at the head of the read stream, canonical or not, stores their pixels, leaves the cursor after the last code and sets
FRAME_VALID. -/
def Obligations.RdcDecDecodesFrames : Prop :=
  ∀ (s : State) (ps : List PairCodes) (rest : List Nibble), s.Inv →
    1 ≤ s.regs.npix.toNat → s.regs.npix.toNat ≤ s.cfg.maxPixels →
    (∀ p ∈ ps, p.Legal) → EndsFrame s.regs.npix.toNat ps → readStream s = ps.flatMap PairCodes.nibbles ++ rest →
    exec .rdcDec s = .next (completeCommand (decodedFrame ps s))

/-- 41_rundelta.md R155, R156, 60_exceptions.md R244: PixelCountMismatch for NPIX = 0 or NPIX > MAX_PIXELS, before
anything is read, with an empty window; and for a run length that would pass NPIX, with window PIX_MEM[0 .. NPIX-1]. -/
def Obligations.RdcDecReportsBadCounts : Prop :=
  ∀ s : State, s.Inv →
    ((s.regs.npix.toNat = 0 ∨ s.cfg.maxPixels < s.regs.npix.toNat) →
      exec .rdcDec s = .next (raiseError .pixelCountMismatch .none (clearFrameValid s))) ∧
    (1 ≤ s.regs.npix.toNat → s.regs.npix.toNat ≤ s.cfg.maxPixels →
      ∀ (ps : List PairCodes) (z nz rest : List Nibble), (∀ p ∈ ps, p.Legal) →
        (∀ k, k ≤ ps.length → ((ps.take k).map PairCodes.length).sum < s.regs.npix.toNat) →
        IsCode z → codeValue z < 2 ^ 32 →
        ((readStream s = ps.flatMap PairCodes.nibbles ++ z ++ rest ∧
            s.regs.npix.toNat < (ps.map PairCodes.length).sum + codeValue z) ∨
          (readStream s = ps.flatMap PairCodes.nibbles ++ z ++ nz ++ rest ∧ IsCode nz ∧ codeValue nz < 2 ^ 32 ∧
            (ps.map PairCodes.length).sum + codeValue z ≤ s.regs.npix.toNat ∧
            s.regs.npix.toNat < (ps.map PairCodes.length).sum + codeValue z + codeValue nz)) →
        exec .rdcDec s =
          .next (raiseError .pixelCountMismatch (.pix s.regs.npix.toNat) (clearFrameValid s)))

/-- 41_rundelta.md R155, R156, 40_vlecoder.md R131, 60_exceptions.md R244, R245: after pairs that leave pixels missing and
some codes of the next pair, RDC.DEC raises TruncatedStream where the read stream ends inside the next code, and
VleOverflow where that code is outside the domain of 30_encoding.md R100; window PIX_MEM[0 .. NPIX-1]. -/
def Obligations.RdcDecReportsBadCodes : Prop :=
  ∀ (s : State) (ps : List PairCodes) (cs : List (List Nibble)) (bad : List Nibble), s.Inv →
    1 ≤ s.regs.npix.toNat → s.regs.npix.toNat ≤ s.cfg.maxPixels → (∀ p ∈ ps, p.Legal) →
    (∀ k, k ≤ ps.length → ((ps.take k).map PairCodes.length).sum < s.regs.npix.toNat) →
    PairBegun (s.regs.npix.toNat - (ps.map PairCodes.length).sum) cs →
    readStream s = ps.flatMap PairCodes.nibbles ++ cs.flatten ++ bad →
    ((∀ n ∈ bad, isCont n = true) → bad.length < 11 →
      exec .rdcDec s = .next (raiseError .truncatedStream (.pix s.regs.npix.toNat) (clearFrameValid s))) ∧
    (∀ c rest, bad = c ++ rest →
      ((c.length = 11 ∧ ∀ n ∈ c, isCont n = true) ∨ (IsCode c ∧ 2 ^ 32 ≤ codeValue c)) →
      exec .rdcDec s = .next (raiseError .vleOverflow (.pix s.regs.npix.toNat) (clearFrameValid s)))

/-- 41_rundelta.md R157, R158, 30_encoding.md R103, R104: RDC.ENC appends the run-pair stream of NPIX pixels and the
padding; PixelCountMismatch for a bad NPIX; IoError where a word store would pass OUT_CAP. That it appends after the
nibbles pending in WR_ACC is R158 and D36 against a line of 70_reset_and_hazards.md R278 (DESIGN CHOICE, log 22). -/
def Obligations.RdcEncEncodesFrames : Prop :=
  ∀ s : State, s.Inv →
    let ns := frameNibbles (pixels s s.regs.npix.toNat)
    ((s.regs.npix.toNat = 0 ∨ s.cfg.maxPixels < s.regs.npix.toNat) →
      exec .rdcEnc s = .next (raiseError .pixelCountMismatch (outFromCursor s) s)) ∧
    (1 ≤ s.regs.npix.toNat → s.regs.npix.toNat ≤ s.cfg.maxPixels → RoomFor (ns ++ padding ns s.regs) s →
      exec .rdcEnc s = .next (completeCommand (encodedFrame s))) ∧
    (1 ≤ s.regs.npix.toNat → s.regs.npix.toNat ≤ s.cfg.maxPixels → ¬ RoomFor (ns ++ padding ns s.regs) s →
      exec .rdcEnc s = .next (raiseError .ioError (outFromCursor s) s))

/-- 41_rundelta.md R159 (third law): RDC.ENC, the output copied to IN_MEM at the same indices, then RDC.DEC with the same
NPIX gives the pixels back and ends at the end of the output. -/
def Obligations.FrameBodyRoundTrip : Prop :=
  ∀ s : State, s.Inv → s.status.busy = false → s.regs.wrNib = 0 →
    1 ≤ s.regs.npix.toNat → s.regs.npix.toNat ≤ s.cfg.maxPixels →
    RoomFor (frameNibbles (pixels s s.regs.npix.toNat) ++ padding (frameNibbles (pixels s s.regs.npix.toNat)) s.regs) s →
    ∃ t, issue .rdcEnc s = .next t ∧ t.status.err = false ∧
      ∀ u : State, u.Inv → u.status.busy = false → u.cfg = s.cfg → u.regs.npix = s.regs.npix →
        u.regs.rdPos = s.regs.wrPos → u.regs.rdNib = 0 → t.regs.wrPos.toNat ≤ u.regs.inLen.toNat →
        (∀ a, s.regs.wrPos.toNat ≤ a → a < t.regs.wrPos.toNat → u.inByte a = t.outByte a) →
        ∃ v, issue .rdcDec u = .next v ∧ v.status.err = false ∧ v.status.frameValid = true ∧
          v.regs.rdPos = t.regs.wrPos ∧ ∀ j, j < s.regs.npix.toNat → v.pixel j = s.pixel j

/-- 41_rundelta.md R160, 70_reset_and_hazards.md R285: the passes the model allows the two body loops are never used up:
any larger allowance gives the same result, so the loops have no iteration cap (log 13). -/
def Obligations.BodyLoopsHaveNoCap : Prop :=
  ∀ (s : State) (n k : Nat),
    (decodeFuel s ≤ k → decodePairs n k s = decodePairs n (decodeFuel s) s) ∧
    (n ≤ k → encodePairs n k 0 s = encodePairs n n 0 s)

/-! ## FrameContainer -/

/-- 42_frame.md R180, R181, R184, R185, R187 to R190: where a legal header of the command's shape stands at the start of
IN_MEM, FC.PARSE writes its fields and the payload offset, and puts the read cursor there, empty. -/
def Obligations.FcParseReadsTheHeader : Prop :=
  ∀ (s : State) (hd : Header), s.Inv → HeaderLegal s.cfg hd.width hd.height hd.near hd.far hd.clip →
    (HeaderAt false false s hd → exec .fcParseBin s = .next (completeCommand (setHeader hd s))) ∧
    (HeaderAt true false s hd → exec .fcParseText s = .next (completeCommand (setHeader hd s))) ∧
    (HeaderAt true true s hd → exec .fcParseTextClip s = .next (completeCommand (setHeader hd s)))

/-- 42_frame.md R180 to R185, R187, 60_exceptions.md R244, R245: BadMagic where the first four bytes below IN_LEN are not
the magic, else MalformedHeader where no header of the shape stands there or it breaks the DepthFrame invariants; no
register but STATUS changes, and no memory. -/
def Obligations.FcParseReportsBadHeaders : Prop :=
  ∀ (s : State) (i : Instr) (shape tclip : Bool), s.Inv →
    (i, shape, tclip) ∈ [(Instr.fcParseBin, false, false), (.fcParseText, true, false), (.fcParseTextClip, true, true)] →
    (¬ BytesAt s 0 magicBytes → exec i s = .next (raiseError .badMagic .none s)) ∧
    (BytesAt s 0 magicBytes →
      (∀ hd, HeaderAt shape tclip s hd → ¬ HeaderLegal s.cfg hd.width hd.height hd.near hd.far hd.clip) →
      exec i s = .next (raiseError .malformedHeader .none s))

/-- 30_encoding.md R109: a token is read as a float exactly when the production flt spells it, with the sign and the
decimal value the production gives. -/
def Obligations.FloatGrammar : Prop :=
  ∀ (tok : List Byte) (d : Decimal), parseFlt tok = some d ↔ IsFlt tok d

/-- 30_encoding.md R109, 42_frame.md R183: a spelled magnitude m 10^e is rounded to binary32 with roundTiesToEven, also
where the model settles a very large or very small value early (log 15); patterns from 0x7F800000 on are the overflow. -/
def Obligations.DecimalIsRoundedToEven : Prop :=
  ∀ (m : Nat) (e : Int), IsRounded ((m : Rat) * (10 : Rat) ^ e) (min (f32OfDecimal m e) 0x7F800000)

/-- 42_frame.md R186: F32Lt is false if either pattern is a NaN, otherwise it compares the real values, with +0 and -0
equal and the infinities at the ends. -/
def Obligations.F32LtComparesReals : Prop :=
  ∀ a b : Word, f32Lt a b = true ↔ f32IsNaN a = false ∧ f32IsNaN b = false ∧ f32Value a < f32Value b

/-- 42_frame.md R191, R192, 30_encoding.md R106: FC.WRITE stores the 20 header bytes at OUT_MEM index 0 and puts the write
cursor at 20, empty; MalformedHeader comes before IoError, and neither writes a byte. -/
def Obligations.FcWriteStoresTheHeader : Prop :=
  ∀ s : State, s.Inv →
    let ok := s.regs.clipValid = true ∧ HeaderLegal s.cfg s.regs.width s.regs.height s.regs.near s.regs.far true
    (ok → 20 ≤ s.cfg.outCap → exec .fcWrite s = .next (completeCommand (writtenHeader s))) ∧
    (ok → s.cfg.outCap < 20 → exec .fcWrite s = .next (raiseError .ioError .none s)) ∧
    (¬ ok → exec .fcWrite s = .next (raiseError .malformedHeader .none s))

/-- 42_frame.md R197: FC.WRITE, the 20 bytes copied to IN_MEM, then FC.PARSE bin gives the four fields back bit for bit,
with CLIP_VALID = 1 and PAYLOAD_OFF = 20. -/
def Obligations.HeaderRoundTrip : Prop :=
  ∀ s : State, s.Inv → s.status.busy = false → s.regs.clipValid = true → 20 ≤ s.cfg.outCap →
    HeaderLegal s.cfg s.regs.width s.regs.height s.regs.near s.regs.far true →
    ∃ t, issue .fcWrite s = .next t ∧ t.status.err = false ∧
      ∀ u : State, u.Inv → u.status.busy = false → u.cfg = s.cfg → 20 ≤ u.regs.inLen.toNat →
        (∀ a, a < 20 → u.inByte a = t.outByte a) →
        ∃ v, issue .fcParseBin u = .next v ∧ v.status.err = false ∧ v.regs.width = s.regs.width ∧
          v.regs.height = s.regs.height ∧ v.regs.near = s.regs.near ∧ v.regs.far = s.regs.far ∧
          v.regs.clipValid = true ∧ v.regs.payloadOff = 20

/-- 42_frame.md R193 to R195: FRAME.DEC parses the header of its shape, sets NPIX to WIDTH*HEIGHT and decodes the frame
body from the payload offset, then sets FRAME_VALID. -/
def Obligations.FrameDecDecodesFrames : Prop :=
  ∀ (s : State) (i : Instr) (shape tclip : Bool) (hd : Header) (ps : List PairCodes) (rest : List Nibble), s.Inv →
    (i, shape, tclip) ∈ [(Instr.frameDecBin, false, false), (.frameDecText, true, false), (.frameDecTextClip, true, true)] →
    HeaderAt shape tclip s hd → HeaderLegal s.cfg hd.width hd.height hd.near hd.far hd.clip →
    (∀ p ∈ ps, p.Legal) → EndsFrame (hd.width.toNat * hd.height.toNat) ps →
    readStream (setHeader hd s) = ps.flatMap PairCodes.nibbles ++ rest →
    exec i s = .next (completeCommand (decodedFrame ps (setNpixFromHeader (setHeader hd s))))

/-- 42_frame.md R193 to R195, R199, 60_exceptions.md R244: a bad magic or a bad header makes FRAME.DEC raise BadMagic or
MalformedHeader before any PIX_MEM write, with FRAME_VALID = 0 and an empty window; where the header is legal and the frame
body after it raises an error, FRAME.DEC raises that error with the window PIX_MEM[0 .. WIDTH*HEIGHT-1]. -/
def Obligations.FrameDecReportsErrors : Prop :=
  ∀ (s : State) (i : Instr) (shape tclip : Bool), s.Inv →
    (i, shape, tclip) ∈ [(Instr.frameDecBin, false, false), (.frameDecText, true, false), (.frameDecTextClip, true, true)] →
    (¬ BytesAt s 0 magicBytes → exec i s = .next (raiseError .badMagic .none (clearFrameValid s))) ∧
    (BytesAt s 0 magicBytes →
      (∀ hd, HeaderAt shape tclip s hd → ¬ HeaderLegal s.cfg hd.width hd.height hd.near hd.far hd.clip) →
      exec i s = .next (raiseError .malformedHeader .none (clearFrameValid s))) ∧
    (∀ hd e, HeaderAt shape tclip s hd → HeaderLegal s.cfg hd.width hd.height hd.near hd.far hd.clip →
      rdcDecodeBody (setNpixFromHeader (setHeader hd (clearFrameValid s))) = .error e →
      exec i s = .next (raiseError e (.pix (hd.width.toNat * hd.height.toNat)) (clearFrameValid s)))

/-- 42_frame.md R196: FRAME.ENC writes the header, sets NPIX to WIDTH*HEIGHT and encodes the frame body after the header;
MalformedHeader with an empty window where the header is not legal; IoError with an empty window where the header would
pass OUT_CAP (60_exceptions.md R244; DEDUCED, log 7), and with all of OUT_MEM as its window where a payload word would. -/
def Obligations.FrameEncEncodesFrames : Prop :=
  ∀ s : State, s.Inv →
    let ok := s.regs.clipValid = true ∧ HeaderLegal s.cfg s.regs.width s.regs.height s.regs.near s.regs.far true
    let t := setNpixFromHeader (writtenHeader s)
    let ns := frameNibbles (pixels s (s.regs.width.toNat * s.regs.height.toNat))
    let room := RoomFor (ns ++ padding ns t.regs) t
    (ok → 20 ≤ s.cfg.outCap → room → exec .frameEnc s = .next (completeCommand (encodedFrame t))) ∧
    (ok → 20 ≤ s.cfg.outCap → ¬ room → exec .frameEnc s = .next (raiseError .ioError (.out 0 s.cfg.outCap) s)) ∧
    (ok → s.cfg.outCap < 20 → exec .frameEnc s = .next (raiseError .ioError .none s)) ∧
    (¬ ok → exec .frameEnc s = .next (raiseError .malformedHeader .none s))

/-- 42_frame.md R198: FRAME.ENC, OUT_MEM[0 .. WR_POS-1] copied to IN_MEM with IN_LEN = WR_POS, then FRAME.DEC bin gives
the pixels and the dimensions back with FRAME_VALID = 1. -/
def Obligations.FrameRoundTrip : Prop :=
  ∀ s : State, s.Inv → s.status.busy = false → s.regs.clipValid = true → 20 ≤ s.cfg.outCap →
    HeaderLegal s.cfg s.regs.width s.regs.height s.regs.near s.regs.far true →
    let n := s.regs.width.toNat * s.regs.height.toNat
    20 + 4 * (((frameNibbles (pixels s n)).length + 7) / 8) ≤ s.cfg.outCap →
    ∃ t, issue .frameEnc s = .next t ∧ t.status.err = false ∧
      ∀ u : State, u.Inv → u.status.busy = false → u.cfg = s.cfg → u.regs.inLen = t.regs.wrPos →
        (∀ a, a < t.regs.wrPos.toNat → u.inByte a = t.outByte a) →
        ∃ v, issue .frameDecBin u = .next v ∧ v.status.err = false ∧ v.status.frameValid = true ∧
          v.regs.width = s.regs.width ∧ v.regs.height = s.regs.height ∧ ∀ j, j < n → v.pixel j = s.pixel j

/-! ## Registers, reset and the host -/

/-- 10_state.md R22: the layout of STATUS as the host reads it; every other bit reads 0. -/
def Obligations.StatusLayout : Prop :=
  ∀ t : Status,
    (t.toWord.getLsbD 0 = t.busy ∧ t.toWord.getLsbD 1 = t.done ∧ t.toWord.getLsbD 2 = t.err ∧
      t.toWord.getLsbD 3 = t.frameValid ∧ t.toWord.getLsbD 4 = t.drop) ∧
    t.toWord.extractLsb' 8 4 = t.errcode ∧ t.toWord.extractLsb' 5 3 = 0 ∧ t.toWord.extractLsb' 12 20 = 0

/-- 10_state.md R21, R22, 43_control.md R227: busy or not, a CTRL write without SRST sets IE to bit [0], and a STATUS write
clears DONE for a 1 in bit [1] and DROP for a 1 in bit [4]; nothing else changes. -/
def Obligations.CtrlAndStatusWrites : Prop :=
  ∀ (s : State) (v : Word),
    (v.getLsbD 1 = false → hostAccess (.regWrite 0x00 4 v) s = .next { s with ie := v.getLsbD 0 }) ∧
    hostAccess (.regWrite 0x04 4 v) s = .next { s with status := { s.status with
      done := s.status.done && !v.getLsbD 1, drop := s.status.drop && !v.getLsbD 4 } }

/-- 10_state.md R28, R31: a host write of RD_POS or WR_POS while idle sets it and empties its cursor. -/
def Obligations.CursorWritesEmptyTheCursor : Prop :=
  ∀ (s : State) (v : Word), s.status.busy = false →
    hostAccess (.regWrite 0x1C 4 v) s = .next { s with regs := { s.regs with rdPos := v, rdNib := 0, rdAcc := 0 } } ∧
    hostAccess (.regWrite 0x28 4 v) s = .next { s with regs := { s.regs with wrPos := v, wrNib := 0, wrAcc := 0 } }

/-- 10_state.md R34: a host write of v to IN_LEN while idle stores min(v, IN_CAP), and changes nothing else. -/
def Obligations.InLenClamps : Prop :=
  ∀ (s : State) (v : Word), s.Inv → s.status.busy = false →
    ∃ n : Word, hostAccess (.regWrite 0x34 4 v) s = .next { s with regs := { s.regs with inLen := n } } ∧
      n.toNat = min v.toNat s.cfg.inCap

/-- 10_state.md R20, R24, R25, R35 to R39, 43_control.md R226: while idle a host write of VAL, NPIX, WIDTH, HEIGHT, NEAR,
FAR or HDR.CLIP_VALID stores the value there and changes nothing else. -/
def Obligations.IdleRegisterWrites : Prop :=
  ∀ (s : State) (v : Word), s.status.busy = false →
    hostAccess (.regWrite 0x0C 4 v) s = .next { s with regs := { s.regs with val := v } } ∧
    hostAccess (.regWrite 0x10 4 v) s = .next { s with regs := { s.regs with npix := v } } ∧
    hostAccess (.regWrite 0x38 4 v) s = .next { s with regs := { s.regs with width := v } } ∧
    hostAccess (.regWrite 0x3C 4 v) s = .next { s with regs := { s.regs with height := v } } ∧
    hostAccess (.regWrite 0x40 4 v) s = .next { s with regs := { s.regs with near := v } } ∧
    hostAccess (.regWrite 0x44 4 v) s = .next { s with regs := { s.regs with far := v } } ∧
    hostAccess (.regWrite 0x48 4 v) s = .next { s with regs := { s.regs with clipValid := v.getLsbD 0 } }

/-- 10_state.md R41: a host write to a reserved offset or to a RO register (PIXCNT, PREV, RD_ACC, RD_NIB, WR_ACC, WR_NIB,
PAYLOAD_OFF) has no effect, and a read of a reserved offset returns 0 (while BUSY too: log 12). -/
def Obligations.ReservedAndReadOnlyOffsets : Prop :=
  ∀ (s : State) (v : Word) (off : Nat), off % 4 = 0 →
    ((off ∈ [0x14, 0x18, 0x20, 0x24, 0x2C, 0x30, 0x4C] ∨ (0x50 ≤ off ∧ off ≤ 0xFC)) →
      hostAccess (.regWrite off 4 v) s = .next s) ∧
    (0x50 ≤ off → off ≤ 0xFC → hostAccess (.regRead off 4) s = .next { s with readData := some 0 })

/-- 43_control.md R227: while BUSY a host write to any register but CTRL, STATUS and CMD has no effect. -/
def Obligations.BusyRegisterWrites : Prop :=
  ∀ (s : State) (v : Word) (off : Nat), s.status.busy = true → off % 4 = 0 → 0x0C ≤ off → off ≤ 0xFC →
    hostAccess (.regWrite off 4 v) s = .next s

/-- 43_control.md R228, 10_state.md R20: a host read returns the register's value while idle, and while BUSY for CTRL,
STATUS, CMD and IN_LEN; any other register returns a fresh unspecified value while BUSY (log 5), free in its reserved bits
too (DESIGN CHOICE between R228 and R41, log 21). Reading changes no state of the block. -/
def Obligations.RegisterReads : Prop :=
  ∀ (s : State) (r : RegName),
    ((s.status.busy = false ∨ r ∈ [RegName.ctrl, .status, .cmd, .inLen]) →
      hostAccess (.regRead r.offset 4) s = .next { s with readData := some (regValue r s) }) ∧
    (s.status.busy = true → r ∉ [RegName.ctrl, .status, .cmd, .inLen] →
      hostAccess (.regRead r.offset 4) s =
        .next { s with readData := some (Config.freeWord s.freeCtr), freeCtr := s.freeCtr + 1 })

/-- 60_exceptions.md R247: irq is DONE AND IE: it is IE when a command completes, and low after a STATUS write of 2, after
an acceptance and after a reset. -/
def Obligations.InterruptIsALevel : Prop :=
  (∀ s : State, s.irq = (s.status.done && s.ie)) ∧
  (∀ (i : Instr) (s t : State), exec i s = .next t → t.irq = s.ie) ∧
  (∀ s t : State, hostAccess (.regWrite 0x04 4 2) s = .next t → t.irq = false) ∧
  (∀ (s t : State) (c : Word), s.status.busy = false → hostAccess (.regWrite 0x08 4 c) s = .next t → t.irq = false) ∧
  (∀ s t : State, hostAccess .hwReset s = .next t → t.irq = false)

/-- 43_control.md R225, 60_exceptions.md R244, 70_reset_and_hazards.md R273: a CTRL write with bit [1] = 1, busy or not,
resets every register but IE, which takes bit [0]; no memory location outside the running command's window changes. -/
def Obligations.SoftReset : Prop :=
  ∀ (s : State) (v : Word), v.getLsbD 1 = true →
    ∃ t, hostAccess (.regWrite 0x00 4 v) s = .next t ∧
      t.ie = v.getLsbD 0 ∧ t.status = Status.reset ∧ t.regs = Regs.reset ∧ t.snapshot = none ∧ t.cfg = s.cfg ∧
      t.inMem = s.inMem ∧ (s.status.busy = false → t.outMem = s.outMem ∧ t.pixMem = s.pixMem) ∧
      (∀ a, (∀ lo n, abortWindow s = .out lo n → a < lo ∨ lo + n ≤ a) → t.outByte a = s.outByte a) ∧
      (∀ j, (∀ n, abortWindow s = .pix n → n ≤ j) → t.pixel j = s.pixel j)

/-- 70_reset_and_hazards.md R270: the hardware reset does the same with IE = 0. -/
def Obligations.HardwareReset : Prop :=
  ∀ s : State,
    ∃ t, hostAccess .hwReset s = .next t ∧
      t.ie = false ∧ t.status = Status.reset ∧ t.regs = Regs.reset ∧ t.snapshot = none ∧ t.cfg = s.cfg ∧
      t.inMem = s.inMem ∧ (s.status.busy = false → t.outMem = s.outMem ∧ t.pixMem = s.pixMem) ∧
      (∀ a, (∀ lo n, abortWindow s = .out lo n → a < lo ∨ lo + n ≤ a) → t.outByte a = s.outByte a) ∧
      (∀ j, (∀ n, abortWindow s = .pix n → n ≤ j) → t.pixel j = s.pixel j)

/-- 60_exceptions.md R244: the write windows, on a soft-reset or hardware-reset abort of the command whose word is in CMD
(log 7: OUT_CAP < 20 fails the checks of FC.WRITE and FRAME.ENC alike; log 17: a check counts as passed if it would pass). -/
def Obligations.AbortWindows : Prop :=
  ∀ (s : State) (i : Instr), s.status.busy = true → decodeWord s.regs.cmd = .ok i →
    (i ∈ [Instr.nop, .zzEnc, .zzDec, .vleDec, .fcParseBin, .fcParseText, .fcParseTextClip] → abortWindow s = .none) ∧
    (i ∈ [Instr.vleEnc, .vleFlush, .rdcEnc] →
      abortWindow s = .out s.regs.wrPos.toNat (s.cfg.outCap - s.regs.wrPos.toNat)) ∧
    (i = .rdcDec → abortWindow s =
      if 1 ≤ s.regs.npix.toNat ∧ s.regs.npix.toNat ≤ s.cfg.maxPixels then .pix s.regs.npix.toNat else .none) ∧
    (i = .fcWrite → (abortWindow s = .out 0 20 ↔ s.regs.clipValid = true ∧ 20 ≤ s.cfg.outCap ∧
        HeaderLegal s.cfg s.regs.width s.regs.height s.regs.near s.regs.far true) ∧
      (abortWindow s = .out 0 20 ∨ abortWindow s = .none)) ∧
    (∀ shape tclip hd, (i, shape, tclip) ∈
        [(Instr.frameDecBin, false, false), (.frameDecText, true, false), (.frameDecTextClip, true, true)] →
      HeaderAt shape tclip s hd → HeaderLegal s.cfg hd.width hd.height hd.near hd.far hd.clip →
      abortWindow s = .pix (hd.width.toNat * hd.height.toNat)) ∧
    (∀ shape tclip, (i, shape, tclip) ∈
        [(Instr.frameDecBin, false, false), (.frameDecText, true, false), (.frameDecTextClip, true, true)] →
      (BytesAt s 0 magicBytes → ∀ hd, HeaderAt shape tclip s hd →
        ¬ HeaderLegal s.cfg hd.width hd.height hd.near hd.far hd.clip) → abortWindow s = .none) ∧
    (i = .frameEnc → (abortWindow s = .out 0 s.cfg.outCap ↔ s.regs.clipValid = true ∧ 20 ≤ s.cfg.outCap ∧
        HeaderLegal s.cfg s.regs.width s.regs.height s.regs.near s.regs.far true) ∧
      (abortWindow s = .out 0 s.cfg.outCap ∨ abortWindow s = .none))

/-- 43_control.md R229, 20_memory.md R75, 10_state.md R42 to R44: a step answers a next state exactly when the turn it
takes keeps the host's contract; the three ways to break it stop under their own names. -/
def Obligations.StepStopsOnlyOnBrokenContract : Prop :=
  (∀ s : State, (∃ t, step s = .next t) ↔ s.nextTurnLegal = true) ∧
  (∀ (s : State) (off bytes : Nat) (v : Word), ¬ (bytes = 4 ∧ off % 4 = 0 ∧ off < 256) →
    hostAccess (.regWrite off bytes v) s = .refused .badRegisterAccess ∧
    hostAccess (.regRead off bytes) s = .refused .badRegisterAccess) ∧
  (∀ (s : State) (a : Nat) (b : Byte) (p : Pixel), s.status.busy = true →
    (a < s.cfg.inCap → hostAccess (.inWrite a b) s = .refused .memoryWriteWhileBusy) ∧
    (a < s.cfg.outCap → hostAccess (.outWrite a b) s = .refused .memoryWriteWhileBusy) ∧
    (a < s.cfg.maxPixels → hostAccess (.pixWrite a p) s = .refused .memoryWriteWhileBusy))

/-- 10_state.md R42 to R44, 43_control.md R229 (b), (d), 20_memory.md R72: a host memory write while idle changes that
place of that memory and nothing else, so that a later read returns it; a host memory read returns the place read, except
that OUT_MEM and PIX_MEM return an unspecified value while BUSY (log 5). -/
def Obligations.HostMemoryAccesses : Prop :=
  (∀ (s : State) (a : Nat) (b : Byte) (p : Pixel), s.status.busy = false →
    (a < s.cfg.inCap → ∃ m, hostAccess (.inWrite a b) s = .next { s with inMem := m } ∧
      ∀ c, ({ s with inMem := m } : State).inByte c = if c = a then b else s.inByte c) ∧
    (a < s.cfg.outCap → ∃ m, hostAccess (.outWrite a b) s = .next { s with outMem := m } ∧
      ∀ c, ({ s with outMem := m } : State).outByte c = if c = a then b else s.outByte c) ∧
    (a < s.cfg.maxPixels → ∃ m, hostAccess (.pixWrite a p) s = .next { s with pixMem := m } ∧
      ∀ c, ({ s with pixMem := m } : State).pixel c = if c = a then p else s.pixel c)) ∧
  (∀ (s : State) (a : Nat),
    (a < s.cfg.inCap → hostAccess (.inRead a) s = .next { s with readData := some ((s.inByte a).setWidth 32) }) ∧
    (a < s.cfg.outCap → s.status.busy = false →
      hostAccess (.outRead a) s = .next { s with readData := some ((s.outByte a).setWidth 32) }) ∧
    (a < s.cfg.maxPixels → s.status.busy = false →
      hostAccess (.pixRead a) s = .next { s with readData := some ((s.pixel a).setWidth 32) }) ∧
    (a < s.cfg.outCap → s.status.busy = true → hostAccess (.outRead a) s =
      .next { s with readData := some ((Config.freeByte s.freeCtr a).setWidth 32), freeCtr := s.freeCtr + 1 }) ∧
    (a < s.cfg.maxPixels → s.status.busy = true → hostAccess (.pixRead a) s =
      .next { s with readData := some ((Config.freePixel s.freeCtr a).setWidth 32), freeCtr := s.freeCtr + 1 }))

/-- 70_reset_and_hazards.md R270, R271: after reset every register reads 0, no interrupt is raised, no snapshot is held;
of the memories nothing is known. The capacities are the model's choice (log 1). -/
def Obligations.ResetState : Prop :=
  (∀ r : RegName, regValue r State.reset = 0) ∧ State.reset.irq = false ∧ State.reset.snapshot = none ∧
    State.reset.status.busy = false ∧
    (∀ a, State.reset.inByte a = Config.powerOnIn a ∧ State.reset.outByte a = Config.powerOnOut a ∧
      State.reset.pixel a = Config.powerOnPixel a)

/-- The reset state is legal, whatever legal capacities the instance has. -/
def Obligations.ResetIsLegal : Prop :=
  ∀ c : Capacities, c.Legal → (State.resetOf c).Inv

/-- Every step, from every legal state and under every host, keeps the state legal: cursors as 10_state.md R29 to R33 say,
IN_LEN at most IN_CAP (R34), ERRCODE a code of 60_exceptions.md R240 and never 6 (R241), memories canonical and within
their capacities (20_memory.md R65), the snapshot held exactly while BUSY (43_control.md R220), the parameters fixed. -/
def Obligations.StepKeepsStatesLegal : Prop :=
  ∀ s t : State, s.Inv → step s = .next t → t.Inv ∧ t.cfg = s.cfg
end

