-- ==== Sys2Proof/Laws/Binary32.lean ====
section
/-! SUPPORT. binary32 patterns as rational numbers: their order, and rounding to nearest with ties to even (30_encoding.md
R109, 42_frame.md R186). -/

namespace Sys2Proof.Machine

open Sys2Proof

/-! ## Values and their order -/

/-- The unit of the least positive binary32. -/
abbrev f32Unit : Rat := 2 ^ (-149 : Int)

theorem f32Unit_pos : 0 < f32Unit := by positivity

/-- The pattern t 2^23 + k stands for k 2^t units, in the subnormal range, in the normal range, and at the carry into the
next exponent. -/
theorem f32MagValue_scaled (t k : Nat) (hk : k ≤ 2 ^ 24) (ht : t = 0 ∨ 2 ^ 23 ≤ k) :
    f32MagValue (t * 2 ^ 23 + k) = (k : Rat) * 2 ^ t * f32Unit := by
  have hz (n : Nat) : (2 : Rat) ^ ((n : Int) + 1 - 150) = 2 ^ n * f32Unit := by
    rw [show ((n : Int) + 1 - 150) = (n : Int) + (-149) by ring, zpow_add₀ (by norm_num), zpow_natCast]
  unfold f32MagValue
  by_cases h1 : k < 2 ^ 23
  · obtain rfl : t = 0 := by omega
    rw [if_pos (by omega)]
    simp [f32Unit]
  · rw [if_neg (by omega)]
    by_cases h2 : k = 2 ^ 24
    · have e1 : (t * 2 ^ 23 + k) / 2 ^ 23 = (t + 1) + 1 := by omega
      have e2 : (t * 2 ^ 23 + k) % 2 ^ 23 = 0 := by omega
      rw [e1, e2, h2, show (((t + 1 + 1 : Nat) : Int) - 150) = ((t + 1 : Nat) : Int) + 1 - 150 by push_cast; ring, hz]
      push_cast
      ring
    · have e1 : (t * 2 ^ 23 + k) / 2 ^ 23 = t + 1 := by omega
      have e2 : 2 ^ 23 + (t * 2 ^ 23 + k) % 2 ^ 23 = k := by omega
      rw [e1, e2, show (((t + 1 : Nat) : Int) - 150) = (t : Int) + 1 - 150 by push_cast; ring, hz]
      ring

/-- Every pattern has the form of `f32MagValue_scaled`. -/
theorem f32_scaled (mag : Nat) : ∃ t k, mag = t * 2 ^ 23 + k ∧ k < 2 ^ 24 ∧ (t = 0 ∨ 2 ^ 23 ≤ k) := by
  by_cases h : mag < 2 ^ 23
  · exact ⟨0, mag, by omega, by omega, .inl rfl⟩
  · exact ⟨mag / 2 ^ 23 - 1, 2 ^ 23 + mag % 2 ^ 23, by omega, by omega, .inr (by omega)⟩

theorem f32MagValue_succ_lt (mag : Nat) : f32MagValue mag < f32MagValue (mag + 1) := by
  obtain ⟨t, k, rfl, hk, ht⟩ := f32_scaled mag
  rw [f32MagValue_scaled t k (by omega) ht, Nat.add_assoc, f32MagValue_scaled t (k + 1) (by omega) (by omega)]
  have hu := f32Unit_pos
  have h2 : (0 : Rat) < 2 ^ t := by positivity
  push_cast
  have := mul_pos h2 hu
  nlinarith

theorem f32MagValue_strictMono : StrictMono f32MagValue := strictMono_nat_of_lt_succ f32MagValue_succ_lt

@[simp] theorem f32MagValue_zero : f32MagValue 0 = 0 := by simp [f32MagValue]

theorem f32MagValue_nonneg (mag : Nat) : 0 ≤ f32MagValue mag := by
  rw [← f32MagValue_zero]
  exact f32MagValue_strictMono.monotone (Nat.zero_le mag)

theorem f32MagValue_pos (mag : Nat) (h : 0 < mag) : 0 < f32MagValue mag := by
  rw [← f32MagValue_zero]
  exact f32MagValue_strictMono h

/-- The place of a pattern in the order compares as its value does (42_frame.md R186). -/
theorem f32Rank_lt_iff (a b : Word) : f32Rank a < f32Rank b ↔ f32Value a < f32Value b := by
  have hm (x : Word) : (x.extractLsb' 0 31).toNat = x.toNat % 2 ^ 31 := by simp
  unfold f32Rank f32Value
  simp only [hm]
  generalize a.toNat % 2 ^ 31 = m
  generalize b.toNat % 2 ^ 31 = n
  have h0 := f32MagValue_nonneg m
  have h0' := f32MagValue_nonneg n
  cases a.getLsbD 31 <;> cases b.getLsbD 31 <;> simp only [Bool.false_eq_true, if_false, if_true]
  · rw [Nat.cast_lt, f32MagValue_strictMono.lt_iff_lt]
  · constructor
    · intro h; omega
    · intro h; linarith
  · constructor
    · intro h
      rcases Nat.eq_zero_or_pos m with rfl | hp
      · have := f32MagValue_pos n (by omega)
        rw [f32MagValue_zero]
        linarith
      · have := f32MagValue_pos m hp
        linarith
    · intro h
      by_contra hc
      obtain rfl : m = 0 := by omega
      obtain rfl : n = 0 := by omega
      simp at h
  · rw [neg_lt_neg_iff, neg_lt_neg_iff, Nat.cast_lt, f32MagValue_strictMono.lt_iff_lt]

/-! ## Rounding -/

/-- `divTiesEven` is the nearest integer, and an even one halfway. -/
theorem divTiesEven_spec (x d : Nat) (hd : 0 < d) :
    let k := divTiesEven x d
    ((2 * k : Nat) * d < 2 * x + d ∨ (k % 2 = 0 ∧ 2 * k * d = 2 * x + d)) ∧
    (2 * x < (2 * k + 1) * d ∨ (k % 2 = 0 ∧ 2 * x = (2 * k + 1) * d)) ∧ x / d ≤ k ∧ k ≤ x / d + 1 ∧
    (k = x / d → k * d ≤ x) := by
  have hx := Nat.div_add_mod x d
  have hr := Nat.mod_lt x hd
  unfold divTiesEven
  dsimp only
  generalize x / d = q at *
  generalize x % d = r at *
  rw [mul_comm] at hx
  have e1 : 2 * q * d = 2 * (q * d) := by ring
  have e2 : (2 * q + 1) * d = 2 * (q * d) + d := by ring
  have e3 : 2 * (q + 1) * d = 2 * (q * d) + 2 * d := by ring
  have e4 : (2 * (q + 1) + 1) * d = 2 * (q * d) + 3 * d := by ring
  have e5 : (q + 1) * d = q * d + d := by ring
  split
  · rename_i h
    rw [e3, e4, e5]
    refine ⟨?_, ?_, by omega, by omega, by omega⟩
    · rcases h with h | ⟨h, h'⟩
      · exact .inl (by omega)
      · exact .inr ⟨by omega, by omega⟩
    · exact .inl (by omega)
  · rename_i h
    rw [e1, e2]
    refine ⟨.inl (by omega), ?_, by omega, by omega, by omega⟩
    by_cases h2 : 2 * r = d
    · exact .inr ⟨by omega, by omega⟩
    · exact .inl (by omega)

/-- A rounding before the cut at 0x7F800000. -/
def Rounds (q : Rat) (mag : Nat) : Prop :=
  (0 < mag → f32MagValue (mag - 1) + f32MagValue mag < 2 * q ∨
    (mag % 2 = 0 ∧ f32MagValue (mag - 1) + f32MagValue mag = 2 * q)) ∧
  (2 * q < f32MagValue mag + f32MagValue (mag + 1) ∨
    (mag % 2 = 0 ∧ 2 * q = f32MagValue mag + f32MagValue (mag + 1)))

theorem Rounds.isRounded {q : Rat} {mag : Nat} (h : Rounds q mag) : IsRounded q (min mag 0x7F800000) := by
  obtain ⟨h₁, h₂⟩ := h
  by_cases hm : mag ≤ 0x7F800000
  · rw [Nat.min_eq_left hm]
    exact ⟨hm, h₁, fun _ => h₂⟩
  · rw [Nat.min_eq_right (by omega)]
    refine ⟨le_rfl, fun _ => .inl ?_, fun h => absurd h (lt_irrefl _)⟩
    have a := f32MagValue_strictMono (show 0x7F800000 - 1 < mag - 1 by omega)
    have b := f32MagValue_strictMono (show 0x7F800000 < mag by omega)
    rcases h₁ (by omega) with h | ⟨-, h⟩ <;> linarith

/-- Rounding at a scale 2^t: a nearest integer k of the scaled value gives the pattern t 2^23 + k. -/
theorem rounds_scaled (q : Rat) (t k : Nat) (hk : k ≤ 2 ^ 24) (ht : t = 0 ∨ 2 ^ 23 ≤ k)
    (h₁ : (2 * k - 1 : Rat) * (2 ^ t * f32Unit) < 2 * q ∨
      (k % 2 = 0 ∧ (2 * k - 1 : Rat) * (2 ^ t * f32Unit) = 2 * q))
    (h₂ : 2 * q < (2 * k + 1 : Rat) * (2 ^ t * f32Unit) ∨
      (k % 2 = 0 ∧ 2 * q = (2 * k + 1 : Rat) * (2 ^ t * f32Unit)))
    (h₃ : 1 ≤ t → k = 2 ^ 23 → (k : Rat) * (2 ^ t * f32Unit) ≤ q) : Rounds q (t * 2 ^ 23 + k) := by
  have hv := f32MagValue_scaled t k hk ht
  have hu : 0 < 2 ^ t * f32Unit := mul_pos (by positivity) f32Unit_pos
  rw [mul_assoc] at hv
  have hpar : (t * 2 ^ 23 + k) % 2 = k % 2 := by omega
  unfold Rounds
  rw [hv, hpar]
  generalize hU : (2 : Rat) ^ t * f32Unit = U at *
  constructor
  · intro hpos
    by_cases hlow : 1 ≤ t ∧ k = 2 ^ 23
    · obtain ⟨t', rfl⟩ : ∃ t', t = t' + 1 := ⟨t - 1, by omega⟩
      have hprev := f32MagValue_scaled t' (2 ^ 24 - 1) (by omega) (.inr (by omega))
      have hq := h₃ hlow.1 hlow.2
      have hU' : (2 : Rat) ^ t' * f32Unit = U / 2 := by rw [← hU, pow_succ]; ring
      rw [mul_assoc, hU'] at hprev
      rw [show (t' + 1) * 2 ^ 23 + k - 1 = t' * 2 ^ 23 + (2 ^ 24 - 1) by omega, hprev, hlow.2]
      rw [hlow.2] at hq
      left
      push_cast at hq ⊢
      linarith
    · obtain ⟨j, rfl⟩ : ∃ j, k = j + 1 := ⟨k - 1, by omega⟩
      have hprev := f32MagValue_scaled t j (by omega) (by omega)
      rw [mul_assoc, hU] at hprev
      rw [show t * 2 ^ 23 + (j + 1) - 1 = t * 2 ^ 23 + j by omega, hprev]
      push_cast at h₁ ⊢
      rcases h₁ with h | ⟨hp, h⟩
      · left; linarith
      · right; exact ⟨hp, by linarith⟩
  · by_cases htop : k = 2 ^ 24
    · have hnext := f32MagValue_scaled (t + 1) (2 ^ 23 + 1) (by omega) (.inr (by omega))
      rw [mul_assoc, show (2 : Rat) ^ (t + 1) * f32Unit = 2 * U by rw [← hU, pow_succ]; ring] at hnext
      rw [htop] at h₂ ⊢
      rw [show t * 2 ^ 23 + 2 ^ 24 + 1 = (t + 1) * 2 ^ 23 + (2 ^ 23 + 1) by omega, hnext]
      left
      push_cast at h₂ ⊢
      norm_num at h₂ ⊢
      rcases h₂ with h | h <;> linarith
    · have hnext := f32MagValue_scaled t (k + 1) (by omega) (by omega)
      rw [mul_assoc, hU] at hnext
      rw [Nat.add_assoc, hnext]
      push_cast at h₂ ⊢
      rcases h₂ with h | ⟨hp, h⟩
      · left; linarith
      · right; exact ⟨hp, by linarith⟩

/-- The pattern of a ratio is its rounding (30_encoding.md R109). -/
theorem f32OfRatio_rounds (num den : Nat) (hd : 0 < den) : Rounds ((num : Rat) / den) (f32OfRatio num den) := by
  unfold f32OfRatio
  dsimp only
  set x := num * 2 ^ 149 with hx
  set t := Nat.log2 (x / den) - 23 with ht
  have hD : 0 < den * 2 ^ t := by positivity
  obtain ⟨s₁, s₂, s₃, s₄, s₅⟩ := divTiesEven_spec x (den * 2 ^ t) hD
  set k := divTiesEven x (den * 2 ^ t) with hk
  have hfloor : x / (den * 2 ^ t) = x / den / 2 ^ t := by rw [Nat.div_div_eq_div_mul]
  have hhi : x / den / 2 ^ t < 2 ^ 24 := by
    rw [Nat.div_lt_iff_lt_mul (by positivity), ← pow_add]
    rcases Nat.eq_zero_or_pos (x / den) with h0 | h0
    · rw [h0]; positivity
    · exact lt_of_lt_of_le Nat.lt_log2_self (Nat.pow_le_pow_right (by norm_num) (by omega))
  have hlo : 1 ≤ t → 2 ^ 23 ≤ x / den / 2 ^ t := by
    intro h1
    rw [Nat.le_div_iff_mul_le (by positivity), ← pow_add]
    have h0 : x / den ≠ 0 := by
      intro h0
      rw [h0] at ht
      simp at ht
      omega
    exact le_trans (Nat.pow_le_pow_right (by norm_num) (by omega)) (Nat.log2_self_le h0)
  have hq : (num : Rat) / den = (x : Rat) / (den * 2 ^ t : Nat) * (2 ^ t * f32Unit) := by
    have hdq : (den : Rat) ≠ 0 := by exact_mod_cast hd.ne'
    have h2 : ((2 : Rat) ^ t) ≠ 0 := by positivity
    have h149 : (2 : Rat) ^ 149 * f32Unit = 1 := by
      rw [f32Unit, ← zpow_natCast, ← zpow_add₀ (by norm_num)]
      norm_num
    rw [hx]
    push_cast
    field_simp
    linear_combination (-(num : Rat)) * h149
  have hU : 0 < 2 ^ t * f32Unit := mul_pos (by positivity) f32Unit_pos
  have hDq : (0 : Rat) < (den * 2 ^ t : Nat) := by exact_mod_cast hD
  refine rounds_scaled _ t k (by omega) ?_ ?_ ?_ ?_
  · by_cases h : t = 0
    · exact .inl h
    · exact .inr (by have := hlo (by omega); omega)
  · rw [hq]
    rcases s₁ with h | ⟨hp, h⟩
    · left
      have h' : ((2 * k : Nat) * (den * 2 ^ t : Nat) : Rat) < 2 * x + (den * 2 ^ t : Nat) := by exact_mod_cast h
      have : (2 * k - 1 : Rat) < 2 * (x / (den * 2 ^ t : Nat)) := by
        rw [← mul_div_assoc, lt_div_iff₀ hDq]
        push_cast at h' ⊢
        linarith
      have := mul_lt_mul_of_pos_right this hU
      linarith
    · right
      have h' : ((2 * k * (den * 2 ^ t) : Nat) : Rat) = ((2 * x + den * 2 ^ t : Nat) : Rat) := by rw [h]
      have : (2 * k - 1 : Rat) = 2 * (x / (den * 2 ^ t : Nat)) := by
        rw [← mul_div_assoc, eq_div_iff hDq.ne']
        push_cast at h' ⊢
        linarith
      exact ⟨hp, by rw [this]; ring⟩
  · rw [hq]
    rcases s₂ with h | ⟨hp, h⟩
    · left
      have h' : ((2 * x : Nat) : Rat) < (((2 * k + 1) * (den * 2 ^ t) : Nat) : Rat) := by exact_mod_cast h
      have : 2 * ((x : Rat) / (den * 2 ^ t : Nat)) < 2 * k + 1 := by
        rw [← mul_div_assoc, div_lt_iff₀ hDq]
        push_cast at h' ⊢
        linarith
      have := mul_lt_mul_of_pos_right this hU
      linarith
    · right
      have h' : ((2 * x : Nat) : Rat) = (((2 * k + 1) * (den * 2 ^ t) : Nat) : Rat) := by rw [h]
      have : 2 * ((x : Rat) / (den * 2 ^ t : Nat)) = 2 * k + 1 := by
        rw [← mul_div_assoc, div_eq_iff hDq.ne']
        push_cast at h' ⊢
        linarith
      exact ⟨hp, by rw [← this]; ring⟩
  · intro h1 hk23
    have hkx := s₅ (by have := hlo h1; omega)
    rw [hq]
    refine mul_le_mul_of_nonneg_right ?_ hU.le
    rw [le_div_iff₀ hDq]
    exact_mod_cast hkx

/-! ## Decimals -/

theorem ratio_of_decimal (m : Nat) (e : Int) : (m : Rat) * 10 ^ e =
    if 0 ≤ e then ((m * 10 ^ e.toNat : Nat) : Rat) / (1 : Nat) else (m : Rat) / (10 ^ (-e).toNat : Nat) := by
  split
  · rename_i h
    obtain ⟨n, rfl⟩ := Int.eq_ofNat_of_zero_le h
    push_cast
    simp
  · rename_i h
    obtain ⟨n, hn⟩ := Int.eq_ofNat_of_zero_le (show 0 ≤ -e by omega)
    obtain rfl : e = -(n : Int) := by omega
    push_cast
    rw [zpow_neg, zpow_natCast]
    simp [div_eq_mul_inv]

theorem f32Max_lt : f32MagValue 0x7F800000 < 10 ^ 39 := by
  have := f32MagValue_scaled 254 (2 ^ 23) (by norm_num) (.inr le_rfl)
  rw [show 254 * 2 ^ 23 + 2 ^ 23 = 0x7F800000 by norm_num] at this
  rw [this]
  norm_num [f32Unit]

theorem f32MagValue_one : f32MagValue 1 = f32Unit := by
  have := f32MagValue_scaled 0 1 (by norm_num) (.inl rfl)
  simpa using this

theorem rounded_zero : IsRounded 0 0 := by
  refine ⟨by norm_num, fun h => absurd h (lt_irrefl _), fun _ => .inl ?_⟩
  rw [f32MagValue_one, f32MagValue_zero]
  have := f32Unit_pos
  linarith

/-- From 10^39 on a decimal overflows (log 15). -/
theorem rounded_large (m : Nat) (e : Int) (h0 : m ≠ 0) (hbig : 39 ≤ e) :
    IsRounded ((m : Rat) * (10 : Rat) ^ e) 0x7F800000 := by
  refine ⟨le_rfl, fun _ => .inl ?_, fun h => absurd h (lt_irrefl _)⟩
  have h1 : (10 : Rat) ^ (39 : Int) ≤ 10 ^ e := zpow_le_zpow_right₀ (by norm_num) hbig
  have h2 : (1 : Rat) ≤ m := by exact_mod_cast Nat.one_le_iff_ne_zero.2 h0
  have h3 := f32Max_lt
  have h4 := f32MagValue_strictMono (show 0x7F800000 - 1 < 0x7F800000 by norm_num)
  rw [show (10 : Rat) ^ (39 : Int) = 10 ^ 39 by norm_cast] at h1
  have h5 : (10 : Rat) ^ e ≤ m * 10 ^ e := le_mul_of_one_le_left (by positivity) h2
  linarith

/-- Below the bound of log 15 a decimal rounds to zero. -/
theorem rounded_small (m : Nat) (e : Int) (hsmall : e + Nat.log2 m + 1 ≤ -46) :
    IsRounded ((m : Rat) * (10 : Rat) ^ e) 0 := by
  have h10 : (0 : Rat) < 10 ^ e := by positivity
  refine ⟨by norm_num, fun h => absurd h (lt_irrefl _), fun _ => .inl ?_⟩
  have h1 : (m : Rat) < 10 ^ ((Nat.log2 m : Int) + 1) := by
    have ha : m < 2 ^ (Nat.log2 m + 1) := Nat.lt_log2_self
    have hb : 2 ^ (Nat.log2 m + 1) ≤ 10 ^ (Nat.log2 m + 1) := Nat.pow_le_pow_left (by norm_num) _
    have hc : (m : Rat) < ((10 ^ (Nat.log2 m + 1) : Nat) : Rat) := by exact_mod_cast lt_of_lt_of_le ha hb
    rw [show ((Nat.log2 m : Int) + 1) = ((Nat.log2 m + 1 : Nat) : Int) by push_cast; rfl, zpow_natCast]
    push_cast at hc
    exact hc
  have h2 : (m : Rat) * 10 ^ e < 10 ^ (-46 : Int) :=
    lt_of_lt_of_le (mul_lt_mul_of_pos_right h1 h10) (by
      rw [← zpow_add₀ (by norm_num)]
      exact zpow_le_zpow_right₀ (by norm_num) (by omega))
  have h3 : 2 * (10 : Rat) ^ (-46 : Int) < f32Unit := by norm_num [f32Unit]
  rw [f32MagValue_one, f32MagValue_zero]
  linarith

end Sys2Proof.Machine
end

