-- ==== Sys2Proof/Laws/State.lean ====
section
/-! SUPPORT. One lemma per field per update, true by rfl, so that no later proof unfolds a record update. -/

namespace Sys2Proof.Machine

/-! ## putOutWord -/

@[simp] theorem putOutWord_cfg (s : State) (a : Nat) (w : Word) : (s.putOutWord a w).cfg = s.cfg := rfl
@[simp] theorem putOutWord_ie (s : State) (a : Nat) (w : Word) : (s.putOutWord a w).ie = s.ie := rfl
@[simp] theorem putOutWord_status (s : State) (a : Nat) (w : Word) : (s.putOutWord a w).status = s.status := rfl
@[simp] theorem putOutWord_regs (s : State) (a : Nat) (w : Word) : (s.putOutWord a w).regs = s.regs := rfl
@[simp] theorem putOutWord_snapshot (s : State) (a : Nat) (w : Word) : (s.putOutWord a w).snapshot = s.snapshot := rfl
@[simp] theorem putOutWord_inMem (s : State) (a : Nat) (w : Word) : (s.putOutWord a w).inMem = s.inMem := rfl
@[simp] theorem putOutWord_outMem (s : State) (a : Nat) (w : Word) :
    (s.putOutWord a w).outMem = memWrite s.outMem a 4 w.toNat := rfl
@[simp] theorem putOutWord_pixMem (s : State) (a : Nat) (w : Word) : (s.putOutWord a w).pixMem = s.pixMem := rfl
@[simp] theorem putOutWord_agenda (s : State) (a : Nat) (w : Word) : (s.putOutWord a w).agenda = s.agenda := rfl
@[simp] theorem putOutWord_readData (s : State) (a : Nat) (w : Word) : (s.putOutWord a w).readData = s.readData := rfl
@[simp] theorem putOutWord_freeCtr (s : State) (a : Nat) (w : Word) : (s.putOutWord a w).freeCtr = s.freeCtr := rfl

/-! ## putPixel -/

@[simp] theorem putPixel_cfg (s : State) (i : Nat) (p : Pixel) : (s.putPixel i p).cfg = s.cfg := rfl
@[simp] theorem putPixel_ie (s : State) (i : Nat) (p : Pixel) : (s.putPixel i p).ie = s.ie := rfl
@[simp] theorem putPixel_status (s : State) (i : Nat) (p : Pixel) : (s.putPixel i p).status = s.status := rfl
@[simp] theorem putPixel_regs (s : State) (i : Nat) (p : Pixel) : (s.putPixel i p).regs = s.regs := rfl
@[simp] theorem putPixel_snapshot (s : State) (i : Nat) (p : Pixel) : (s.putPixel i p).snapshot = s.snapshot := rfl
@[simp] theorem putPixel_inMem (s : State) (i : Nat) (p : Pixel) : (s.putPixel i p).inMem = s.inMem := rfl
@[simp] theorem putPixel_outMem (s : State) (i : Nat) (p : Pixel) : (s.putPixel i p).outMem = s.outMem := rfl
@[simp] theorem putPixel_pixMem (s : State) (i : Nat) (p : Pixel) :
    (s.putPixel i p).pixMem = s.pixMem.insert i p := rfl
@[simp] theorem putPixel_agenda (s : State) (i : Nat) (p : Pixel) : (s.putPixel i p).agenda = s.agenda := rfl
@[simp] theorem putPixel_readData (s : State) (i : Nat) (p : Pixel) : (s.putPixel i p).readData = s.readData := rfl
@[simp] theorem putPixel_freeCtr (s : State) (i : Nat) (p : Pixel) : (s.putPixel i p).freeCtr = s.freeCtr := rfl

/-! ## loadWord -/

@[simp] theorem loadWord_cfg (s : State) : (loadWord s).cfg = s.cfg := rfl
@[simp] theorem loadWord_ie (s : State) : (loadWord s).ie = s.ie := rfl
@[simp] theorem loadWord_status (s : State) : (loadWord s).status = s.status := rfl
@[simp] theorem loadWord_regs (s : State) :
    (loadWord s).regs = { s.regs with rdAcc := s.inWord s.regs.rdPos.toNat, rdPos := s.regs.rdPos + 4, rdNib := 8 } := rfl
@[simp] theorem loadWord_snapshot (s : State) : (loadWord s).snapshot = s.snapshot := rfl
@[simp] theorem loadWord_inMem (s : State) : (loadWord s).inMem = s.inMem := rfl
@[simp] theorem loadWord_outMem (s : State) : (loadWord s).outMem = s.outMem := rfl
@[simp] theorem loadWord_pixMem (s : State) : (loadWord s).pixMem = s.pixMem := rfl
@[simp] theorem loadWord_agenda (s : State) : (loadWord s).agenda = s.agenda := rfl
@[simp] theorem loadWord_readData (s : State) : (loadWord s).readData = s.readData := rfl
@[simp] theorem loadWord_freeCtr (s : State) : (loadWord s).freeCtr = s.freeCtr := rfl

/-! ## takeNibble -/

@[simp] theorem takeNibble_cfg (s : State) : (takeNibble s).2.cfg = s.cfg := rfl
@[simp] theorem takeNibble_ie (s : State) : (takeNibble s).2.ie = s.ie := rfl
@[simp] theorem takeNibble_status (s : State) : (takeNibble s).2.status = s.status := rfl
@[simp] theorem takeNibble_regs (s : State) :
    (takeNibble s).2.regs = { s.regs with rdAcc := s.regs.rdAcc <<< 4, rdNib := s.regs.rdNib - 1 } := rfl
@[simp] theorem takeNibble_snapshot (s : State) : (takeNibble s).2.snapshot = s.snapshot := rfl
@[simp] theorem takeNibble_inMem (s : State) : (takeNibble s).2.inMem = s.inMem := rfl
@[simp] theorem takeNibble_outMem (s : State) : (takeNibble s).2.outMem = s.outMem := rfl
@[simp] theorem takeNibble_pixMem (s : State) : (takeNibble s).2.pixMem = s.pixMem := rfl
@[simp] theorem takeNibble_agenda (s : State) : (takeNibble s).2.agenda = s.agenda := rfl
@[simp] theorem takeNibble_readData (s : State) : (takeNibble s).2.readData = s.readData := rfl
@[simp] theorem takeNibble_freeCtr (s : State) : (takeNibble s).2.freeCtr = s.freeCtr := rfl

/-! ## acceptCommand -/

@[simp] theorem acceptCommand_cfg (s : State) (c : Word) : (acceptCommand c s).cfg = s.cfg := rfl
@[simp] theorem acceptCommand_ie (s : State) (c : Word) : (acceptCommand c s).ie = s.ie := rfl
@[simp] theorem acceptCommand_status (s : State) (c : Word) :
    (acceptCommand c s).status = s.status.accepted (clearsFrame c) := rfl
@[simp] theorem acceptCommand_regs (s : State) (c : Word) : (acceptCommand c s).regs = { s.regs with cmd := c } := rfl
@[simp] theorem acceptCommand_snapshot (s : State) (c : Word) :
    (acceptCommand c s).snapshot = some { s.regs with cmd := c } := rfl
@[simp] theorem acceptCommand_inMem (s : State) (c : Word) : (acceptCommand c s).inMem = s.inMem := rfl
@[simp] theorem acceptCommand_outMem (s : State) (c : Word) : (acceptCommand c s).outMem = s.outMem := rfl
@[simp] theorem acceptCommand_pixMem (s : State) (c : Word) : (acceptCommand c s).pixMem = s.pixMem := rfl
@[simp] theorem acceptCommand_agenda (s : State) (c : Word) : (acceptCommand c s).agenda = s.agenda := rfl
@[simp] theorem acceptCommand_readData (s : State) (c : Word) : (acceptCommand c s).readData = s.readData := rfl
@[simp] theorem acceptCommand_freeCtr (s : State) (c : Word) : (acceptCommand c s).freeCtr = s.freeCtr := rfl

/-! ## completeCommand -/

@[simp] theorem completeCommand_cfg (s : State) : (completeCommand s).cfg = s.cfg := rfl
@[simp] theorem completeCommand_ie (s : State) : (completeCommand s).ie = s.ie := rfl
@[simp] theorem completeCommand_status (s : State) : (completeCommand s).status = s.status.completed := rfl
@[simp] theorem completeCommand_regs (s : State) : (completeCommand s).regs = s.regs := rfl
@[simp] theorem completeCommand_snapshot (s : State) : (completeCommand s).snapshot = none := rfl
@[simp] theorem completeCommand_inMem (s : State) : (completeCommand s).inMem = s.inMem := rfl
@[simp] theorem completeCommand_outMem (s : State) : (completeCommand s).outMem = s.outMem := rfl
@[simp] theorem completeCommand_pixMem (s : State) : (completeCommand s).pixMem = s.pixMem := rfl
@[simp] theorem completeCommand_agenda (s : State) : (completeCommand s).agenda = s.agenda := rfl
@[simp] theorem completeCommand_readData (s : State) : (completeCommand s).readData = s.readData := rfl
@[simp] theorem completeCommand_freeCtr (s : State) : (completeCommand s).freeCtr = s.freeCtr := rfl

/-! ## clearFrameValid -/

@[simp] theorem clearFrameValid_cfg (s : State) : (clearFrameValid s).cfg = s.cfg := rfl
@[simp] theorem clearFrameValid_ie (s : State) : (clearFrameValid s).ie = s.ie := rfl
@[simp] theorem clearFrameValid_status (s : State) :
    (clearFrameValid s).status = { s.status with frameValid := false } := rfl
@[simp] theorem clearFrameValid_regs (s : State) : (clearFrameValid s).regs = s.regs := rfl
@[simp] theorem clearFrameValid_snapshot (s : State) : (clearFrameValid s).snapshot = s.snapshot := rfl
@[simp] theorem clearFrameValid_inMem (s : State) : (clearFrameValid s).inMem = s.inMem := rfl
@[simp] theorem clearFrameValid_outMem (s : State) : (clearFrameValid s).outMem = s.outMem := rfl
@[simp] theorem clearFrameValid_pixMem (s : State) : (clearFrameValid s).pixMem = s.pixMem := rfl
@[simp] theorem clearFrameValid_agenda (s : State) : (clearFrameValid s).agenda = s.agenda := rfl
@[simp] theorem clearFrameValid_readData (s : State) : (clearFrameValid s).readData = s.readData := rfl
@[simp] theorem clearFrameValid_freeCtr (s : State) : (clearFrameValid s).freeCtr = s.freeCtr := rfl

/-! ## setFrameValid -/

@[simp] theorem setFrameValid_cfg (s : State) : (setFrameValid s).cfg = s.cfg := rfl
@[simp] theorem setFrameValid_ie (s : State) : (setFrameValid s).ie = s.ie := rfl
@[simp] theorem setFrameValid_status (s : State) :
    (setFrameValid s).status = { s.status with frameValid := true } := rfl
@[simp] theorem setFrameValid_regs (s : State) : (setFrameValid s).regs = s.regs := rfl
@[simp] theorem setFrameValid_snapshot (s : State) : (setFrameValid s).snapshot = s.snapshot := rfl
@[simp] theorem setFrameValid_inMem (s : State) : (setFrameValid s).inMem = s.inMem := rfl
@[simp] theorem setFrameValid_outMem (s : State) : (setFrameValid s).outMem = s.outMem := rfl
@[simp] theorem setFrameValid_pixMem (s : State) : (setFrameValid s).pixMem = s.pixMem := rfl
@[simp] theorem setFrameValid_agenda (s : State) : (setFrameValid s).agenda = s.agenda := rfl
@[simp] theorem setFrameValid_readData (s : State) : (setFrameValid s).readData = s.readData := rfl
@[simp] theorem setFrameValid_freeCtr (s : State) : (setFrameValid s).freeCtr = s.freeCtr := rfl

/-! ## resetRegisters -/

@[simp] theorem resetRegisters_cfg (s : State) (ie : Bool) : (resetRegisters ie s).cfg = s.cfg := rfl
@[simp] theorem resetRegisters_ie (s : State) (ie : Bool) : (resetRegisters ie s).ie = ie := rfl
@[simp] theorem resetRegisters_status (s : State) (ie : Bool) : (resetRegisters ie s).status = Status.reset := rfl
@[simp] theorem resetRegisters_regs (s : State) (ie : Bool) : (resetRegisters ie s).regs = Regs.reset := rfl
@[simp] theorem resetRegisters_snapshot (s : State) (ie : Bool) : (resetRegisters ie s).snapshot = none := rfl
@[simp] theorem resetRegisters_inMem (s : State) (ie : Bool) : (resetRegisters ie s).inMem = s.inMem := rfl
@[simp] theorem resetRegisters_outMem (s : State) (ie : Bool) : (resetRegisters ie s).outMem = s.outMem := rfl
@[simp] theorem resetRegisters_pixMem (s : State) (ie : Bool) : (resetRegisters ie s).pixMem = s.pixMem := rfl
@[simp] theorem resetRegisters_agenda (s : State) (ie : Bool) : (resetRegisters ie s).agenda = s.agenda := rfl
@[simp] theorem resetRegisters_readData (s : State) (ie : Bool) : (resetRegisters ie s).readData = s.readData := rfl
@[simp] theorem resetRegisters_freeCtr (s : State) (ie : Bool) : (resetRegisters ie s).freeCtr = s.freeCtr := rfl

/-! ## setVal -/

@[simp] theorem setVal_cfg (s : State) (v : Word) : (setVal v s).cfg = s.cfg := rfl
@[simp] theorem setVal_ie (s : State) (v : Word) : (setVal v s).ie = s.ie := rfl
@[simp] theorem setVal_status (s : State) (v : Word) : (setVal v s).status = s.status := rfl
@[simp] theorem setVal_regs (s : State) (v : Word) : (setVal v s).regs = { s.regs with val := v } := rfl
@[simp] theorem setVal_snapshot (s : State) (v : Word) : (setVal v s).snapshot = s.snapshot := rfl
@[simp] theorem setVal_inMem (s : State) (v : Word) : (setVal v s).inMem = s.inMem := rfl
@[simp] theorem setVal_outMem (s : State) (v : Word) : (setVal v s).outMem = s.outMem := rfl
@[simp] theorem setVal_pixMem (s : State) (v : Word) : (setVal v s).pixMem = s.pixMem := rfl
@[simp] theorem setVal_agenda (s : State) (v : Word) : (setVal v s).agenda = s.agenda := rfl
@[simp] theorem setVal_readData (s : State) (v : Word) : (setVal v s).readData = s.readData := rfl
@[simp] theorem setVal_freeCtr (s : State) (v : Word) : (setVal v s).freeCtr = s.freeCtr := rfl

/-! ## addPixcnt -/

@[simp] theorem addPixcnt_cfg (s : State) (n : Word) : (addPixcnt n s).cfg = s.cfg := rfl
@[simp] theorem addPixcnt_ie (s : State) (n : Word) : (addPixcnt n s).ie = s.ie := rfl
@[simp] theorem addPixcnt_status (s : State) (n : Word) : (addPixcnt n s).status = s.status := rfl
@[simp] theorem addPixcnt_regs (s : State) (n : Word) :
    (addPixcnt n s).regs = { s.regs with pixcnt := s.regs.pixcnt + n } := rfl
@[simp] theorem addPixcnt_snapshot (s : State) (n : Word) : (addPixcnt n s).snapshot = s.snapshot := rfl
@[simp] theorem addPixcnt_inMem (s : State) (n : Word) : (addPixcnt n s).inMem = s.inMem := rfl
@[simp] theorem addPixcnt_outMem (s : State) (n : Word) : (addPixcnt n s).outMem = s.outMem := rfl
@[simp] theorem addPixcnt_pixMem (s : State) (n : Word) : (addPixcnt n s).pixMem = s.pixMem := rfl
@[simp] theorem addPixcnt_agenda (s : State) (n : Word) : (addPixcnt n s).agenda = s.agenda := rfl
@[simp] theorem addPixcnt_readData (s : State) (n : Word) : (addPixcnt n s).readData = s.readData := rfl
@[simp] theorem addPixcnt_freeCtr (s : State) (n : Word) : (addPixcnt n s).freeCtr = s.freeCtr := rfl

/-! ## emitPixel -/

@[simp] theorem emitPixel_cfg (s : State) (p : Pixel) : (emitPixel p s).cfg = s.cfg := rfl
@[simp] theorem emitPixel_ie (s : State) (p : Pixel) : (emitPixel p s).ie = s.ie := rfl
@[simp] theorem emitPixel_status (s : State) (p : Pixel) : (emitPixel p s).status = s.status := rfl
@[simp] theorem emitPixel_regs (s : State) (p : Pixel) :
    (emitPixel p s).regs = { s.regs with prev := p, pixcnt := s.regs.pixcnt + 1 } := rfl
@[simp] theorem emitPixel_snapshot (s : State) (p : Pixel) : (emitPixel p s).snapshot = s.snapshot := rfl
@[simp] theorem emitPixel_inMem (s : State) (p : Pixel) : (emitPixel p s).inMem = s.inMem := rfl
@[simp] theorem emitPixel_outMem (s : State) (p : Pixel) : (emitPixel p s).outMem = s.outMem := rfl
@[simp] theorem emitPixel_pixMem (s : State) (p : Pixel) :
    (emitPixel p s).pixMem = s.pixMem.insert s.regs.pixcnt.toNat p := rfl
@[simp] theorem emitPixel_agenda (s : State) (p : Pixel) : (emitPixel p s).agenda = s.agenda := rfl
@[simp] theorem emitPixel_readData (s : State) (p : Pixel) : (emitPixel p s).readData = s.readData := rfl
@[simp] theorem emitPixel_freeCtr (s : State) (p : Pixel) : (emitPixel p s).freeCtr = s.freeCtr := rfl

/-! ## startBody -/

@[simp] theorem startBody_cfg (s : State) : (startBody s).cfg = s.cfg := rfl
@[simp] theorem startBody_ie (s : State) : (startBody s).ie = s.ie := rfl
@[simp] theorem startBody_status (s : State) : (startBody s).status = s.status := rfl
@[simp] theorem startBody_regs (s : State) : (startBody s).regs = { s.regs with prev := 0, pixcnt := 0 } := rfl
@[simp] theorem startBody_snapshot (s : State) : (startBody s).snapshot = s.snapshot := rfl
@[simp] theorem startBody_inMem (s : State) : (startBody s).inMem = s.inMem := rfl
@[simp] theorem startBody_outMem (s : State) : (startBody s).outMem = s.outMem := rfl
@[simp] theorem startBody_pixMem (s : State) : (startBody s).pixMem = s.pixMem := rfl
@[simp] theorem startBody_agenda (s : State) : (startBody s).agenda = s.agenda := rfl
@[simp] theorem startBody_readData (s : State) : (startBody s).readData = s.readData := rfl
@[simp] theorem startBody_freeCtr (s : State) : (startBody s).freeCtr = s.freeCtr := rfl

/-! ## setHeader -/

@[simp] theorem setHeader_cfg (s : State) (hd : Header) : (setHeader hd s).cfg = s.cfg := rfl
@[simp] theorem setHeader_ie (s : State) (hd : Header) : (setHeader hd s).ie = s.ie := rfl
@[simp] theorem setHeader_status (s : State) (hd : Header) : (setHeader hd s).status = s.status := rfl
@[simp] theorem setHeader_regs (s : State) (hd : Header) :
    (setHeader hd s).regs = { s.regs with
      width := hd.width, height := hd.height, near := hd.near, far := hd.far, clipValid := hd.clip,
      payloadOff := hd.off, rdPos := hd.off, rdNib := 0, rdAcc := 0 } := rfl
@[simp] theorem setHeader_snapshot (s : State) (hd : Header) : (setHeader hd s).snapshot = s.snapshot := rfl
@[simp] theorem setHeader_inMem (s : State) (hd : Header) : (setHeader hd s).inMem = s.inMem := rfl
@[simp] theorem setHeader_outMem (s : State) (hd : Header) : (setHeader hd s).outMem = s.outMem := rfl
@[simp] theorem setHeader_pixMem (s : State) (hd : Header) : (setHeader hd s).pixMem = s.pixMem := rfl
@[simp] theorem setHeader_agenda (s : State) (hd : Header) : (setHeader hd s).agenda = s.agenda := rfl
@[simp] theorem setHeader_readData (s : State) (hd : Header) : (setHeader hd s).readData = s.readData := rfl
@[simp] theorem setHeader_freeCtr (s : State) (hd : Header) : (setHeader hd s).freeCtr = s.freeCtr := rfl

/-! ## setNpixFromHeader -/

@[simp] theorem setNpixFromHeader_cfg (s : State) : (setNpixFromHeader s).cfg = s.cfg := rfl
@[simp] theorem setNpixFromHeader_ie (s : State) : (setNpixFromHeader s).ie = s.ie := rfl
@[simp] theorem setNpixFromHeader_status (s : State) : (setNpixFromHeader s).status = s.status := rfl
@[simp] theorem setNpixFromHeader_regs (s : State) :
    (setNpixFromHeader s).regs = { s.regs with
      npix := BitVec.ofNat 32 (s.regs.width.toNat * s.regs.height.toNat) } := rfl
@[simp] theorem setNpixFromHeader_snapshot (s : State) : (setNpixFromHeader s).snapshot = s.snapshot := rfl
@[simp] theorem setNpixFromHeader_inMem (s : State) : (setNpixFromHeader s).inMem = s.inMem := rfl
@[simp] theorem setNpixFromHeader_outMem (s : State) : (setNpixFromHeader s).outMem = s.outMem := rfl
@[simp] theorem setNpixFromHeader_pixMem (s : State) : (setNpixFromHeader s).pixMem = s.pixMem := rfl
@[simp] theorem setNpixFromHeader_agenda (s : State) : (setNpixFromHeader s).agenda = s.agenda := rfl
@[simp] theorem setNpixFromHeader_readData (s : State) : (setNpixFromHeader s).readData = s.readData := rfl
@[simp] theorem setNpixFromHeader_freeCtr (s : State) : (setNpixFromHeader s).freeCtr = s.freeCtr := rfl

/-! ## putReadData -/

@[simp] theorem putReadData_cfg (s : State) (v : Word) : (putReadData v s).cfg = s.cfg := rfl
@[simp] theorem putReadData_ie (s : State) (v : Word) : (putReadData v s).ie = s.ie := rfl
@[simp] theorem putReadData_status (s : State) (v : Word) : (putReadData v s).status = s.status := rfl
@[simp] theorem putReadData_regs (s : State) (v : Word) : (putReadData v s).regs = s.regs := rfl
@[simp] theorem putReadData_snapshot (s : State) (v : Word) : (putReadData v s).snapshot = s.snapshot := rfl
@[simp] theorem putReadData_inMem (s : State) (v : Word) : (putReadData v s).inMem = s.inMem := rfl
@[simp] theorem putReadData_outMem (s : State) (v : Word) : (putReadData v s).outMem = s.outMem := rfl
@[simp] theorem putReadData_pixMem (s : State) (v : Word) : (putReadData v s).pixMem = s.pixMem := rfl
@[simp] theorem putReadData_agenda (s : State) (v : Word) : (putReadData v s).agenda = s.agenda := rfl
@[simp] theorem putReadData_readData (s : State) (v : Word) : (putReadData v s).readData = some v := rfl
@[simp] theorem putReadData_freeCtr (s : State) (v : Word) : (putReadData v s).freeCtr = s.freeCtr := rfl

/-! ## writeStatus -/

@[simp] theorem writeStatus_cfg (s : State) (v : Word) : (writeStatus v s).cfg = s.cfg := rfl
@[simp] theorem writeStatus_ie (s : State) (v : Word) : (writeStatus v s).ie = s.ie := rfl
@[simp] theorem writeStatus_status (s : State) (v : Word) : (writeStatus v s).status = s.status.w1c v := rfl
@[simp] theorem writeStatus_regs (s : State) (v : Word) : (writeStatus v s).regs = s.regs := rfl
@[simp] theorem writeStatus_snapshot (s : State) (v : Word) : (writeStatus v s).snapshot = s.snapshot := rfl
@[simp] theorem writeStatus_inMem (s : State) (v : Word) : (writeStatus v s).inMem = s.inMem := rfl
@[simp] theorem writeStatus_outMem (s : State) (v : Word) : (writeStatus v s).outMem = s.outMem := rfl
@[simp] theorem writeStatus_pixMem (s : State) (v : Word) : (writeStatus v s).pixMem = s.pixMem := rfl
@[simp] theorem writeStatus_agenda (s : State) (v : Word) : (writeStatus v s).agenda = s.agenda := rfl
@[simp] theorem writeStatus_readData (s : State) (v : Word) : (writeStatus v s).readData = s.readData := rfl
@[simp] theorem writeStatus_freeCtr (s : State) (v : Word) : (writeStatus v s).freeCtr = s.freeCtr := rfl

/-! ## Memory reads under an update of something else -/

@[simp] theorem putOutWord_inByte (s : State) (a : Nat) (w : Word) (k : Nat) : (s.putOutWord a w).inByte k = s.inByte k := rfl
@[simp] theorem putOutWord_pixel (s : State) (a : Nat) (w : Word) (k : Nat) : (s.putOutWord a w).pixel k = s.pixel k := rfl
@[simp] theorem putOutWord_inWord (s : State) (a : Nat) (w : Word) (k : Nat) : (s.putOutWord a w).inWord k = s.inWord k := rfl

@[simp] theorem putPixel_inByte (s : State) (i : Nat) (p : Pixel) (k : Nat) : (s.putPixel i p).inByte k = s.inByte k := rfl
@[simp] theorem putPixel_outByte (s : State) (i : Nat) (p : Pixel) (k : Nat) : (s.putPixel i p).outByte k = s.outByte k := rfl
@[simp] theorem putPixel_inWord (s : State) (i : Nat) (p : Pixel) (k : Nat) : (s.putPixel i p).inWord k = s.inWord k := rfl

@[simp] theorem loadWord_inByte (s : State) (k : Nat) : (loadWord s).inByte k = s.inByte k := rfl
@[simp] theorem loadWord_outByte (s : State) (k : Nat) : (loadWord s).outByte k = s.outByte k := rfl
@[simp] theorem loadWord_pixel (s : State) (k : Nat) : (loadWord s).pixel k = s.pixel k := rfl
@[simp] theorem loadWord_inWord (s : State) (k : Nat) : (loadWord s).inWord k = s.inWord k := rfl

@[simp] theorem takeNibble_inByte (s : State) (k : Nat) : (takeNibble s).2.inByte k = s.inByte k := rfl
@[simp] theorem takeNibble_outByte (s : State) (k : Nat) : (takeNibble s).2.outByte k = s.outByte k := rfl
@[simp] theorem takeNibble_pixel (s : State) (k : Nat) : (takeNibble s).2.pixel k = s.pixel k := rfl
@[simp] theorem takeNibble_inWord (s : State) (k : Nat) : (takeNibble s).2.inWord k = s.inWord k := rfl

@[simp] theorem acceptCommand_inByte (s : State) (c : Word) (k : Nat) : (acceptCommand c s).inByte k = s.inByte k := rfl
@[simp] theorem acceptCommand_outByte (s : State) (c : Word) (k : Nat) : (acceptCommand c s).outByte k = s.outByte k := rfl
@[simp] theorem acceptCommand_pixel (s : State) (c : Word) (k : Nat) : (acceptCommand c s).pixel k = s.pixel k := rfl
@[simp] theorem acceptCommand_inWord (s : State) (c : Word) (k : Nat) : (acceptCommand c s).inWord k = s.inWord k := rfl

@[simp] theorem completeCommand_inByte (s : State) (k : Nat) : (completeCommand s).inByte k = s.inByte k := rfl
@[simp] theorem completeCommand_outByte (s : State) (k : Nat) : (completeCommand s).outByte k = s.outByte k := rfl
@[simp] theorem completeCommand_pixel (s : State) (k : Nat) : (completeCommand s).pixel k = s.pixel k := rfl
@[simp] theorem completeCommand_inWord (s : State) (k : Nat) : (completeCommand s).inWord k = s.inWord k := rfl

@[simp] theorem clearFrameValid_inByte (s : State) (k : Nat) : (clearFrameValid s).inByte k = s.inByte k := rfl
@[simp] theorem clearFrameValid_outByte (s : State) (k : Nat) : (clearFrameValid s).outByte k = s.outByte k := rfl
@[simp] theorem clearFrameValid_pixel (s : State) (k : Nat) : (clearFrameValid s).pixel k = s.pixel k := rfl
@[simp] theorem clearFrameValid_inWord (s : State) (k : Nat) : (clearFrameValid s).inWord k = s.inWord k := rfl

@[simp] theorem setFrameValid_inByte (s : State) (k : Nat) : (setFrameValid s).inByte k = s.inByte k := rfl
@[simp] theorem setFrameValid_outByte (s : State) (k : Nat) : (setFrameValid s).outByte k = s.outByte k := rfl
@[simp] theorem setFrameValid_pixel (s : State) (k : Nat) : (setFrameValid s).pixel k = s.pixel k := rfl
@[simp] theorem setFrameValid_inWord (s : State) (k : Nat) : (setFrameValid s).inWord k = s.inWord k := rfl

@[simp] theorem resetRegisters_inByte (s : State) (ie : Bool) (k : Nat) : (resetRegisters ie s).inByte k = s.inByte k := rfl
@[simp] theorem resetRegisters_outByte (s : State) (ie : Bool) (k : Nat) : (resetRegisters ie s).outByte k = s.outByte k := rfl
@[simp] theorem resetRegisters_pixel (s : State) (ie : Bool) (k : Nat) : (resetRegisters ie s).pixel k = s.pixel k := rfl
@[simp] theorem resetRegisters_inWord (s : State) (ie : Bool) (k : Nat) : (resetRegisters ie s).inWord k = s.inWord k := rfl

@[simp] theorem setVal_inByte (s : State) (v : Word) (k : Nat) : (setVal v s).inByte k = s.inByte k := rfl
@[simp] theorem setVal_outByte (s : State) (v : Word) (k : Nat) : (setVal v s).outByte k = s.outByte k := rfl
@[simp] theorem setVal_pixel (s : State) (v : Word) (k : Nat) : (setVal v s).pixel k = s.pixel k := rfl
@[simp] theorem setVal_inWord (s : State) (v : Word) (k : Nat) : (setVal v s).inWord k = s.inWord k := rfl

@[simp] theorem addPixcnt_inByte (s : State) (n : Word) (k : Nat) : (addPixcnt n s).inByte k = s.inByte k := rfl
@[simp] theorem addPixcnt_outByte (s : State) (n : Word) (k : Nat) : (addPixcnt n s).outByte k = s.outByte k := rfl
@[simp] theorem addPixcnt_pixel (s : State) (n : Word) (k : Nat) : (addPixcnt n s).pixel k = s.pixel k := rfl
@[simp] theorem addPixcnt_inWord (s : State) (n : Word) (k : Nat) : (addPixcnt n s).inWord k = s.inWord k := rfl

@[simp] theorem emitPixel_inByte (s : State) (p : Pixel) (k : Nat) : (emitPixel p s).inByte k = s.inByte k := rfl
@[simp] theorem emitPixel_outByte (s : State) (p : Pixel) (k : Nat) : (emitPixel p s).outByte k = s.outByte k := rfl
@[simp] theorem emitPixel_inWord (s : State) (p : Pixel) (k : Nat) : (emitPixel p s).inWord k = s.inWord k := rfl

@[simp] theorem startBody_inByte (s : State) (k : Nat) : (startBody s).inByte k = s.inByte k := rfl
@[simp] theorem startBody_outByte (s : State) (k : Nat) : (startBody s).outByte k = s.outByte k := rfl
@[simp] theorem startBody_pixel (s : State) (k : Nat) : (startBody s).pixel k = s.pixel k := rfl
@[simp] theorem startBody_inWord (s : State) (k : Nat) : (startBody s).inWord k = s.inWord k := rfl

@[simp] theorem setHeader_inByte (s : State) (hd : Header) (k : Nat) : (setHeader hd s).inByte k = s.inByte k := rfl
@[simp] theorem setHeader_outByte (s : State) (hd : Header) (k : Nat) : (setHeader hd s).outByte k = s.outByte k := rfl
@[simp] theorem setHeader_pixel (s : State) (hd : Header) (k : Nat) : (setHeader hd s).pixel k = s.pixel k := rfl
@[simp] theorem setHeader_inWord (s : State) (hd : Header) (k : Nat) : (setHeader hd s).inWord k = s.inWord k := rfl

@[simp] theorem setNpixFromHeader_inByte (s : State) (k : Nat) : (setNpixFromHeader s).inByte k = s.inByte k := rfl
@[simp] theorem setNpixFromHeader_outByte (s : State) (k : Nat) : (setNpixFromHeader s).outByte k = s.outByte k := rfl
@[simp] theorem setNpixFromHeader_pixel (s : State) (k : Nat) : (setNpixFromHeader s).pixel k = s.pixel k := rfl
@[simp] theorem setNpixFromHeader_inWord (s : State) (k : Nat) : (setNpixFromHeader s).inWord k = s.inWord k := rfl

@[simp] theorem putReadData_inByte (s : State) (v : Word) (k : Nat) : (putReadData v s).inByte k = s.inByte k := rfl
@[simp] theorem putReadData_outByte (s : State) (v : Word) (k : Nat) : (putReadData v s).outByte k = s.outByte k := rfl
@[simp] theorem putReadData_pixel (s : State) (v : Word) (k : Nat) : (putReadData v s).pixel k = s.pixel k := rfl
@[simp] theorem putReadData_inWord (s : State) (v : Word) (k : Nat) : (putReadData v s).inWord k = s.inWord k := rfl

@[simp] theorem writeStatus_inByte (s : State) (v : Word) (k : Nat) : (writeStatus v s).inByte k = s.inByte k := rfl
@[simp] theorem writeStatus_outByte (s : State) (v : Word) (k : Nat) : (writeStatus v s).outByte k = s.outByte k := rfl
@[simp] theorem writeStatus_pixel (s : State) (v : Word) (k : Nat) : (writeStatus v s).pixel k = s.pixel k := rfl
@[simp] theorem writeStatus_inWord (s : State) (v : Word) (k : Nat) : (writeStatus v s).inWord k = s.inWord k := rfl

/-! ## STATUS -/

@[simp] theorem completed_busy (t : Status) : t.completed.busy = false := rfl
@[simp] theorem completed_done (t : Status) : t.completed.done = true := rfl
@[simp] theorem completed_err (t : Status) : t.completed.err = t.err := rfl
@[simp] theorem completed_frameValid (t : Status) : t.completed.frameValid = t.frameValid := rfl
@[simp] theorem completed_drop (t : Status) : t.completed.drop = t.drop := rfl
@[simp] theorem completed_errcode (t : Status) : t.completed.errcode = t.errcode := rfl
@[simp] theorem failed_busy (e : CmdError) (t : Status) : (t.failed e).busy = false := rfl
@[simp] theorem failed_done (e : CmdError) (t : Status) : (t.failed e).done = true := rfl
@[simp] theorem failed_err (e : CmdError) (t : Status) : (t.failed e).err = true := rfl
@[simp] theorem failed_frameValid (e : CmdError) (t : Status) : (t.failed e).frameValid = t.frameValid := rfl
@[simp] theorem failed_drop (e : CmdError) (t : Status) : (t.failed e).drop = t.drop := rfl
@[simp] theorem failed_errcode (e : CmdError) (t : Status) : (t.failed e).errcode = e.code := rfl
@[simp] theorem accepted_busy (b : Bool) (t : Status) : (t.accepted b).busy = true := rfl
@[simp] theorem accepted_done (b : Bool) (t : Status) : (t.accepted b).done = false := rfl
@[simp] theorem accepted_err (b : Bool) (t : Status) : (t.accepted b).err = false := rfl
@[simp] theorem accepted_frameValid (b : Bool) (t : Status) : (t.accepted b).frameValid = (t.frameValid && !b) := rfl
@[simp] theorem accepted_drop (b : Bool) (t : Status) : (t.accepted b).drop = t.drop := rfl
@[simp] theorem accepted_errcode (b : Bool) (t : Status) : (t.accepted b).errcode = 0 := rfl
@[simp] theorem w1c_busy (v : Word) (t : Status) : (t.w1c v).busy = t.busy := rfl
@[simp] theorem w1c_err (v : Word) (t : Status) : (t.w1c v).err = t.err := rfl
@[simp] theorem w1c_frameValid (v : Word) (t : Status) : (t.w1c v).frameValid = t.frameValid := rfl
@[simp] theorem w1c_errcode (v : Word) (t : Status) : (t.w1c v).errcode = t.errcode := rfl
@[simp] theorem w1c_done (v : Word) (t : Status) : (t.w1c v).done = (t.done && !v.getLsbD 1) := rfl
@[simp] theorem w1c_drop (v : Word) (t : Status) : (t.w1c v).drop = (t.drop && !v.getLsbD 4) := rfl

end Sys2Proof.Machine
end

