-- ==== Sys2Proof/Laws/Memory.lean ====
section
/-! SUPPORT. Every memory operation: what it reads as afterwards, and that it keeps the canonical form. -/

namespace Sys2Proof.Machine

variable {α : Type}

/-! ## Reading after writing -/

@[simp] theorem lookup_nil (a : Nat) : Memory.lookup ([] : Memory α) a = none := rfl

theorem lookup_insert (m : Memory α) (a : Nat) (x : α) (b : Nat) :
    (m.insert a x).lookup b = if b = a then some x else m.lookup b := by
  induction m with
  | nil => simp [Memory.insert, Memory.lookup]
  | cons c m ih =>
    obtain ⟨k, y⟩ := c
    simp only [Memory.insert]
    split
    · simp [Memory.lookup]
    · split
      · subst_vars; simp only [Memory.lookup]; split <;> simp_all
      · simp only [Memory.lookup, ih]
        by_cases hb : b = k <;> by_cases ha : b = a <;> simp_all

theorem lookup_append (l₁ l₂ : Memory α) (b : Nat) :
    Memory.lookup (l₁ ++ l₂) b = (Memory.lookup l₁ b).or (Memory.lookup l₂ b) := by
  induction l₁ with
  | nil => simp
  | cons c m ih => obtain ⟨k, y⟩ := c; simp only [List.cons_append, Memory.lookup, ih]; split <;> simp

theorem lookup_filter (m : Memory α) (p : Nat → Bool) (b : Nat) :
    Memory.lookup (m.filter (fun c => p c.1)) b = if p b then m.lookup b else none := by
  induction m with
  | nil => simp
  | cons c m ih =>
    obtain ⟨k, y⟩ := c
    by_cases hk : p k <;> by_cases hb : b = k <;> simp_all [Memory.lookup]

theorem lookup_range (lo n : Nat) (f : Nat → α) (b : Nat) :
    Memory.lookup ((List.range' lo n).map (fun a => (a, f a))) b = if lo ≤ b ∧ b < lo + n then some (f b) else none := by
  induction n generalizing lo with
  | zero => simp
  | succ n ih =>
    simp only [List.range'_succ, List.map_cons, Memory.lookup, ih]
    by_cases hb : b = lo
    · subst hb; simp
    · by_cases h : lo + 1 ≤ b ∧ b < lo + 1 + n
      · rw [if_neg hb, if_pos h, if_pos (by omega)]
      · rw [if_neg hb, if_neg h, if_neg (by omega)]

theorem lookup_fill (m : Memory α) (lo n : Nat) (f : Nat → α) (b : Nat) :
    (m.fill lo n f).lookup b = if lo ≤ b ∧ b < lo + n then some (f b) else m.lookup b := by
  simp only [Memory.fill, lookup_append, lookup_range, lookup_filter m (fun c => decide (c < lo)),
    lookup_filter m (fun c => decide (lo + n ≤ c)), decide_eq_true_eq]
  by_cases h₁ : b < lo
  · rw [if_pos h₁, if_neg (by omega), if_neg (by omega), if_neg (by omega)]; simp
  · by_cases h₂ : lo + n ≤ b
    · rw [if_neg h₁, if_neg (by omega), if_pos h₂, if_neg (by omega)]; simp
    · have h₃ : lo ≤ b ∧ b < lo + n := by omega
      simp [h₁, h₂, h₃]

/-! ## The canonical form -/

theorem wf_iff_pairwise (m : Memory α) : m.wf = true ↔ m.Pairwise (fun x y => x.1 < y.1) := by
  induction m with
  | nil => simp [Memory.wf]
  | cons c m ih =>
    obtain ⟨k, y⟩ := c
    cases m with
    | nil => simp [Memory.wf]
    | cons d m =>
      obtain ⟨l, z⟩ := d
      simp only [Memory.wf, Bool.and_eq_true, decide_eq_true_eq, ih, List.pairwise_cons]
      constructor
      · rintro ⟨h, h', h''⟩
        refine ⟨?_, h', h''⟩
        intro e he
        rcases List.mem_cons.1 he with rfl | he
        · exact h
        · exact lt_trans h (h' e he)
      · rintro ⟨h, h', h''⟩
        exact ⟨h _ List.mem_cons_self, h', h''⟩

theorem within_iff (m : Memory α) (n : Nat) : m.within n = true ↔ ∀ c ∈ m, c.1 < n := by
  simp [Memory.within]

theorem mem_insert (m : Memory α) (a : Nat) (x : α) (c : Nat × α) :
    c ∈ m.insert a x → c = (a, x) ∨ c ∈ m := by
  induction m with
  | nil => simp [Memory.insert]
  | cons d m ih =>
    obtain ⟨k, y⟩ := d
    simp only [Memory.insert]
    split
    · simp
    · split
      · intro h; rcases List.mem_cons.1 h with h | h
        · exact .inl h
        · exact .inr (List.mem_cons_of_mem _ h)
      · intro h; rcases List.mem_cons.1 h with h | h
        · exact .inr (h ▸ List.mem_cons_self)
        · rcases ih h with h | h
          · exact .inl h
          · exact .inr (List.mem_cons_of_mem _ h)

theorem wf_insert (m : Memory α) (a : Nat) (x : α) (h : m.wf = true) : (m.insert a x).wf = true := by
  rw [wf_iff_pairwise] at h ⊢
  induction m with
  | nil => simp [Memory.insert]
  | cons d m ih =>
    obtain ⟨k, y⟩ := d
    obtain ⟨h₁, h₂⟩ := List.pairwise_cons.1 h
    simp only [Memory.insert]
    split
    · rename_i hak
      refine List.pairwise_cons.2 ⟨?_, h⟩
      intro c hc
      rcases List.mem_cons.1 hc with rfl | hc
      · exact hak
      · exact lt_trans hak (h₁ c hc)
    · split
      · rename_i hak; subst hak; exact List.pairwise_cons.2 ⟨h₁, h₂⟩
      · rename_i h₃ h₄
        refine List.pairwise_cons.2 ⟨?_, ih h₂⟩
        intro c hc
        rcases mem_insert m a x c hc with rfl | hc
        · show k < a; omega
        · exact h₁ c hc

theorem within_insert (m : Memory α) (a n : Nat) (x : α) (ha : a < n) (h : m.within n = true) :
    (m.insert a x).within n = true := by
  rw [within_iff] at h ⊢
  intro c hc
  rcases mem_insert m a x c hc with rfl | hc
  · exact ha
  · exact h c hc

theorem wf_fill (m : Memory α) (lo n : Nat) (f : Nat → α) (h : m.wf = true) : (m.fill lo n f).wf = true := by
  rw [wf_iff_pairwise] at h ⊢
  unfold Memory.fill
  rw [List.append_assoc]
  refine List.pairwise_append.2 ⟨h.filter _, List.pairwise_append.2 ⟨?_, h.filter _, ?_⟩, ?_⟩
  · rw [List.pairwise_map]
    exact List.pairwise_lt_range'
  · intro c hc d hd
    obtain ⟨a, ha, rfl⟩ := List.mem_map.1 hc
    have := List.mem_range'_1.1 ha
    have := (List.mem_filter.1 hd).2
    simp only [decide_eq_true_eq] at this
    simp only
    omega
  · intro c hc d hd
    have h₁ := (List.mem_filter.1 hc).2
    simp only [decide_eq_true_eq] at h₁
    rcases List.mem_append.1 hd with hd | hd
    · obtain ⟨a, ha, rfl⟩ := List.mem_map.1 hd
      have := List.mem_range'_1.1 ha
      simp only
      omega
    · have h₂ := (List.mem_filter.1 hd).2
      simp only [decide_eq_true_eq] at h₂
      omega

theorem within_fill (m : Memory α) (lo n k : Nat) (f : Nat → α) (hk : lo + n ≤ k ∨ n = 0) (h : m.within k = true) :
    (m.fill lo n f).within k = true := by
  rw [within_iff] at h ⊢
  intro c hc
  rcases List.mem_append.1 hc with hc | hc
  · rcases List.mem_append.1 hc with hc | hc
    · exact h c (List.mem_filter.1 hc).1
    · obtain ⟨a, ha, rfl⟩ := List.mem_map.1 hc
      have := List.mem_range'_1.1 ha
      show a < k
      omega
  · exact h c (List.mem_filter.1 hc).1

/-! ## Multi-byte access (20_memory.md R61) -/

theorem lookup_memWrite (m : Memory Byte) (a n v b : Nat) :
    (memWrite m a n v).lookup b =
      if a ≤ b ∧ b < a + n then some (BitVec.ofNat 8 (v / 2 ^ (8 * (b - a)))) else m.lookup b := by
  induction n generalizing m a v with
  | zero => simp [memWrite]
  | succ n ih =>
    simp only [memWrite, ih, lookup_insert]
    by_cases h : b = a
    · subst h; simp
    · by_cases h' : a + 1 ≤ b ∧ b < a + 1 + n
      · rw [if_pos h', if_pos (by omega), Nat.div_div_eq_div_mul]
        congr 3
        rw [show 256 = 2 ^ 8 by rfl, ← pow_add]
        congr 1
        omega
      · rw [if_neg h', if_neg h, if_neg (by omega)]

theorem wf_memWrite (m : Memory Byte) (a n v : Nat) (h : m.wf = true) : (memWrite m a n v).wf = true := by
  induction n generalizing m a v with
  | zero => exact h
  | succ n ih => exact ih _ _ _ (wf_insert _ _ _ h)

theorem within_memWrite (m : Memory Byte) (a n v k : Nat) (hk : a + n ≤ k) (h : m.within k = true) :
    (memWrite m a n v).within k = true := by
  induction n generalizing m a v with
  | zero => exact h
  | succ n ih => exact ih _ _ _ (by omega) (within_insert _ _ _ _ (by omega) h)

theorem outByte_putOutWord (s : State) (a : Nat) (w : Word) (b : Nat) :
    (s.putOutWord a w).outByte b =
      if a ≤ b ∧ b < a + 4 then BitVec.ofNat 8 (w.toNat / 2 ^ (8 * (b - a))) else s.outByte b := by
  simp only [State.outByte, putOutWord_outMem, lookup_memWrite]
  split <;> simp

theorem pixel_putPixel (s : State) (i : Nat) (p : Pixel) (j : Nat) :
    (s.putPixel i p).pixel j = if j = i then p else s.pixel j := by
  simp only [State.pixel, putPixel_pixMem, lookup_insert]
  split <;> simp

theorem memRead_lt (byte : Nat → Byte) (a n : Nat) : memRead byte a n < 2 ^ (8 * n) := by
  induction n generalizing a with
  | zero => simp [memRead]
  | succ n ih =>
    have h₁ := ih (a + 1)
    have h₂ := (byte a).isLt
    simp only [memRead]
    rw [show 8 * (n + 1) = 8 * n + 8 by ring, pow_add]
    omega

theorem inWord_toNat (s : State) (a : Nat) :
    (s.inWord a).toNat = (s.inByte a).toNat + 256 * (s.inByte (a + 1)).toNat + 65536 * (s.inByte (a + 2)).toNat +
      16777216 * (s.inByte (a + 3)).toNat := by
  have h := memRead_lt s.inByte a 4
  rw [State.inWord, BitVec.toNat_ofNat, Nat.mod_eq_of_lt h]
  simp only [memRead]
  ring_nf

/-! ## Unspecified windows (60_exceptions.md R243) -/

@[simp] theorem havoc_cfg (s : State) (w : Window) : (s.havoc w).cfg = s.cfg := by cases w <;> rfl
@[simp] theorem havoc_ie (s : State) (w : Window) : (s.havoc w).ie = s.ie := by cases w <;> rfl
@[simp] theorem havoc_status (s : State) (w : Window) : (s.havoc w).status = s.status := by cases w <;> rfl
@[simp] theorem havoc_regs (s : State) (w : Window) : (s.havoc w).regs = s.regs := by cases w <;> rfl
@[simp] theorem havoc_snapshot (s : State) (w : Window) : (s.havoc w).snapshot = s.snapshot := by cases w <;> rfl
@[simp] theorem havoc_inMem (s : State) (w : Window) : (s.havoc w).inMem = s.inMem := by cases w <;> rfl
@[simp] theorem havoc_agenda (s : State) (w : Window) : (s.havoc w).agenda = s.agenda := by cases w <;> rfl
@[simp] theorem havoc_readData (s : State) (w : Window) : (s.havoc w).readData = s.readData := by cases w <;> rfl
@[simp] theorem havoc_none (s : State) : s.havoc .none = s := rfl

theorem havoc_outByte (s : State) (w : Window) (a : Nat) (h : ∀ lo n, w = .out lo n → a < lo ∨ lo + n ≤ a) :
    (s.havoc w).outByte a = s.outByte a := by
  cases w with
  | none => rfl
  | pix n => rfl
  | out lo n =>
    have := h lo n rfl
    simp only [State.havoc, State.outByte, lookup_fill]
    rw [if_neg (by omega)]

theorem havoc_pixel (s : State) (w : Window) (j : Nat) (h : ∀ n, w = .pix n → n ≤ j) :
    (s.havoc w).pixel j = s.pixel j := by
  cases w with
  | none => rfl
  | out lo n => rfl
  | pix n =>
    have := h n rfl
    simp only [State.havoc, State.pixel, lookup_fill]
    rw [if_neg (by omega)]

@[simp] theorem raiseError_cfg (e : CmdError) (w : Window) (s : State) : (raiseError e w s).cfg = s.cfg := by
  simp [raiseError]
@[simp] theorem raiseError_ie (e : CmdError) (w : Window) (s : State) : (raiseError e w s).ie = s.ie := by
  simp [raiseError]
@[simp] theorem raiseError_status (e : CmdError) (w : Window) (s : State) :
    (raiseError e w s).status = s.status.failed e := by simp [raiseError]
@[simp] theorem raiseError_regs (e : CmdError) (w : Window) (s : State) :
    (raiseError e w s).regs = s.snapshot.getD s.regs := by simp [raiseError]
@[simp] theorem raiseError_snapshot (e : CmdError) (w : Window) (s : State) :
    (raiseError e w s).snapshot = none := by simp [raiseError]
@[simp] theorem raiseError_inMem (e : CmdError) (w : Window) (s : State) : (raiseError e w s).inMem = s.inMem := by
  simp [raiseError]
@[simp] theorem raiseError_agenda (e : CmdError) (w : Window) (s : State) : (raiseError e w s).agenda = s.agenda := by
  simp [raiseError]
@[simp] theorem raiseError_readData (e : CmdError) (w : Window) (s : State) :
    (raiseError e w s).readData = s.readData := by simp [raiseError]

end Sys2Proof.Machine
end

