-- ==== Sys2Proof/Laws/Commands.lean ====
section
/-! SUPPORT. How a command ends, said once: every meaning is `finishCommand` of the command's pseudocode. -/

namespace Sys2Proof.Machine

open Sys2Proof

/-! ## Ending a command -/

/-- A command always answers a next state: completed without error, or rolled back. -/
theorem finishCommand_next (win : Window) (s : State) (r : Except CmdError State) :
    ∃ t, finishCommand win s r = .next t ∧
      ((∃ u, r = .ok u ∧ t = completeCommand u) ∨ ∃ e, r = .error e ∧ t = raiseError e win s) := by
  cases r with
  | ok u => exact ⟨_, rfl, .inl ⟨u, rfl, rfl⟩⟩
  | error e => exact ⟨_, rfl, .inr ⟨e, rfl, rfl⟩⟩

theorem finishCommand_eq_next (win : Window) (s t : State) (r : Except CmdError State)
    (h : finishCommand win s r = .next t) :
    (∃ u, r = .ok u ∧ t = completeCommand u) ∨ ∃ e, r = .error e ∧ t = raiseError e win s := by
  obtain ⟨t', h₁, h₂⟩ := finishCommand_next win s r
  rw [h₁] at h
  cases h
  exact h₂

/-! ## The pseudocode of each command -/

/-- Bodies of RDC.DEC and FRAME.DEC end with FRAME_VALID <- 1. -/
def markFrame (r : Except CmdError State) : Except CmdError State :=
  match r with
  | .ok t    => .ok (setFrameValid t)
  | .error e => .error e

/-- The state the pseudocode of `i` starts in. -/
def startOf (i : Instr) (s : State) : State :=
  match i with
  | .rdcDec | .frameDecBin | .frameDecText | .frameDecTextClip => clearFrameValid s
  | _ => s

/-- The pseudocode of `i` from the state `s`: its end state, or what it raises. -/
def bodyOf (i : Instr) (s : State) : Except CmdError State :=
  match i with
  | .nop => .ok s
  | .vleDec =>
    match vleDecode s with
    | .ok (v, t) => .ok (setVal v t)
    | .error e   => .error e
  | .vleEnc => vleEncode s.regs.val s
  | .vleFlush => flushWord s
  | .zzEnc => .ok (setVal ((zigzagEncode16 (s.regs.val.extractLsb' 0 16)).setWidth 32) s)
  | .zzDec => .ok (setVal (zigzagDecode32 s.regs.val) s)
  | .rdcDec => markFrame (rdcDecodeBody s)
  | .rdcEnc => rdcEncodeBody s
  | .fcParseBin => fcParseBody false false s
  | .fcParseText => fcParseBody true false s
  | .fcParseTextClip => fcParseBody true true s
  | .fcWrite => writeHeaderBody s
  | .frameDecBin => frameDecBody false false s
  | .frameDecText => frameDecBody true false s
  | .frameDecTextClip => frameDecBody true true s
  | .frameEnc => frameEncBody s

/-- Every command: its pseudocode, run from the state it starts in, and its end. -/
theorem exec_eq (i : Instr) (s : State) :
    exec i s = finishCommand (errorWindow i s) (startOf i s) (bodyOf i (startOf i s)) := by
  cases i <;> rfl

/-- All that `exec` can do. -/
theorem exec_cases (i : Instr) (s t : State) (h : exec i s = .next t) :
    (∃ u, bodyOf i (startOf i s) = .ok u ∧ t = completeCommand u) ∨
    ∃ e, bodyOf i (startOf i s) = .error e ∧ t = raiseError e (errorWindow i s) (startOf i s) := by
  rw [exec_eq] at h
  exact finishCommand_eq_next _ _ _ _ h

theorem startOf_eq (i : Instr) (s : State) : startOf i s = { s with status := (startOf i s).status } := by
  cases i <;> rfl

@[simp] theorem startOf_cfg (i : Instr) (s : State) : (startOf i s).cfg = s.cfg := by cases i <;> rfl
@[simp] theorem startOf_ie (i : Instr) (s : State) : (startOf i s).ie = s.ie := by cases i <;> rfl
@[simp] theorem startOf_regs (i : Instr) (s : State) : (startOf i s).regs = s.regs := by cases i <;> rfl
@[simp] theorem startOf_snapshot (i : Instr) (s : State) : (startOf i s).snapshot = s.snapshot := by cases i <;> rfl
@[simp] theorem startOf_inMem (i : Instr) (s : State) : (startOf i s).inMem = s.inMem := by cases i <;> rfl
@[simp] theorem startOf_outMem (i : Instr) (s : State) : (startOf i s).outMem = s.outMem := by cases i <;> rfl
@[simp] theorem startOf_pixMem (i : Instr) (s : State) : (startOf i s).pixMem = s.pixMem := by cases i <;> rfl
@[simp] theorem startOf_agenda (i : Instr) (s : State) : (startOf i s).agenda = s.agenda := by cases i <;> rfl
@[simp] theorem startOf_readData (i : Instr) (s : State) : (startOf i s).readData = s.readData := by cases i <;> rfl
@[simp] theorem startOf_freeCtr (i : Instr) (s : State) : (startOf i s).freeCtr = s.freeCtr := by cases i <;> rfl

theorem startOf_status (i : Instr) (s : State) : (startOf i s).status = { s.status with
    frameValid := s.status.frameValid &&
      !decide (i ∈ [Instr.rdcDec, .frameDecBin, .frameDecText, .frameDecTextClip]) } := by
  cases i <;> simp [startOf, clearFrameValid]

/-! ## Writing a header -/

theorem putOutWord_eq (s : State) (a : Nat) (w : Word) : ∃ m, s.putOutWord a w = { s with outMem := m } := ⟨_, rfl⟩

theorem putHeader_eq (s : State) : ∃ m, putHeader s = { s with outMem := m } := by
  unfold putHeader
  obtain ⟨m₁, h₁⟩ := putOutWord_eq s 0 0x0A4C5652
  rw [h₁]
  obtain ⟨m₂, h₂⟩ := putOutWord_eq { s with outMem := m₁ } 4 s.regs.width
  rw [h₂]
  obtain ⟨m₃, h₃⟩ := putOutWord_eq { s with outMem := m₂ } 8 s.regs.height
  rw [h₃]
  obtain ⟨m₄, h₄⟩ := putOutWord_eq { s with outMem := m₃ } 12 s.regs.near
  rw [h₄]
  exact putOutWord_eq { s with outMem := m₄ } 16 s.regs.far

/-- What `WriteHeaderBody` does when it raises nothing (42_frame.md R191). -/
theorem writeHeaderBody_ok (s t : State) (h : writeHeaderBody s = .ok t) :
    writeHeaderOk s = true ∧ 20 ≤ s.cfg.outCap ∧ ∃ m, putHeader s = { s with outMem := m } ∧
      t = { s with outMem := m, regs := { s.regs with wrPos := 20, wrNib := 0, wrAcc := 0 } } := by
  obtain ⟨m, hm⟩ := putHeader_eq s
  unfold writeHeaderBody at h
  rw [hm] at h
  split at h
  · cases h
  · rename_i h₁
    split at h
    · cases h
    · cases h
      exact ⟨by simpa using h₁, by omega, m, hm, rfl⟩

end Sys2Proof.Machine
end

