-- ==== Sys2Proof/Laws/ReadCursor.lean ====
section
/-! SUPPORT. The read cursor: GetNibble said once in the terms of `readStream` and `advanceRead` (20_memory.md R66). -/

namespace Sys2Proof.Machine

/-! ## Words and their nibbles -/

theorem wordNibbles_eq (w : Word) : wordNibbles w =
    [w.extractLsb' 28 4, w.extractLsb' 24 4, w.extractLsb' 20 4, w.extractLsb' 16 4,
     w.extractLsb' 12 4, w.extractLsb' 8 4, w.extractLsb' 4 4, w.extractLsb' 0 4] := rfl

@[simp] theorem wordNibbles_length (w : Word) : (wordNibbles w).length = 8 := rfl

theorem extract_shift4 (w : Word) (j : Nat) (h : j ≤ 24) : (w <<< 4).extractLsb' (j + 4) 4 = w.extractLsb' j 4 := by
  ext i hi
  simp only [BitVec.getElem_extractLsb', BitVec.getLsbD_shiftLeft]
  have h₁ : j + 4 + i < 32 := by omega
  have h₂ : ¬ j + 4 + i < 4 := by omega
  have h₃ : j + 4 + i - 4 = j + i := by omega
  simp [h₁, h₃]
  omega

/-- The unread nibbles of a word, one taken. -/
theorem wordNibbles_take_succ (w : Word) (k : Nat) (h : k ≤ 7) :
    (wordNibbles w).take (k + 1) = w.extractLsb' 28 4 :: (wordNibbles (w <<< 4)).take k := by
  have e : ∀ j, j ≤ 24 → (w <<< 4).extractLsb' (j + 4) 4 = w.extractLsb' j 4 := fun j hj => extract_shift4 w j hj
  rw [wordNibbles_eq, wordNibbles_eq, e 24 (by omega), e 20 (by omega), e 16 (by omega), e 12 (by omega),
    e 8 (by omega), e 4 (by omega), e 0 (by omega)]
  interval_cases k <;> rfl

theorem nib_toNat (x : BitVec 4) (h : x ≠ 0) : 1 ≤ x.toNat := by
  rcases Nat.eq_zero_or_pos x.toNat with h' | h'
  · exact absurd (BitVec.eq_of_toNat_eq (by simpa using h')) h
  · exact h'

/-! ## One nibble -/

theorem advanceRead_zero (s : State) : advanceRead 0 s = s := by simp [advanceRead]

theorem advanceRead_one_unread (s : State) (h : s.regs.rdNib ≠ 0) : advanceRead 1 s = (takeNibble s).2 := by
  have := nib_toNat _ h
  unfold advanceRead takeNibble
  simp only [if_pos this]
  congr 2
  apply BitVec.eq_of_toNat_eq
  have := s.regs.rdNib.isLt
  rw [BitVec.toNat_ofNat, BitVec.toNat_sub, show (1 : BitVec 4).toNat = 1 from rfl]
  omega

theorem advanceRead_one_load (s : State) (h : s.regs.rdNib = 0) : advanceRead 1 s = (takeNibble (loadWord s)).2 := by
  simp [advanceRead, takeNibble, loadWord, h]

/-- What `GetNibble` does, in one statement (20_memory.md R66): TruncatedStream when nothing is left, else the top nibble
of the loaded or newly loaded word, and the cursor one further. -/
theorem getNibble_spec (s : State) : getNibble s =
    if s.regs.rdNib = 0 ∧ s.regs.inLen.toNat < s.regs.rdPos.toNat + 4 then .error .truncatedStream
    else .ok ((if s.regs.rdNib = 0 then s.inWord s.regs.rdPos.toNat else s.regs.rdAcc).extractLsb' 28 4,
      advanceRead 1 s) := by
  unfold getNibble
  by_cases h : s.regs.rdNib = 0
  · by_cases h' : s.regs.inLen.toNat < s.regs.rdPos.toNat + 4
    · simp [h, h']
    · have : ¬ s.regs.rdPos.toNat + 4 > s.regs.inLen.toNat := by omega
      rw [if_pos h, if_neg this, if_neg (by tauto), if_pos h, advanceRead_one_load s h]
      rfl
  · rw [if_neg h, if_neg (by tauto), if_neg h, advanceRead_one_unread s h]
    rfl

theorem readStream_empty (s : State) (h : s.regs.rdNib = 0) :
    readStream s = (List.range (wordsLeft s.regs)).flatMap fun q =>
      wordNibbles (s.inWord (s.regs.rdPos.toNat + 4 * q)) := by
  simp [readStream, unreadNibbles, h]

/-- The read stream is empty exactly where `GetNibble` raises TruncatedStream. -/
theorem readStream_eq_nil (s : State) :
    readStream s = [] ↔ s.regs.rdNib = 0 ∧ s.regs.inLen.toNat < s.regs.rdPos.toNat + 4 := by
  by_cases h : s.regs.rdNib = 0
  · rw [readStream_empty s h]
    constructor
    · intro hs
      refine ⟨h, ?_⟩
      by_contra hc
      have hw : 0 < wordsLeft s.regs := by unfold wordsLeft; omega
      rw [List.flatMap_eq_nil_iff] at hs
      have := hs 0 (List.mem_range.2 hw)
      simp [wordNibbles_eq] at this
    · rintro ⟨_, h'⟩
      have hw : wordsLeft s.regs = 0 := by unfold wordsLeft; omega
      simp [hw]
  · have := nib_toNat _ h
    constructor
    · intro hs
      have hl := congrArg List.length hs
      simp [readStream, unreadNibbles] at hl
      omega
    · rintro ⟨h', _⟩; exact absurd h' h

theorem readStream_take (s : State) (hc : ReadCursorOk s.regs) (h : s.regs.rdNib ≠ 0) :
    readStream s = s.regs.rdAcc.extractLsb' 28 4 :: readStream (takeNibble s).2 := by
  have h1 := nib_toNat _ h
  have h8 := hc.1
  have hn : ((takeNibble s).2.regs.rdNib).toNat = s.regs.rdNib.toNat - 1 := by
    have := s.regs.rdNib.isLt
    rw [takeNibble_regs]
    show (s.regs.rdNib - 1).toNat = _
    rw [BitVec.toNat_sub, show (1 : BitVec 4).toNat = 1 from rfl]
    omega
  have hw : wordsLeft (takeNibble s).2.regs = wordsLeft s.regs := rfl
  unfold readStream unreadNibbles
  rw [hn, hw, show s.regs.rdNib.toNat = s.regs.rdNib.toNat - 1 + 1 by omega,
    wordNibbles_take_succ _ _ (by omega), Nat.add_sub_cancel]
  rfl

theorem readStream_load (s : State) (h : s.regs.rdNib = 0) (hp : s.regs.rdPos.toNat + 4 ≤ s.regs.inLen.toNat) :
    readStream s = readStream (loadWord s) := by
  have hlt := s.regs.inLen.isLt
  have hpos : (s.regs.rdPos + 4).toNat = s.regs.rdPos.toNat + 4 := by
    rw [BitVec.toNat_add, show (4 : Word).toNat = 4 from rfl]
    omega
  have hw : wordsLeft s.regs = wordsLeft (loadWord s).regs + 1 := by
    simp only [wordsLeft, loadWord_regs, hpos]
    omega
  have hu : unreadNibbles (loadWord s).regs = wordNibbles (s.inWord s.regs.rdPos.toNat) := rfl
  have hm : ∀ q, wordNibbles (s.inWord (s.regs.rdPos.toNat + 4 * q.succ)) =
      wordNibbles ((loadWord s).inWord ((loadWord s).regs.rdPos.toNat + 4 * q)) := by
    intro q
    rw [show (loadWord s).regs.rdPos = s.regs.rdPos + 4 from rfl, hpos,
      show s.regs.rdPos.toNat + 4 * q.succ = s.regs.rdPos.toNat + 4 + 4 * q by omega]
    rfl
  rw [readStream_empty s h, hw, List.range_succ_eq_map, List.flatMap_cons, List.flatMap_map]
  unfold readStream
  rw [hu]
  simp only [hm, Nat.mul_zero, Nat.add_zero]

theorem shift4_cursor (w : Word) (k : Nat) (h1 : 1 ≤ k) (h8 : k ≤ 8) (h : w.toNat % 2 ^ (32 - 4 * k) = 0) :
    (w <<< 4).toNat % 2 ^ (32 - 4 * (k - 1)) = 0 := by
  rw [BitVec.toNat_shiftLeft, Nat.shiftLeft_eq]
  obtain ⟨c, hc⟩ := Nat.dvd_of_mod_eq_zero h
  apply Nat.mod_eq_zero_of_dvd
  have hd : 2 ^ (32 - 4 * (k - 1)) ∣ 2 ^ 32 := pow_dvd_pow 2 (by omega)
  rw [Nat.dvd_mod_iff hd, hc]
  exact ⟨c, by rw [show 32 - 4 * (k - 1) = 32 - 4 * k + 4 by omega, pow_add]; ring⟩

theorem takeNibble_cursorOk (s : State) (hc : ReadCursorOk s.regs) (h : s.regs.rdNib ≠ 0) :
    ReadCursorOk (takeNibble s).2.regs := by
  have h1 := nib_toNat _ h
  have hn : (s.regs.rdNib - 1).toNat = s.regs.rdNib.toNat - 1 := by
    have := s.regs.rdNib.isLt
    rw [BitVec.toNat_sub, show (1 : BitVec 4).toNat = 1 from rfl]
    omega
  refine ⟨?_, ?_⟩
  · show (s.regs.rdNib - 1).toNat ≤ 8
    have := hc.1
    omega
  · show (s.regs.rdAcc <<< 4).toNat % 2 ^ (32 - 4 * (s.regs.rdNib - 1).toNat) = 0
    rw [hn]
    exact shift4_cursor _ _ h1 hc.1 hc.2

theorem loadWord_cursorOk (s : State) : ReadCursorOk (loadWord s).regs := by
  refine ⟨Nat.le_refl 8, ?_⟩
  show _ % 2 ^ (32 - 4 * 8) = 0
  simp [Nat.mod_one]

/-- The head of a nonempty read stream is the nibble `GetNibble` returns; the rest is the read stream after it. -/
theorem getNibble_cons (s : State) (n : Nibble) (rest : List Nibble) (hc : ReadCursorOk s.regs)
    (h : readStream s = n :: rest) :
    getNibble s = .ok (n, advanceRead 1 s) ∧ readStream (advanceRead 1 s) = rest ∧
      ReadCursorOk (advanceRead 1 s).regs := by
  have hne : readStream s ≠ [] := by simp [h]
  rw [Ne, readStream_eq_nil] at hne
  by_cases h0 : s.regs.rdNib = 0
  · have hp : s.regs.rdPos.toNat + 4 ≤ s.regs.inLen.toNat := by
      by_contra hx; exact hne ⟨h0, by omega⟩
    have h8 : (loadWord s).regs.rdNib ≠ 0 := by simp
    have ht := readStream_take (loadWord s) (loadWord_cursorOk s) h8
    rw [← readStream_load s h0 hp, h] at ht
    obtain ⟨ht₁, ht₂⟩ := List.cons.inj ht
    rw [advanceRead_one_load s h0]
    refine ⟨?_, ht₂.symm, takeNibble_cursorOk _ (loadWord_cursorOk s) h8⟩
    rw [getNibble_spec, if_neg hne, if_pos h0, advanceRead_one_load s h0, ht₁]
    rfl
  · have ht := readStream_take s hc h0
    rw [h] at ht
    obtain ⟨ht₁, ht₂⟩ := List.cons.inj ht
    rw [advanceRead_one_unread s h0]
    refine ⟨?_, ht₂.symm, takeNibble_cursorOk _ hc h0⟩
    rw [getNibble_spec, if_neg hne, if_neg h0, advanceRead_one_unread s h0, ht₁]

theorem getNibble_nil (s : State) (h : readStream s = []) : getNibble s = .error .truncatedStream := by
  rw [getNibble_spec, if_pos ((readStream_eq_nil s).1 h)]

/-! ## Several nibbles -/

@[simp] theorem advanceRead_cfg (k : Nat) (s : State) : (advanceRead k s).cfg = s.cfg := by
  unfold advanceRead; dsimp only; split <;> rfl
@[simp] theorem advanceRead_ie (k : Nat) (s : State) : (advanceRead k s).ie = s.ie := by
  unfold advanceRead; dsimp only; split <;> rfl
@[simp] theorem advanceRead_status (k : Nat) (s : State) : (advanceRead k s).status = s.status := by
  unfold advanceRead; dsimp only; split <;> rfl
@[simp] theorem advanceRead_snapshot (k : Nat) (s : State) : (advanceRead k s).snapshot = s.snapshot := by
  unfold advanceRead; dsimp only; split <;> rfl
@[simp] theorem advanceRead_inMem (k : Nat) (s : State) : (advanceRead k s).inMem = s.inMem := by
  unfold advanceRead; dsimp only; split <;> rfl
@[simp] theorem advanceRead_outMem (k : Nat) (s : State) : (advanceRead k s).outMem = s.outMem := by
  unfold advanceRead; dsimp only; split <;> rfl
@[simp] theorem advanceRead_pixMem (k : Nat) (s : State) : (advanceRead k s).pixMem = s.pixMem := by
  unfold advanceRead; dsimp only; split <;> rfl
@[simp] theorem advanceRead_agenda (k : Nat) (s : State) : (advanceRead k s).agenda = s.agenda := by
  unfold advanceRead; dsimp only; split <;> rfl
@[simp] theorem advanceRead_readData (k : Nat) (s : State) : (advanceRead k s).readData = s.readData := by
  unfold advanceRead; dsimp only; split <;> rfl
@[simp] theorem advanceRead_freeCtr (k : Nat) (s : State) : (advanceRead k s).freeCtr = s.freeCtr := by
  unfold advanceRead; dsimp only; split <;> rfl

/-- Only the read cursor moves. -/
theorem advanceRead_regs (k : Nat) (s : State) : (advanceRead k s).regs =
    { s.regs with
      rdPos := (advanceRead k s).regs.rdPos
      rdAcc := (advanceRead k s).regs.rdAcc
      rdNib := (advanceRead k s).regs.rdNib } := by
  unfold advanceRead; dsimp only; split <;> rfl

theorem shiftLeft_shiftLeft (w : Word) (a b : Nat) : (w <<< a) <<< b = w <<< (a + b) := (BitVec.shiftLeft_add w a b).symm

/-- One nibble and then `k` more. -/
theorem advanceRead_succ (k : Nat) (s : State) (h : s.regs.rdNib = 0 → s.regs.rdPos.toNat + 4 < 2 ^ 32) :
    advanceRead (k + 1) s = advanceRead k (advanceRead 1 s) := by
  by_cases h0 : s.regs.rdNib = 0
  · have hpos : (s.regs.rdPos + 4).toNat = s.regs.rdPos.toNat + 4 := by
      have := h h0
      rw [BitVec.toNat_add, show (4 : Word).toNat = 4 from rfl]
      omega
    have hz : s.regs.rdNib.toNat = 0 := by simp [h0]
    have h7 : ((8 : BitVec 4) - 1).toNat = 7 := rfl
    rw [advanceRead_one_load s h0]
    unfold advanceRead
    dsimp only
    simp only [takeNibble_regs, loadWord_regs, h7, hz]
    rw [if_neg (by omega)]
    split
    · rename_i hk
      have hl : (k + 1 - 0 + 7) / 8 = 1 := by omega
      simp only [hl]
      simp only [takeNibble, loadWord]
      congr 2
      · simp only [Nat.mul_one, Nat.sub_self, Nat.mul_zero, Nat.add_zero, shiftLeft_shiftLeft]
        congr 1
        omega
      · congr 1
        omega
    · rename_i hk
      have hl : (k + 1 - 0 + 7) / 8 = (k - 7 + 7) / 8 + 1 := by omega
      simp only [hl]
      have ha : s.regs.rdPos.toNat + 4 * ((k - 7 + 7) / 8 + 1 - 1) =
          (s.regs.rdPos + 4).toNat + 4 * ((k - 7 + 7) / 8 - 1) := by omega
      have hn : 8 * ((k - 7 + 7) / 8 + 1) - (k + 1 - 0) = 8 * ((k - 7 + 7) / 8) - (k - 7) := by omega
      simp only [ha, hn]
      have hp : s.regs.rdPos + BitVec.ofNat 32 (4 * ((k - 7 + 7) / 8 + 1)) =
          s.regs.rdPos + 4 + BitVec.ofNat 32 (4 * ((k - 7 + 7) / 8)) := by
        rw [BitVec.add_assoc]
        congr 1
        apply BitVec.eq_of_toNat_eq
        rw [BitVec.toNat_add, BitVec.toNat_ofNat, BitVec.toNat_ofNat, show (4 : Word).toNat = 4 from rfl]
        omega
      rw [hp]
      rfl
  · have h1 := nib_toNat _ h0
    have hn : (s.regs.rdNib - 1).toNat = s.regs.rdNib.toNat - 1 := by
      have := s.regs.rdNib.isLt
      rw [BitVec.toNat_sub, show (1 : BitVec 4).toNat = 1 from rfl]
      omega
    rw [advanceRead_one_unread s h0]
    unfold advanceRead
    dsimp only
    simp only [takeNibble_regs, hn]
    by_cases hk : k + 1 ≤ s.regs.rdNib.toNat
    · rw [if_pos hk, if_pos (by omega)]
      simp only [takeNibble]
      congr 2
      · rw [shiftLeft_shiftLeft]; congr 1; omega
      · congr 1; omega
    · rw [if_neg hk, if_neg (by omega)]
      have e₁ : k + 1 - s.regs.rdNib.toNat = k - (s.regs.rdNib.toNat - 1) := by omega
      rw [e₁]
      rfl

/-- A read stream with something in it leaves room for the word it comes from. -/
theorem rdPos_of_cons (s : State) (n : Nibble) (rest : List Nibble) (h : readStream s = n :: rest) :
    s.regs.rdNib = 0 → s.regs.rdPos.toNat + 4 < 2 ^ 32 := by
  intro h0
  have hlt := s.regs.inLen.isLt
  by_contra hx
  have : readStream s = [] := (readStream_eq_nil s).2 ⟨h0, by omega⟩
  simp [this] at h

/-- The read stream after the first nibbles are consumed is the rest. -/
theorem readStream_advance (c rest : List Nibble) (s : State) (hc : ReadCursorOk s.regs) (h : readStream s = c ++ rest) :
    readStream (advanceRead c.length s) = rest ∧ ReadCursorOk (advanceRead c.length s).regs := by
  induction c generalizing s with
  | nil => rw [List.length_nil, advanceRead_zero]; exact ⟨h, hc⟩
  | cons n c ih =>
    obtain ⟨-, h₂, h₃⟩ := getNibble_cons s n (c ++ rest) hc h
    rw [List.length_cons, advanceRead_succ _ _ (rdPos_of_cons s _ _ h)]
    exact ih _ h₃ h₂

/-- Consuming in two parts. -/
theorem advanceRead_append (c d rest : List Nibble) (s : State) (hc : ReadCursorOk s.regs)
    (h : readStream s = c ++ (d ++ rest)) :
    advanceRead (c.length + d.length) s = advanceRead d.length (advanceRead c.length s) := by
  induction c generalizing s with
  | nil => simp [advanceRead_zero]
  | cons n c ih =>
    obtain ⟨-, h₂, h₃⟩ := getNibble_cons s n (c ++ (d ++ rest)) hc h
    have hp := rdPos_of_cons s _ _ h
    rw [List.length_cons, show c.length + 1 + d.length = c.length + d.length + 1 by omega, advanceRead_succ (c.length + d.length) s hp,
      advanceRead_succ c.length s hp]
    exact ih _ h₃ h₂

end Sys2Proof.Machine
end

