-- ==== Sys2Proof/Laws/WriteCursor.lean ====
section
/-! SUPPORT. The write cursor: PutNibble, a list of nibbles put one after the other, and FlushWord, each said once in the
terms of `appendNibbles` (20_memory.md R67, R68). -/

namespace Sys2Proof.Machine

/-! ## Nibbles in a word -/

/-- The number a list of nibbles spells in base 16, after `r`. -/
def nibblesNat (r : Nat) (ns : List Nibble) : Nat := ns.foldl (fun w n => 16 * w + n.toNat) r

theorem nibblesNat_cons (r : Nat) (n : Nibble) (ns : List Nibble) :
    nibblesNat r (n :: ns) = nibblesNat (16 * r + n.toNat) ns := rfl

theorem nibblesNat_append (r : Nat) (xs ys : List Nibble) :
    nibblesNat r (xs ++ ys) = nibblesNat (nibblesNat r xs) ys := by simp [nibblesNat]

theorem nibblesNat_lt (r k : Nat) (ns : List Nibble) (h : r < 16 ^ k) : nibblesNat r ns < 16 ^ (k + ns.length) := by
  induction ns generalizing r k with
  | nil => simpa [nibblesNat] using h
  | cons n ns ih =>
    have := n.isLt
    have := ih (16 * r + n.toNat) (k + 1) (by rw [pow_succ]; omega)
    rw [nibblesNat_cons, List.length_cons]
    rwa [show k + (ns.length + 1) = k + 1 + ns.length by omega]

theorem shiftInsert_toNat (w : Word) (n : Nibble) (h : w.toNat < 2 ^ 28) :
    ((w <<< 4) ||| n.setWidth 32).toNat = 16 * w.toNat + n.toNat := by
  have hn := n.isLt
  have h₁ : (w <<< 4) ||| n.setWidth 32 = (w <<< 4) + n.setWidth 32 := by
    have h0 : (w <<< 4) &&& n.setWidth 32 = 0#32 := by
      ext i hi
      simp only [BitVec.getElem_and, BitVec.getElem_shiftLeft, BitVec.getElem_setWidth, BitVec.getElem_zero]
      by_cases h4 : i < 4
      · simp [h4]
      · simp [BitVec.getLsbD_of_ge n i (by omega)]
    exact (BitVec.add_eq_or_of_and_eq_zero _ _ h0).symm
  rw [h₁, BitVec.toNat_add, BitVec.toNat_shiftLeft, BitVec.toNat_setWidth, Nat.shiftLeft_eq]
  omega

theorem foldWord_toNat (w : Word) (ns : List Nibble) (k : Nat) (hw : w.toNat < 16 ^ k) (hk : k + ns.length ≤ 8) :
    (ns.foldl (fun (v : Word) (n : Nibble) => (v <<< 4) ||| n.setWidth 32) w).toNat = nibblesNat w.toNat ns := by
  induction ns generalizing w k with
  | nil => rfl
  | cons n ns ih =>
    have hn := n.isLt
    simp only [List.length_cons] at hk
    have h16 : (16 : Nat) ^ k ≤ 16 ^ 7 := Nat.pow_le_pow_right (by omega) (by omega)
    have hs := shiftInsert_toNat w n (by omega)
    rw [List.foldl_cons, ih _ (k + 1) (by rw [hs, pow_succ]; omega) (by omega), hs, nibblesNat_cons]

theorem nibblesWord_toNat (ns : List Nibble) (h : ns.length ≤ 8) : (nibblesWord ns).toNat = nibblesNat 0 ns :=
  foldWord_toNat 0 ns 0 (by simp) (by omega)

theorem nibblesWord_append_single (ns : List Nibble) (n : Nibble) :
    nibblesWord (ns ++ [n]) = (nibblesWord ns <<< 4) ||| n.setWidth 32 := by simp [nibblesWord]

/-- Nibble `i` from the end of a list of nibbles is nibble `i` of the number they spell. -/
theorem nibblesNat_digit (r : Nat) (ns : List Nibble) (j : Nat) (h : j < ns.length) :
    nibblesNat r ns / 16 ^ (ns.length - 1 - j) % 16 = (ns[j]).toNat := by
  induction ns using List.reverseRecOn generalizing j with
  | nil => simp at h
  | append_singleton ns n ih =>
    have hn := n.isLt
    rw [nibblesNat_append]
    simp only [nibblesNat, List.foldl_cons, List.foldl_nil, List.length_append, List.length_singleton] at h ⊢
    by_cases hj : j = ns.length
    · subst hj; simp; omega
    · have hlt : j < ns.length := by omega
      rw [show ns.length + 1 - 1 - j = (ns.length - 1 - j) + 1 by omega, pow_succ', ← Nat.div_div_eq_div_mul,
        show (16 * List.foldl (fun w n => 16 * w + BitVec.toNat n) r ns + n.toNat) / 16 =
          List.foldl (fun w n => 16 * w + BitVec.toNat n) r ns by omega,
        List.getElem_append_left hlt]
      exact ih j hlt

theorem extractNibble_toNat (w : Word) (i : Nat) : (w.extractLsb' (4 * i) 4).toNat = w.toNat / 16 ^ i % 16 := by
  rw [BitVec.extractLsb'_toNat, Nat.shiftRight_eq_div_pow, show (16 : Nat) ^ i = 2 ^ (4 * i) by rw [pow_mul]; norm_num]

/-! ## Pending nibbles (10_state.md R32) -/

@[simp] theorem pendingNibbles_length (r : Regs) : (pendingNibbles r).length = r.wrNib.toNat := by simp [pendingNibbles]

theorem pendingNibbles_getElem (r : Regs) (j : Nat) (h : j < (pendingNibbles r).length) :
    ((pendingNibbles r)[j]).toNat = r.wrAcc.toNat / 16 ^ (r.wrNib.toNat - 1 - j) % 16 := by
  simp only [pendingNibbles, List.getElem_map, List.getElem_range, extractNibble_toNat]

theorem pendingNibbles_of_word (r : Regs) (ns : List Nibble) (h : ns.length ≤ 7) (hn : r.wrNib.toNat = ns.length)
    (ha : r.wrAcc = nibblesWord ns) : pendingNibbles r = ns := by
  refine List.ext_getElem (by simp [hn]) fun j h₁ h₂ => ?_
  apply BitVec.eq_of_toNat_eq
  rw [pendingNibbles_getElem, ha, nibblesWord_toNat ns (by omega), hn, nibblesNat_digit 0 ns j h₂]

theorem nat_of_digits (a b k : Nat) (ha : a < 16 ^ k) (hb : b < 16 ^ k)
    (h : ∀ i, i < k → a / 16 ^ i % 16 = b / 16 ^ i % 16) : a = b := by
  induction k generalizing a b with
  | zero => simp at ha hb; omega
  | succ k ih =>
    have h0 := h 0 (by omega)
    simp at h0
    have : a / 16 = b / 16 := by
      refine ih _ _ (by rw [pow_succ] at ha; omega) (by rw [pow_succ] at hb; omega) fun i hi => ?_
      have := h (i + 1) (by omega)
      rwa [pow_succ', ← Nat.div_div_eq_div_mul, ← Nat.div_div_eq_div_mul] at this
    omega

theorem nibblesWord_pending (r : Regs) (h : WriteCursorOk r) : nibblesWord (pendingNibbles r) = r.wrAcc := by
  obtain ⟨h₁, h₂⟩ := h
  rw [pow_mul] at h₂
  apply BitVec.eq_of_toNat_eq
  rw [nibblesWord_toNat _ (by simp; omega)]
  refine nat_of_digits _ _ r.wrNib.toNat ?_ (by simpa using h₂) fun i hi => ?_
  · have := nibblesNat_lt 0 0 (pendingNibbles r) (by simp)
    simpa using this
  · have := nibblesNat_digit 0 (pendingNibbles r) (r.wrNib.toNat - 1 - i) (by simp; omega)
    rw [pendingNibbles_getElem] at this
    simp only [pendingNibbles_length] at this
    rwa [show r.wrNib.toNat - 1 - (r.wrNib.toNat - 1 - i) = i by omega] at this

/-! ## Appending -/

@[simp] theorem appendNibbles_cfg (ns : List Nibble) (s : State) : (appendNibbles ns s).cfg = s.cfg := rfl
@[simp] theorem appendNibbles_ie (ns : List Nibble) (s : State) : (appendNibbles ns s).ie = s.ie := rfl
@[simp] theorem appendNibbles_status (ns : List Nibble) (s : State) : (appendNibbles ns s).status = s.status := rfl
@[simp] theorem appendNibbles_snapshot (ns : List Nibble) (s : State) : (appendNibbles ns s).snapshot = s.snapshot := rfl
@[simp] theorem appendNibbles_inMem (ns : List Nibble) (s : State) : (appendNibbles ns s).inMem = s.inMem := rfl
@[simp] theorem appendNibbles_pixMem (ns : List Nibble) (s : State) : (appendNibbles ns s).pixMem = s.pixMem := rfl
@[simp] theorem appendNibbles_agenda (ns : List Nibble) (s : State) : (appendNibbles ns s).agenda = s.agenda := rfl
@[simp] theorem appendNibbles_readData (ns : List Nibble) (s : State) : (appendNibbles ns s).readData = s.readData := rfl
@[simp] theorem appendNibbles_freeCtr (ns : List Nibble) (s : State) : (appendNibbles ns s).freeCtr = s.freeCtr := rfl

theorem appendNibbles_nil (s : State) (h : WriteCursorOk s.regs) : appendNibbles [] s = s := by
  have hw := nibblesWord_pending s.regs h
  have hd : s.regs.wrNib.toNat / 8 = 0 := by omega
  have hm : s.regs.wrNib.toNat % 8 = s.regs.wrNib.toNat := by omega
  simp only [appendNibbles, List.append_nil, pendingNibbles_length, wholeWords, hd, hm, List.range_zero, List.map_nil,
    storeWords, Nat.mul_zero, List.drop_zero, hw]
  simp

/-- The write cursor after an append: how many nibbles and where. -/
theorem appendNibbles_wrNib (ns : List Nibble) (s : State) :
    (appendNibbles ns s).regs.wrNib.toNat = (s.regs.wrNib.toNat + ns.length) % 8 := by
  simp only [appendNibbles, List.length_append, pendingNibbles_length, BitVec.toNat_ofNat]
  omega

theorem appendNibbles_pending (ns : List Nibble) (s : State) :
    pendingNibbles (appendNibbles ns s).regs =
      (pendingNibbles s.regs ++ ns).drop (8 * ((pendingNibbles s.regs ++ ns).length / 8)) := by
  refine pendingNibbles_of_word _ _ (by simp; omega) ?_ rfl
  rw [appendNibbles_wrNib]
  simp
  omega

theorem appendNibbles_wrPos (ns : List Nibble) (s : State) (hc : s.cfg.outCap < 2 ^ 32) (h : RoomFor ns s) :
    (appendNibbles ns s).regs.wrPos.toNat =
      s.regs.wrPos.toNat + 4 * ((s.regs.wrNib.toNat + ns.length) / 8) := by
  have := s.regs.wrPos.isLt
  simp only [appendNibbles, List.length_append, pendingNibbles_length, BitVec.toNat_add, BitVec.toNat_ofNat]
  rcases h with h | h <;> omega

theorem appendNibbles_cursorOk (ns : List Nibble) (s : State) : WriteCursorOk (appendNibbles ns s).regs := by
  have hn := appendNibbles_wrNib ns s
  refine ⟨by omega, ?_⟩
  rw [hn, pow_mul]
  have hl : ((pendingNibbles s.regs ++ ns).drop (8 * ((pendingNibbles s.regs ++ ns).length / 8))).length =
      (s.regs.wrNib.toNat + ns.length) % 8 := by simp; omega
  have h := nibblesNat_lt 0 0 ((pendingNibbles s.regs ++ ns).drop (8 * ((pendingNibbles s.regs ++ ns).length / 8)))
    (by simp)
  rw [← nibblesWord_toNat _ (by omega), hl] at h
  simpa [appendNibbles] using h

theorem storeWords_append (m : Memory Byte) (a : Nat) (xs ys : List Word) :
    storeWords m a (xs ++ ys) = storeWords (storeWords m a xs) (a + 4 * xs.length) ys := by
  induction xs generalizing m a with
  | nil => simp [storeWords]
  | cons x xs ih =>
    simp only [List.cons_append, storeWords, ih, List.length_cons]
    congr 1
    omega

@[simp] theorem wholeWords_length (ns : List Nibble) : (wholeWords ns).length = ns.length / 8 := by simp [wholeWords]

/-- The whole words of a longer list: those of the first part, then those of what the first part left pending. -/
theorem wholeWords_append (xs ys : List Nibble) :
    wholeWords (xs ++ ys) = wholeWords xs ++ wholeWords (xs.drop (8 * (xs.length / 8)) ++ ys) := by
  refine List.ext_getElem (by simp; omega) fun q h₁ h₂ => ?_
  simp only [wholeWords_length] at h₁
  by_cases hq : q < xs.length / 8
  · rw [List.getElem_append_left (by simpa using hq)]
    simp only [wholeWords, List.getElem_map, List.getElem_range]
    congr 1
    rw [List.drop_append_of_le_length (by omega), List.take_append_of_le_length (by simp; omega)]
  · rw [List.getElem_append_right (by simpa using hq)]
    simp only [wholeWords, List.getElem_map, List.getElem_range, List.length_map, List.length_range]
    congr 2
    have hx : 8 * (xs.length / 8) ≤ xs.length := by omega
    rw [show xs ++ ys = xs.take (8 * (xs.length / 8)) ++ (xs.drop (8 * (xs.length / 8)) ++ ys) by
      rw [← List.append_assoc, List.take_append_drop]]
    rw [List.drop_append, List.drop_eq_nil_of_le (by simp; omega), List.nil_append]
    congr 1
    simp
    omega

/-- Appending in two parts (20_memory.md R67). -/
theorem appendNibbles_append (xs ys : List Nibble) (s : State) (hc : s.cfg.outCap < 2 ^ 32) (h : RoomFor xs s) :
    appendNibbles (xs ++ ys) s = appendNibbles ys (appendNibbles xs s) := by
  have hp := appendNibbles_pending xs s
  have hpos := appendNibbles_wrPos xs s hc h
  have hl : (pendingNibbles s.regs ++ xs).length = s.regs.wrNib.toNat + xs.length := by simp
  have hdrop : ∀ k, (8 * ((s.regs.wrNib.toNat + xs.length) / 8) ≤ k) →
      (pendingNibbles s.regs ++ xs ++ ys).drop k =
      ((pendingNibbles s.regs ++ xs).drop (8 * ((s.regs.wrNib.toNat + xs.length) / 8)) ++ ys).drop
        (k - 8 * ((s.regs.wrNib.toNat + xs.length) / 8)) := by
    intro k hk
    have hle : 8 * ((s.regs.wrNib.toNat + xs.length) / 8) ≤ (pendingNibbles s.regs ++ xs).length := by omega
    rw [← List.drop_append_of_le_length hle, List.drop_drop]
    congr 1
    omega
  unfold appendNibbles at hp ⊢
  simp only [hp]
  have e₁ : (pendingNibbles s.regs ++ (xs ++ ys)) = (pendingNibbles s.regs ++ xs ++ ys) := by simp
  have e₂ : ((pendingNibbles s.regs ++ xs).drop (8 * ((s.regs.wrNib.toNat + xs.length) / 8)) ++ ys).length =
      (s.regs.wrNib.toNat + xs.length + ys.length) - 8 * ((s.regs.wrNib.toNat + xs.length) / 8) := by
    simp; omega
  have hpos' : (s.regs.wrPos + BitVec.ofNat 32 (4 * ((s.regs.wrNib.toNat + xs.length) / 8))).toNat =
      s.regs.wrPos.toNat + 4 * ((s.regs.wrNib.toNat + xs.length) / 8) := by
    rw [← hpos]; simp [appendNibbles]
  congr 1
  · rw [e₁]
    simp only [hl]
    congr 1
    · rw [List.length_append, hl, e₂, BitVec.add_assoc]
      congr 1
      apply BitVec.eq_of_toNat_eq
      simp only [BitVec.toNat_ofNat, BitVec.toNat_add]
      omega
    · rw [List.length_append, hl, e₂, hdrop _ (by omega)]
      congr 2
      omega
    · rw [List.length_append, hl, e₂]
      congr 1
      omega
  · rw [e₁, wholeWords_append, storeWords_append, wholeWords_length, hl, hpos']

theorem roomFor_append (xs ys : List Nibble) (s : State) (hc : s.cfg.outCap < 2 ^ 32) :
    RoomFor (xs ++ ys) s ↔ RoomFor xs s ∧ RoomFor ys (appendNibbles xs s) := by
  constructor
  · intro h
    have hx : RoomFor xs s := by
      unfold RoomFor at h ⊢
      simp only [List.length_append] at h
      simp only
      omega
    refine ⟨hx, ?_⟩
    have := appendNibbles_wrPos xs s hc hx
    have := appendNibbles_wrNib xs s
    unfold RoomFor at h hx ⊢
    simp only [List.length_append] at h
    simp only [appendNibbles_cfg] at *
    omega
  · rintro ⟨hx, hy⟩
    have := appendNibbles_wrPos xs s hc hx
    have := appendNibbles_wrNib xs s
    unfold RoomFor at hx hy ⊢
    simp only [List.length_append, appendNibbles_cfg] at *
    omega

/-! ## PutNibble and FlushWord -/

/-- What a word store does when it succeeds, and when it does not (20_memory.md R65, R67, R68). -/
theorem storeWord_ok_iff (w : Word) (s t : State) : storeWord w s = .ok t ↔
    s.regs.wrPos.toNat + 4 ≤ s.cfg.outCap ∧
    t = { s with
      outMem := memWrite s.outMem s.regs.wrPos.toNat 4 w.toNat
      regs := { s.regs with wrPos := s.regs.wrPos + 4, wrAcc := 0, wrNib := 0 } } := by
  unfold storeWord
  split
  · simp; omega
  · simp only [Except.ok.injEq]
    constructor
    · rintro rfl; exact ⟨by omega, rfl⟩
    · rintro ⟨_, rfl⟩; rfl

theorem storeWord_error (w : Word) (s : State) (h : s.cfg.outCap < s.regs.wrPos.toNat + 4) :
    storeWord w s = .error .ioError := by unfold storeWord; rw [if_pos (by omega)]

theorem storeWord_append (w : Word) (ns : List Nibble) (s : State) (hk : s.regs.wrNib.toNat + ns.length = 8)
    (hw : w = nibblesWord (pendingNibbles s.regs ++ ns)) (h : s.regs.wrPos.toNat + 4 ≤ s.cfg.outCap) :
    storeWord w s = .ok (appendNibbles ns s) := by
  rw [storeWord_ok_iff]
  refine ⟨h, ?_⟩
  have hl : (pendingNibbles s.regs ++ ns).length = 8 := by simp [hk]
  have hww : wholeWords (pendingNibbles s.regs ++ ns) = [w] := by
    simp [wholeWords, hl, List.take_of_length_le, hw]
  unfold appendNibbles
  simp only [hl, hww, storeWords]
  have hd : (pendingNibbles s.regs ++ ns).drop (8 * (8 / 8)) = [] := by
    rw [List.drop_eq_nil_of_le (by rw [hl])]
  rw [hd]
  rfl

/-- PutNibble in one statement (20_memory.md R67): it appends the nibble, or raises IoError where the word it completes
would pass OUT_CAP. -/
theorem putNibble_spec (n : Nibble) (s : State) (hw : WriteCursorOk s.regs) :
    (RoomFor [n] s → putNibble n s = .ok (appendNibbles [n] s)) ∧
    (¬ RoomFor [n] s → putNibble n s = .error .ioError) := by
  have hacc : (s.regs.wrAcc <<< 4) ||| n.setWidth 32 = nibblesWord (pendingNibbles s.regs ++ [n]) := by
    rw [nibblesWord_append_single, nibblesWord_pending s.regs hw]
  have h7 := hw.1
  by_cases h8 : s.regs.wrNib.toNat + 1 = 8
  · have hput : putNibble n s = storeWord ((s.regs.wrAcc <<< 4) ||| n.setWidth 32) s := by simp [putNibble, h8]
    rw [hput]
    constructor
    · intro hr
      refine storeWord_append _ [n] s (by simpa using h8) hacc ?_
      rcases hr with hr | hr <;> simp [h8] at hr
      exact hr
    · intro hr
      refine storeWord_error _ _ ?_
      simp [RoomFor, h8] at hr
      omega
  · have hd : (s.regs.wrNib.toNat + 1) / 8 = 0 := by omega
    constructor
    · intro _
      unfold putNibble
      rw [if_neg h8]
      unfold appendNibbles
      have hl : (pendingNibbles s.regs ++ [n]).length = s.regs.wrNib.toNat + 1 := by simp
      simp only [hl, hd, wholeWords, List.range_zero, List.map_nil, storeWords, Nat.mul_zero, List.drop_zero, ← hacc]
      congr 3
      · simp
      · apply BitVec.eq_of_toNat_eq
        have h1 : (1 : BitVec 4).toNat = 1 := rfl
        rw [BitVec.toNat_add, BitVec.toNat_ofNat, h1]
        omega
    · intro hr
      simp [RoomFor, hd] at hr

/-- A list of nibbles put one after the other. -/
def putNibbles : List Nibble → State → Except CmdError State
  | [], s => .ok s
  | n :: ns, s =>
    match putNibble n s with
    | .ok t    => putNibbles ns t
    | .error e => .error e

theorem putNibbles_spec (ns : List Nibble) (s : State) (hw : WriteCursorOk s.regs) (hc : s.cfg.outCap < 2 ^ 32) :
    (RoomFor ns s → putNibbles ns s = .ok (appendNibbles ns s)) ∧
    (¬ RoomFor ns s → putNibbles ns s = .error .ioError) := by
  induction ns generalizing s with
  | nil =>
    refine ⟨fun _ => by rw [appendNibbles_nil s hw]; rfl, fun h => absurd ?_ h⟩
    have := hw.1
    exact .inl (by simp; omega)
  | cons n ns ih =>
    obtain ⟨h₁, h₂⟩ := putNibble_spec n s hw
    have hsplit := roomFor_append [n] ns s hc
    rw [List.singleton_append] at hsplit
    by_cases hn : RoomFor [n] s
    · obtain ⟨h₃, h₄⟩ := ih (appendNibbles [n] s) (appendNibbles_cursorOk [n] s) hc
      have hput : putNibbles (n :: ns) s = putNibbles ns (appendNibbles [n] s) := by simp [putNibbles, h₁ hn]
      rw [hput]
      constructor
      · intro h
        rw [h₃ (hsplit.1 h).2, ← appendNibbles_append [n] ns s hc hn, List.singleton_append]
      · intro h
        exact h₄ fun h' => h (hsplit.2 ⟨hn, h'⟩)
    · have hput : putNibbles (n :: ns) s = .error .ioError := by simp [putNibbles, h₂ hn]
      exact ⟨fun h => absurd (hsplit.1 h).1 hn, fun _ => hput⟩

theorem putNibbles_append (xs ys : List Nibble) (s : State) :
    putNibbles (xs ++ ys) s =
      match putNibbles xs s with
      | .ok t    => putNibbles ys t
      | .error e => .error e := by
  induction xs generalizing s with
  | nil => rfl
  | cons x xs ih =>
    simp only [List.cons_append, putNibbles]
    cases putNibble x s with
    | ok t => exact ih t
    | error e => rfl

theorem nibblesWord_append_zeros (ns : List Nibble) (k : Nat) :
    nibblesWord (ns ++ List.replicate k 0) = nibblesWord ns <<< (4 * k) := by
  induction k with
  | zero => simp
  | succ k ih =>
    rw [List.replicate_succ', ← List.append_assoc, nibblesWord_append_single, ih,
      show 4 * (k + 1) = 4 * k + 4 by ring, BitVec.shiftLeft_add]
    simp

/-- FlushWord in one statement (20_memory.md R68). -/
theorem flushWord_spec (s : State) (hw : WriteCursorOk s.regs) :
    (RoomFor (padding [] s.regs) s → flushWord s = .ok (appendNibbles (padding [] s.regs) s)) ∧
    (¬ RoomFor (padding [] s.regs) s → flushWord s = .error .ioError) := by
  have h7 := hw.1
  by_cases h0 : s.regs.wrNib = 0
  · have hz : s.regs.wrNib.toNat = 0 := by simp [h0]
    have hp : padding [] s.regs = [] := by simp [padding, hz]
    rw [hp, appendNibbles_nil s hw]
    refine ⟨fun _ => by simp [flushWord, h0], fun h => absurd ?_ h⟩
    exact .inl (by simp [hz])
  · have hz : s.regs.wrNib.toNat ≠ 0 := fun h => h0 (BitVec.eq_of_toNat_eq (by simpa using h))
    have hp : padding [] s.regs = List.replicate (8 - s.regs.wrNib.toNat) 0 := by
      simp only [padding, List.length_nil, Nat.add_zero]
      congr 1
      omega
    have h8 : s.regs.wrNib.toNat + (List.replicate (8 - s.regs.wrNib.toNat) (0 : Nibble)).length = 8 := by simp; omega
    have hf : flushWord s = storeWord (s.regs.wrAcc <<< (4 * (8 - s.regs.wrNib.toNat))) s := by
      unfold flushWord; rw [if_neg h0]
    rw [hp, hf]
    constructor
    · intro hr
      refine storeWord_append _ _ s h8 ?_ ?_
      · rw [nibblesWord_append_zeros, nibblesWord_pending s.regs hw]
      · unfold RoomFor at hr
        simp only [h8] at hr
        omega
    · intro hr
      refine storeWord_error _ _ ?_
      unfold RoomFor at hr
      simp only [h8] at hr
      omega

end Sys2Proof.Machine
end

