-- ==== Sys2Proof/Laws/Copy.lean ====
section
/-! SUPPORT. What stands in OUT_MEM after nibbles are appended, and what a read cursor gives when those bytes are copied
to IN_MEM (20_memory.md R61, R63; 30_encoding.md R102). -/

namespace Sys2Proof.Machine

open Sys2Proof

/-- The byte `i` of a word (20_memory.md R61). -/
def byteOfWord (w : Word) (i : Nat) : Byte := BitVec.ofNat 8 (w.toNat / 2 ^ (8 * i))

theorem lookup_storeWords (m : Memory Byte) (a : Nat) (ws : List Word) (b : Nat) :
    Memory.lookup (storeWords m a ws) b =
      if h : a ≤ b ∧ (b - a) / 4 < ws.length then some (byteOfWord ws[(b - a) / 4] ((b - a) % 4)) else m.lookup b := by
  induction ws generalizing m a with
  | nil => simp [storeWords]
  | cons w ws ih =>
    rw [storeWords, ih, lookup_memWrite]
    by_cases h1 : a ≤ b
    · by_cases h2 : b < a + 4
      · rw [dif_neg (by omega), if_pos ⟨h1, h2⟩, dif_pos ⟨h1, by simp; omega⟩]
        have hq : (b - a) / 4 = 0 := by omega
        simp only [hq, List.getElem_cons_zero, byteOfWord, show (b - a) % 4 = b - a by omega]
      · have hq : (b - a) / 4 = (b - (a + 4)) / 4 + 1 := by omega
        have hm : (b - a) % 4 = (b - (a + 4)) % 4 := by omega
        rw [if_neg (by omega)]
        by_cases h3 : (b - (a + 4)) / 4 < ws.length
        · rw [dif_pos ⟨by omega, h3⟩, dif_pos ⟨h1, by simp; omega⟩]
          simp only [hq, List.getElem_cons_succ, hm]
        · rw [dif_neg (by omega), dif_neg (by simp; omega)]
    · rw [dif_neg (by omega), if_neg (by omega), dif_neg (by omega)]

theorem wf_storeWords (m : Memory Byte) (a : Nat) (ws : List Word) (h : m.wf = true) :
    (storeWords m a ws).wf = true := by
  induction ws generalizing m a with
  | nil => exact h
  | cons w ws ih => exact ih _ _ (wf_memWrite _ _ _ _ h)

theorem within_storeWords (m : Memory Byte) (a : Nat) (ws : List Word) (k : Nat) (hk : a + 4 * ws.length ≤ k ∨ ws = [])
    (h : m.within k = true) : (storeWords m a ws).within k = true := by
  induction ws generalizing m a with
  | nil => exact h
  | cons w ws ih =>
    rw [List.length_cons] at hk
    have hk : a + 4 * (ws.length + 1) ≤ k := hk.resolve_right (by simp)
    exact ih _ _ (.inl (by omega)) (within_memWrite _ _ _ _ _ (by omega) h)

/-- A word is read back from its four bytes (20_memory.md R61). -/
theorem inWord_of_bytes (u : State) (a : Nat) (w : Word) (h : ∀ i, i < 4 → u.inByte (a + i) = byteOfWord w i) :
    u.inWord a = w := by
  have hw := w.isLt
  have b (i : Nat) (hi : i < 4) : (u.inByte (a + i)).toNat = w.toNat / 2 ^ (8 * i) % 256 := by
    rw [h i hi, byteOfWord, BitVec.toNat_ofNat]
  have b0 := b 0 (by omega)
  have b1 := b 1 (by omega)
  have b2 := b 2 (by omega)
  have b3 := b 3 (by omega)
  rw [Nat.add_zero] at b0
  apply BitVec.eq_of_toNat_eq
  rw [inWord_toNat, b0, b1, b2, b3]
  omega

/-- The nibbles of a word made of eight nibbles (20_memory.md R63). -/
theorem wordNibbles_nibblesWord (l : List Nibble) (h : l.length = 8) : wordNibbles (nibblesWord l) = l := by
  refine List.ext_getElem (by simp [h]) fun j h₁ h₂ => ?_
  have hj : j < 8 := by omega
  simp only [wordNibbles, List.getElem_map, List.getElem_range]
  apply BitVec.eq_of_toNat_eq
  rw [show 28 - 4 * j = 4 * (7 - j) by omega, extractNibble_toNat, nibblesWord_toNat l (by omega),
    ← nibblesNat_digit 0 l j h₂, h]

theorem wholeWords_nibbles (ns : List Nibble) :
    (wholeWords ns).flatMap wordNibbles = ns.take (8 * (ns.length / 8)) := by
  have key (k : Nat) (hk : 8 * k ≤ ns.length) :
      ((List.range k).map (fun q => nibblesWord ((ns.drop (8 * q)).take 8))).flatMap wordNibbles = ns.take (8 * k) := by
    induction k with
    | zero => simp
    | succ k ih =>
      rw [List.range_succ, List.map_append, List.flatMap_append, ih (by omega), List.map_singleton,
        List.flatMap_singleton, wordNibbles_nibblesWord _ (by simp; omega), show 8 * (k + 1) = 8 * k + 8 by omega,
        List.take_add]
  exact key _ (by omega)

/-- Where nibble `j` of a list is in the word it falls in (30_encoding.md R102). -/
theorem nibblesWord_digit (l : List Nibble) (h : l.length = 8) (j : Nat) (hj : j < 8) :
    (nibblesWord l).toNat / 16 ^ (7 - j) % 16 = (l[j]'(by omega)).toNat := by
  rw [nibblesWord_toNat l (by omega), ← nibblesNat_digit 0 l j (by omega), h]

theorem pending_empty (r : Regs) (h : r.wrNib = 0) : pendingNibbles r = [] := by
  apply List.eq_nil_of_length_eq_zero
  simp [h]

/-- The byte at an index of the words stored for nibbles appended to an empty write cursor (20_memory.md R67). -/
theorem appendNibbles_outByte (s : State) (ns : List Nibble) (h : s.regs.wrNib = 0) (b : Nat) :
    (appendNibbles ns s).outByte b =
      if hb : s.regs.wrPos.toNat ≤ b ∧ (b - s.regs.wrPos.toNat) / 4 < (wholeWords ns).length then
        byteOfWord (wholeWords ns)[(b - s.regs.wrPos.toNat) / 4] ((b - s.regs.wrPos.toNat) % 4)
      else s.outByte b := by
  unfold appendNibbles State.outByte
  simp only [pending_empty _ h, List.nil_append]
  rw [lookup_storeWords]
  split <;> rfl

/-- A stream of whole words appended at an empty write cursor and copied is what a read cursor at its start gives
(20_memory.md R63, R66, R67). -/
theorem readStream_of_copy (s u : State) (ns : List Nibble) (h0 : s.regs.wrNib = 0) (h8 : ns.length % 8 = 0)
    (hu : u.regs.rdNib = 0) (hp : u.regs.rdPos = s.regs.wrPos)
    (hl : s.regs.wrPos.toNat + ns.length / 2 ≤ u.regs.inLen.toNat)
    (hb : ∀ a, s.regs.wrPos.toNat ≤ a → a < s.regs.wrPos.toNat + ns.length / 2 →
      u.inByte a = (appendNibbles ns s).outByte a) : ∃ rest, readStream u = ns ++ rest := by
  have hw : ns.length / 8 ≤ wordsLeft u.regs := by
    unfold wordsLeft
    rw [hp]
    omega
  obtain ⟨k, hk⟩ : ∃ k, wordsLeft u.regs = ns.length / 8 + k := ⟨_, (Nat.add_sub_cancel' hw).symm⟩
  rw [readStream_empty u hu, hk, List.range_add, List.flatMap_append]
  refine ⟨_, congrArg (· ++ _) ?_⟩
  have hwords : (List.range (ns.length / 8)).map (fun q => u.inWord (u.regs.rdPos.toNat + 4 * q)) = wholeWords ns := by
    refine List.ext_getElem (by simp) fun q h₁ h₂ => ?_
    simp only [wholeWords_length] at h₂
    rw [List.getElem_map, List.getElem_range, hp]
    refine inWord_of_bytes u _ _ fun i hi => ?_
    rw [hb _ (by omega) (by omega), appendNibbles_outByte s ns h0, dif_pos ⟨by omega, by simp; omega⟩]
    congr 1
    · congr 1
      omega
    · omega
  have := wholeWords_nibbles ns
  rw [show 8 * (ns.length / 8) = ns.length by omega, List.take_length, ← hwords, List.flatMap_map] at this
  exact this

end Sys2Proof.Machine
end

