-- ==== Sys2Proof/Laws/Errors.lean ====
section
/-! SUPPORT. Which errors each part of a command can raise (60_exceptions.md R240). -/

namespace Sys2Proof.Machine

open Sys2Proof

/-- The error of `r`, if it is one, is in the list. -/
def Raises {α : Type} (es : List CmdError) (r : Except CmdError α) : Prop := ∀ e, r = .error e → e ∈ es

theorem Raises.ok {α : Type} (es : List CmdError) (x : α) : Raises es (Except.ok x) := fun _ h => by cases h

theorem Raises.error {α : Type} {es : List CmdError} {e : CmdError} (h : e ∈ es) :
    Raises es (Except.error e : Except CmdError α) := fun _ h' => by cases h'; exact h

theorem Raises.mono {α : Type} {es es' : List CmdError} {r : Except CmdError α} (h : Raises es r)
    (hs : ∀ e ∈ es, e ∈ es') : Raises es' r := fun e he => hs e (h e he)

theorem getNibble_raises (s : State) : Raises [.truncatedStream, .vleOverflow] (getNibble s) := by
  intro e h
  unfold getNibble at h
  repeat' split at h
  all_goals cases h
  decide

theorem vleDecodeFrom_raises (fuel : Nat) (r : Word) (s : State) :
    Raises [.truncatedStream, .vleOverflow] (vleDecodeFrom fuel r s) := by
  induction fuel generalizing r s with
  | zero => exact Raises.error (by decide)
  | succ fuel ih =>
    intro e h
    unfold vleDecodeFrom at h
    split at h
    · rename_i hn
      cases h
      exact getNibble_raises _ _ hn
    · dsimp only at h
      split at h
      · cases h; decide
      · split at h
        · exact ih _ _ _ h
        · cases h

theorem vleDecode_raises (s : State) : Raises [.truncatedStream, .vleOverflow] (vleDecode s) :=
  vleDecodeFrom_raises _ _ _

theorem vleDecode_raises' (s : State) : Raises (mayRaise .rdcDec) (vleDecode s) :=
  (vleDecode_raises s).mono (by decide)

theorem decodeDeltas_raises (k : Nat) (s : State) : Raises (mayRaise .rdcDec) (decodeDeltas k s) := by
  induction k generalizing s with
  | zero => exact Raises.ok _ _
  | succ k ih =>
    intro e h
    unfold decodeDeltas at h
    split at h
    · rename_i hn
      cases h
      exact vleDecode_raises' _ _ hn
    · exact ih _ _ h

theorem decodePair_raises (n : Nat) (s : State) : Raises (mayRaise .rdcDec) (decodePair n s) := by
  intro e h
  unfold decodePair at h
  split at h
  · rename_i hn
    cases h
    exact vleDecode_raises' _ _ hn
  · split at h
    · cases h; decide
    · split at h
      · rename_i hn
        cases h
        exact vleDecode_raises' _ _ hn
      · split at h
        · cases h; decide
        · exact decodeDeltas_raises _ _ _ h

theorem decodePairs_raises (n fuel : Nat) (s : State) : Raises (mayRaise .rdcDec) (decodePairs n fuel s) := by
  induction fuel generalizing s with
  | zero => exact Raises.error (by decide)
  | succ fuel ih =>
    intro e h
    unfold decodePairs at h
    split at h
    · rename_i hn
      cases h
      exact decodePair_raises _ _ _ hn
    · split at h
      · cases h
      · exact ih _ _ h

theorem rdcDecodeBody_raises (s : State) : Raises (mayRaise .rdcDec) (rdcDecodeBody s) := by
  unfold rdcDecodeBody
  split
  · exact Raises.error (by decide)
  · exact decodePairs_raises _ _ _

theorem storeWord_raises (w : Word) (s : State) : Raises [.ioError] (storeWord w s) := by
  unfold storeWord
  split
  · exact Raises.error (by decide)
  · exact Raises.ok _ _

theorem putNibble_raises (n : Nibble) (s : State) : Raises [.ioError] (putNibble n s) := by
  unfold putNibble
  dsimp only
  split
  · exact storeWord_raises _ _
  · exact Raises.ok _ _

theorem putChunks_raises (v : Word) (k : Nat) (s : State) : Raises [.ioError] (putChunks v k s) := by
  induction k generalizing s with
  | zero => exact Raises.ok _ _
  | succ k ih =>
    intro e h
    unfold putChunks at h
    split at h
    · exact ih _ _ h
    · rename_i hn
      cases h
      exact putNibble_raises _ _ _ hn

theorem vleEncode_raises (v : Word) (s : State) : Raises [.ioError] (vleEncode v s) := putChunks_raises _ _ _

theorem flushWord_raises (s : State) : Raises [.ioError] (flushWord s) := by
  unfold flushWord
  split
  · exact Raises.ok _ _
  · exact storeWord_raises _ _

theorem encodeDeltas_raises (j k : Nat) (s : State) : Raises [.ioError] (encodeDeltas j k s) := by
  induction k generalizing j s with
  | zero => exact Raises.ok _ _
  | succ k ih =>
    intro e h
    unfold encodeDeltas at h
    dsimp only at h
    split at h
    · rename_i hn
      cases h
      exact vleEncode_raises _ _ _ hn
    · exact ih _ _ _ h

theorem encodePair_raises (n i : Nat) (s : State) : Raises [.ioError] (encodePair n i s) := by
  intro e h
  unfold encodePair at h
  dsimp only at h
  split at h
  · rename_i hn
    cases h
    exact vleEncode_raises _ _ _ hn
  · split at h
    · rename_i hn
      cases h
      exact vleEncode_raises _ _ _ hn
    · split at h
      · rename_i hn
        cases h
        exact encodeDeltas_raises _ _ _ _ hn
      · cases h

theorem encodePairs_raises (n fuel i : Nat) (s : State) : Raises [.ioError] (encodePairs n fuel i s) := by
  induction fuel generalizing i s with
  | zero => exact Raises.ok _ _
  | succ fuel ih =>
    intro e h
    unfold encodePairs at h
    split at h
    · split at h
      · rename_i hn
        cases h
        exact encodePair_raises _ _ _ _ hn
      · exact ih _ _ _ h
    · cases h

/-- RDC.ENC's body raises PixelCountMismatch only for a bad NPIX. -/
theorem rdcEncodeBody_raises (s : State) :
    Raises (if badPixelCount s then [.pixelCountMismatch] else [.ioError]) (rdcEncodeBody s) := by
  intro e h
  unfold rdcEncodeBody at h
  split at h
  · rename_i hb
    cases h
    simp [hb]
  · rename_i hb
    rw [if_neg hb]
    split at h
    · rename_i hn
      cases h
      exact encodePairs_raises _ _ _ _ _ hn
    · exact flushWord_raises _ _ h

/-! ## Headers -/

theorem parseDec_raises (byte : Nat → Byte) (len pos : Nat) (term : Byte) :
    Raises [.malformedHeader] (parseDec byte len pos term) := by
  intro e h
  unfold parseDec at h
  dsimp only at h
  repeat' split at h
  all_goals first | (cases h; decide) | cases h

theorem parseF32_raises (byte : Nat → Byte) (len pos : Nat) (term : Byte) :
    Raises [.malformedHeader] (parseF32 byte len pos term) := by
  intro e h
  unfold parseF32 at h
  repeat' split at h
  all_goals first | (cases h; decide) | cases h

theorem parseHeader_raises (shape tclip : Bool) (s : State) : Raises [.malformedHeader] (parseHeader shape tclip s) := by
  intro e h
  unfold parseHeader at h
  split at h
  · unfold parseTextHeader at h
    repeat' split at h
    all_goals first
      | (cases h; exact parseDec_raises _ _ _ _ _ ‹_›)
      | (cases h; exact parseF32_raises _ _ _ _ _ ‹_›)
      | cases h
  · unfold parseBinaryHeader at h
    split at h
    · cases h; decide
    · cases h

theorem fcParseBody_raises (shape tclip : Bool) (s : State) :
    Raises [.badMagic, .malformedHeader] (fcParseBody shape tclip s) := by
  intro e h
  unfold fcParseBody at h
  split at h
  · cases h; decide
  · split at h
    · rename_i hn
      cases h
      exact (parseHeader_raises shape tclip s).mono (by decide) _ hn
    · split at h
      · cases h
      · cases h; decide

theorem frameDecBody_raises (shape tclip : Bool) (s : State) :
    Raises (mayRaise .frameDecBin) (frameDecBody shape tclip s) := by
  intro e h
  unfold frameDecBody at h
  split at h
  · rename_i hn
    cases h
    exact (fcParseBody_raises shape tclip s).mono (by decide) _ hn
  · split at h
    · rename_i hn
      cases h
      exact (rdcDecodeBody_raises _).mono (by decide) _ hn
    · cases h

theorem writeHeaderBody_raises (s : State) : Raises [.ioError, .malformedHeader] (writeHeaderBody s) := by
  intro e h
  unfold writeHeaderBody at h
  split at h
  · cases h; decide
  · split at h
    · cases h; decide
    · cases h

/-- A header that passes validation gives a pixel count in range (42_frame.md R185, R196). -/
theorem headerOk_count (c : Capacities) (w h nr fr : Word) (clip : Bool) (hm : c.maxPixels < 2 ^ 32)
    (hk : headerOk c w h nr fr clip = true) :
    1 ≤ w.toNat * h.toNat ∧ w.toNat * h.toNat ≤ c.maxPixels ∧
      (BitVec.ofNat 32 (w.toNat * h.toNat)).toNat = w.toNat * h.toNat := by
  unfold headerOk at hk
  simp only [Bool.and_eq_true, decide_eq_true_eq] at hk
  obtain ⟨⟨⟨hw, hh⟩, hp⟩, -⟩ := hk
  have pos : ∀ x : Word, x ≠ 0 → 1 ≤ x.toNat := fun x hx => by
    rcases Nat.eq_zero_or_pos x.toNat with h' | h'
    · exact absurd (BitVec.eq_of_toNat_eq (by simpa using h')) hx
    · exact h'
  have := Nat.mul_le_mul (pos w hw) (pos h hh)
  refine ⟨by omega, hp, ?_⟩
  rw [BitVec.toNat_ofNat]
  omega

theorem frameEncBody_raises (s : State) (hm : s.cfg.maxPixels < 2 ^ 32) :
    Raises (mayRaise .frameEnc) (frameEncBody s) := by
  intro e h
  unfold frameEncBody at h
  split at h
  · rename_i hn
    cases h
    exact writeHeaderBody_raises _ _ hn
  · rename_i t ht
    obtain ⟨hk, -, m, -, rfl⟩ := writeHeaderBody_ok _ _ ht
    unfold writeHeaderOk at hk
    rw [Bool.and_eq_true] at hk
    obtain ⟨h1, h2, h3⟩ := headerOk_count _ _ _ _ _ _ hm hk.1
    have hb : badPixelCount (setNpixFromHeader { s with
        outMem := m, regs := { s.regs with wrPos := 20, wrNib := 0, wrAcc := 0 } }) = false := by
      unfold badPixelCount setNpixFromHeader
      simp only [h3, decide_eq_false_iff_not]
      omega
    have := rdcEncodeBody_raises _ _ h
    rw [hb] at this
    simp only [Bool.false_eq_true, if_false, List.mem_singleton] at this
    subst this
    decide

/-- A command raises only what 60_exceptions.md R240 says it raises. -/
theorem bodyOf_raises (i : Instr) (s : State) (hm : s.cfg.maxPixels < 2 ^ 32) : Raises (mayRaise i) (bodyOf i s) := by
  cases i with
  | nop => exact Raises.ok _ _
  | vleDec =>
    intro e h
    simp only [bodyOf] at h
    split at h
    · cases h
    · rename_i hn
      cases h
      exact vleDecode_raises _ _ hn
  | vleEnc => exact vleEncode_raises _ _
  | vleFlush => exact flushWord_raises _
  | zzEnc => exact Raises.ok _ _
  | zzDec => exact Raises.ok _ _
  | rdcDec =>
    intro e h
    simp only [bodyOf, markFrame] at h
    split at h
    · cases h
    · rename_i hn
      cases h
      exact rdcDecodeBody_raises _ _ hn
  | rdcEnc =>
    refine (rdcEncodeBody_raises s).mono fun e he => ?_
    split at he <;> simp only [List.mem_singleton] at he <;> subst he <;> decide
  | fcParseBin => exact fcParseBody_raises _ _ _
  | fcParseText => exact fcParseBody_raises _ _ _
  | fcParseTextClip => exact fcParseBody_raises _ _ _
  | fcWrite => exact writeHeaderBody_raises _
  | frameDecBin => exact frameDecBody_raises _ _ _
  | frameDecText => exact frameDecBody_raises _ _ _
  | frameDecTextClip => exact frameDecBody_raises _ _ _
  | frameEnc => exact frameEncBody_raises _ hm

end Sys2Proof.Machine
end

