-- ==== Sys2Proof/Laws/FloatSyntax.lean ====
section
/-! SUPPORT. The parts of a float field read as the productions spell them (30_encoding.md R109). -/

namespace Sys2Proof.Machine

open Sys2Proof

/-- The list does not begin with an element that satisfies `p`. -/
def HeadNot (p : Byte → Bool) (l : List Byte) : Prop := ∀ b bs, l = b :: bs → p b = false

theorem headNot_nil (p : Byte → Bool) : HeadNot p [] := by intro b bs h; cases h

theorem headNot_cons (p : Byte → Bool) (b : Byte) (bs : List Byte) (h : p b = false) : HeadNot p (b :: bs) := by
  intro c cs hc
  cases hc
  exact h

theorem headNot_dropWhile (p : Byte → Bool) (l : List Byte) : HeadNot p (l.dropWhile p) := by
  induction l with
  | nil => exact headNot_nil p
  | cons b bs ih =>
    rw [List.dropWhile_cons]
    split
    · exact ih
    · rename_i h
      exact headNot_cons p b bs (by simpa using h)

theorem takeWhile_of_headNot (p : Byte → Bool) (l r : List Byte) (hl : ∀ b ∈ l, p b = true) (hr : HeadNot p r) :
    (l ++ r).takeWhile p = l ∧ (l ++ r).dropWhile p = r := by
  induction l with
  | nil =>
    cases r with
    | nil => exact ⟨rfl, rfl⟩
    | cons b bs =>
      have := hr b bs rfl
      exact ⟨by simp [this], by simp [this]⟩
  | cons b bs ih =>
    obtain ⟨h₁, h₂⟩ := ih fun c hc => hl c (by simp [hc])
    have := hl b (by simp)
    exact ⟨by simp [this, h₁], by simp [this, h₂]⟩

theorem mem_takeWhile_digit (l : List Byte) : ∀ b ∈ l.takeWhile isDigit, isDigit b = true := by
  intro b hb
  exact List.mem_takeWhile_imp hb

theorem digit_not_sign (b : Byte) (h : isDigit b = true) : b ≠ 0x2D ∧ b ≠ 0x2B ∧ b ≠ 0x2E ∧ b ≠ 0x65 ∧ b ≠ 0x45 := by
  unfold isDigit at h
  rw [decide_eq_true_iff] at h
  refine ⟨?_, ?_, ?_, ?_, ?_⟩ <;> (rintro rfl; revert h; decide)

theorem takeSign_cons (b : Byte) (bs : List Byte) : takeSign (b :: bs) =
    if b = 0x2D then (true, bs) else if b = 0x2B then (false, bs) else (false, b :: bs) := rfl

theorem takeExponent_cons (b : Byte) (bs : List Byte) : takeExponent (b :: bs) =
    if b = 0x65 ∨ b = 0x45 then
      if (takeSign bs).2 ≠ [] ∧ (takeSign bs).2.all isDigit then
        some (if (takeSign bs).1 then -(digitsValue 0 (takeSign bs).2 : Int) else digitsValue 0 (takeSign bs).2)
      else none
    else none := rfl

/-- `sign?` is read as it is spelled (30_encoding.md R109). -/
theorem takeSign_of_sign (sg r : List Byte) (neg : Bool) (h : IsSign sg neg)
    (hr : ∀ b bs, r = b :: bs → b ≠ 0x2D ∧ b ≠ 0x2B) : takeSign (sg ++ r) = (neg, r) := by
  rcases h with ⟨rfl, rfl⟩ | ⟨rfl, rfl⟩ | ⟨rfl, rfl⟩
  · cases r with
    | nil => rfl
    | cons b bs =>
      obtain ⟨h₁, h₂⟩ := hr b bs rfl
      rw [List.nil_append, takeSign_cons, if_neg h₁, if_neg h₂]
  · rfl
  · rfl

theorem takeSign_spelled (l : List Byte) : ∃ sg, l = sg ++ (takeSign l).2 ∧ IsSign sg (takeSign l).1 := by
  cases l with
  | nil => exact ⟨[], rfl, .inl ⟨rfl, rfl⟩⟩
  | cons b bs =>
    rw [takeSign_cons]
    split
    · rename_i h
      exact ⟨[b], rfl, .inr (.inr ⟨by rw [h], rfl⟩)⟩
    · split
      · rename_i h
        exact ⟨[b], rfl, .inr (.inl ⟨by rw [h], rfl⟩)⟩
      · exact ⟨[], rfl, .inl ⟨rfl, rfl⟩⟩

theorem isDigits_head (ds : List Byte) (h : IsDigits ds) : ∀ b bs, ds = b :: bs → b ≠ 0x2D ∧ b ≠ 0x2B := by
  rintro b bs rfl
  obtain ⟨h₁, h₂, -⟩ := digit_not_sign b (h.2 b (by simp))
  exact ⟨h₁, h₂⟩

/-- `exponent?` is read exactly as it is spelled (30_encoding.md R109). -/
theorem takeExponent_iff (ex : List Byte) (e : Int) : takeExponent ex = some e ↔ IsExponent ex e := by
  cases ex with
  | nil =>
    constructor
    · intro h
      cases h
      exact .inl ⟨rfl, rfl⟩
    · rintro (⟨-, rfl⟩ | ⟨_, _, _, _, h, -⟩)
      · rfl
      · cases h
  | cons b bs =>
    constructor
    · intro h
      rw [takeExponent_cons] at h
      split at h
      · rename_i hb
        split at h
        · rename_i hd
          obtain ⟨sg, hs, hsg⟩ := takeSign_spelled bs
          simp only [Option.some.injEq] at h
          refine .inr ⟨b, sg, (takeSign bs).1, (takeSign bs).2, by rw [← hs], hb, hsg, ⟨hd.1, ?_⟩, h.symm⟩
          simpa using hd.2
        · cases h
      · cases h
    · rintro (⟨h, -⟩ | ⟨mark, sg, neg, ds, h, hm, hsg, hds, rfl⟩)
      · cases h
      · cases h
        rw [takeExponent_cons, if_pos hm, takeSign_of_sign sg ds neg hsg (isDigits_head ds hds)]
        dsimp only
        rw [if_pos ⟨hds.1, by simpa using hds.2⟩]

/-- What follows a mantissa begins with neither a digit nor a point. -/
theorem isExponent_head (ex : List Byte) (e : Int) (h : IsExponent ex e) :
    HeadNot isDigit ex ∧ HeadNot (fun b => b == 0x2E) ex := by
  rcases h with ⟨rfl, -⟩ | ⟨mark, sg, neg, ds, rfl, hm, -⟩
  · exact ⟨headNot_nil _, headNot_nil _⟩
  · rcases hm with rfl | rfl
    · exact ⟨headNot_cons _ _ _ (by decide), headNot_cons _ _ _ (by decide)⟩
    · exact ⟨headNot_cons _ _ _ (by decide), headNot_cons _ _ _ (by decide)⟩

/-- The split of `parseFlt` after the sign: integer digits, fraction digits and what follows (30_encoding.md R109). -/
def splitMantissa (body : List Byte) : List Byte × List Byte × List Byte :=
  match body.dropWhile isDigit with
  | [] => (body.takeWhile isDigit, [], [])
  | b :: bs =>
    if b = 0x2E then (body.takeWhile isDigit, bs.takeWhile isDigit, bs.dropWhile isDigit)
    else (body.takeWhile isDigit, [], b :: bs)

theorem parseFlt_eq (tok : List Byte) : parseFlt tok =
    let (ints, fracs, tail) := splitMantissa (takeSign tok).2
    if ints = [] ∧ fracs = [] then none
    else (takeExponent tail).map fun e =>
      { neg := (takeSign tok).1, mant := digitsValue 0 (ints ++ fracs), exp := e - fracs.length } := by
  unfold parseFlt splitMantissa
  dsimp only
  cases (takeSign tok).2.dropWhile isDigit with
  | nil =>
    dsimp only
    split
    · rfl
    · rfl
  | cons b bs =>
    dsimp only
    by_cases hb : b = 0x2E
    · simp only [if_pos hb]
      split
      · rfl
      · cases takeExponent (bs.dropWhile isDigit) <;> rfl
    · simp only [if_neg hb]
      split
      · rfl
      · cases takeExponent (b :: bs) <;> rfl

/-- A spelled mantissa is split as it is spelled. -/
theorem splitMantissa_of (man ints fracs ex : List Byte) (h : IsMantissa man ints fracs)
    (h₁ : HeadNot isDigit ex) (h₂ : HeadNot (fun b => b == 0x2E) ex) :
    splitMantissa (man ++ ex) = (ints, fracs, ex) ∧ ¬ (ints = [] ∧ fracs = []) := by
  obtain ⟨hd, h⟩ := h
  have hi : ∀ b ∈ ints, isDigit b = true := fun b hb => hd b (by simp [hb])
  have hf : ∀ b ∈ fracs, isDigit b = true := fun b hb => hd b (by simp [hb])
  have hdot : isDigit 0x2E = false := by decide
  have point (bs : List Byte) : splitMantissa (ints ++ 0x2E :: bs) =
      (ints, bs.takeWhile isDigit, bs.dropWhile isDigit) := by
    obtain ⟨a, b⟩ := takeWhile_of_headNot isDigit ints (0x2E :: bs) hi (headNot_cons _ _ _ hdot)
    unfold splitMantissa
    rw [a, b]
    rfl
  obtain ⟨c, d⟩ := takeWhile_of_headNot isDigit fracs ex hf h₁
  rcases h with ⟨rfl, hne, rfl⟩ | ⟨rfl, hne⟩ | ⟨rfl, rfl, hne⟩
  · obtain ⟨a, b⟩ := takeWhile_of_headNot isDigit man ex hi h₁
    refine ⟨?_, fun h => hne h.1⟩
    unfold splitMantissa
    rw [a, b]
    cases ex with
    | nil => rfl
    | cons x xs =>
      have := h₂ x xs rfl
      simp only [beq_eq_false_iff_ne] at this
      dsimp only
      rw [if_neg this]
  · refine ⟨?_, fun h => hne h.1⟩
    rw [List.append_assoc, List.cons_append, point, c, d]
  · refine ⟨?_, fun h => hne h.2⟩
    have := point (fracs ++ ex)
    rw [List.nil_append] at this
    rw [List.cons_append, this, c, d]

/-- The split of a body spells it, unless it has no digit at all. -/
theorem splitMantissa_spelled (body : List Byte)
    (h : ¬ ((splitMantissa body).1 = [] ∧ (splitMantissa body).2.1 = [])) :
    ∃ man, body = man ++ (splitMantissa body).2.2 ∧ IsMantissa man (splitMantissa body).1 (splitMantissa body).2.1 := by
  have hsplit := (List.takeWhile_append_dropWhile (p := isDigit) (l := body)).symm
  have hints := mem_takeWhile_digit body
  unfold splitMantissa at h ⊢
  cases hrest : body.dropWhile isDigit with
  | nil =>
    rw [hrest] at h hsplit
    dsimp only at h ⊢
    refine ⟨body.takeWhile isDigit, hsplit, by simpa using hints, .inl ⟨rfl, fun he => h ⟨he, rfl⟩, rfl⟩⟩
  | cons b bs =>
    rw [hrest] at h hsplit
    dsimp only at h ⊢
    by_cases hb : b = 0x2E
    · rw [if_pos hb] at h
      rw [if_pos hb]
      dsimp only at h ⊢
      have hbs := (List.takeWhile_append_dropWhile (p := isDigit) (l := bs)).symm
      have hfr := mem_takeWhile_digit bs
      refine ⟨body.takeWhile isDigit ++ 0x2E :: bs.takeWhile isDigit, ?_, ?_, ?_⟩
      · rw [List.append_assoc, List.cons_append, ← hbs, ← hb]
        exact hsplit
      · intro c hc
        rcases List.mem_append.1 hc with hc | hc
        · exact hints c hc
        · exact hfr c hc
      · by_cases hi : body.takeWhile isDigit = []
        · refine .inr (.inr ⟨by rw [hi]; rfl, hi, fun hf => h ⟨hi, hf⟩⟩)
        · exact .inr (.inl ⟨rfl, hi⟩)
    · rw [if_neg hb] at h
      rw [if_neg hb]
      dsimp only at h ⊢
      exact ⟨body.takeWhile isDigit, hsplit, by simpa using hints, .inl ⟨rfl, fun he => h ⟨he, rfl⟩, rfl⟩⟩

/-- A mantissa begins with no sign. -/
theorem isMantissa_head (man ints fracs : List Byte) (h : IsMantissa man ints fracs) :
    ∃ b bs, man = b :: bs ∧ b ≠ 0x2D ∧ b ≠ 0x2B := by
  obtain ⟨hd, h⟩ := h
  have key (l r : List Byte) (hne : l ≠ []) (hl : ∀ b ∈ l, isDigit b = true) :
      ∃ b bs, l ++ r = b :: bs ∧ b ≠ 0x2D ∧ b ≠ 0x2B := by
    cases l with
    | nil => exact absurd rfl hne
    | cons b bs =>
      obtain ⟨h₁, h₂, -⟩ := digit_not_sign b (hl b (by simp))
      exact ⟨b, bs ++ r, rfl, h₁, h₂⟩
  rcases h with ⟨rfl, hne, rfl⟩ | ⟨rfl, hne⟩ | ⟨rfl, rfl, hne⟩
  · obtain ⟨b, bs, h⟩ := key man [] hne (fun b hb => hd b (by simp [hb]))
    exact ⟨b, bs, by simpa using h⟩
  · exact key ints (0x2E :: fracs) hne (fun b hb => hd b (by simp [hb]))
  · exact ⟨0x2E, fracs, rfl, by decide, by decide⟩

end Sys2Proof.Machine
end

