-- ==== Sys2Proof/Laws/Footprint.lean ====
section
/-! SUPPORT. What the pseudocode of each command leaves unchanged, from any state. -/

namespace Sys2Proof.Machine

open Sys2Proof

/-! ## Decoding and encoding footprints -/

/-- Only the read cursor may differ. -/
def Reads (s t : State) : Prop :=
  ∃ a b c, t = { s with regs := { s.regs with rdPos := a, rdAcc := b, rdNib := c } }

/-- Only the read cursor, PIX_MEM, PREV and PIXCNT may differ. -/
def Decodes (s t : State) : Prop :=
  ∃ m a b c p n, t = { s with
    pixMem := m, regs := { s.regs with rdPos := a, rdAcc := b, rdNib := c, prev := p, pixcnt := n } }

/-- Only the write cursor and OUT_MEM may differ. -/
def Writes (s t : State) : Prop :=
  ∃ m a b c, t = { s with outMem := m, regs := { s.regs with wrPos := a, wrAcc := b, wrNib := c } }

/-- Only the write cursor, OUT_MEM, PREV and PIXCNT may differ. -/
def Encodes (s t : State) : Prop :=
  ∃ m a b c p n, t = { s with
    outMem := m, regs := { s.regs with wrPos := a, wrAcc := b, wrNib := c, prev := p, pixcnt := n } }

theorem Reads.refl (s : State) : Reads s s := ⟨_, _, _, rfl⟩
theorem Decodes.refl (s : State) : Decodes s s := ⟨_, _, _, _, _, _, rfl⟩
theorem Writes.refl (s : State) : Writes s s := ⟨_, _, _, _, rfl⟩
theorem Encodes.refl (s : State) : Encodes s s := ⟨_, _, _, _, _, _, rfl⟩

theorem Reads.trans {s t u : State} (h₁ : Reads s t) (h₂ : Reads t u) : Reads s u := by
  obtain ⟨_, _, _, rfl⟩ := h₁
  obtain ⟨_, _, _, rfl⟩ := h₂
  exact ⟨_, _, _, rfl⟩
theorem Decodes.trans {s t u : State} (h₁ : Decodes s t) (h₂ : Decodes t u) : Decodes s u := by
  obtain ⟨_, _, _, _, _, _, rfl⟩ := h₁
  obtain ⟨_, _, _, _, _, _, rfl⟩ := h₂
  exact ⟨_, _, _, _, _, _, rfl⟩
theorem Writes.trans {s t u : State} (h₁ : Writes s t) (h₂ : Writes t u) : Writes s u := by
  obtain ⟨_, _, _, _, rfl⟩ := h₁
  obtain ⟨_, _, _, _, rfl⟩ := h₂
  exact ⟨_, _, _, _, rfl⟩
theorem Encodes.trans {s t u : State} (h₁ : Encodes s t) (h₂ : Encodes t u) : Encodes s u := by
  obtain ⟨_, _, _, _, _, _, rfl⟩ := h₁
  obtain ⟨_, _, _, _, _, _, rfl⟩ := h₂
  exact ⟨_, _, _, _, _, _, rfl⟩

theorem Reads.decodes {s t : State} (h : Reads s t) : Decodes s t := by
  obtain ⟨_, _, _, rfl⟩ := h
  exact ⟨_, _, _, _, _, _, rfl⟩
theorem Writes.encodes {s t : State} (h : Writes s t) : Encodes s t := by
  obtain ⟨_, _, _, _, rfl⟩ := h
  exact ⟨_, _, _, _, _, _, rfl⟩

theorem emitPixel_decodes (cur : Pixel) (s : State) : Decodes s (emitPixel cur s) := ⟨_, _, _, _, _, _, rfl⟩
theorem addPixcnt_decodes (n : Word) (s : State) : Decodes s (addPixcnt n s) := ⟨_, _, _, _, _, _, rfl⟩
theorem startBody_decodes (s : State) : Decodes s (startBody s) := ⟨_, _, _, _, _, _, rfl⟩
theorem startBody_encodes (s : State) : Encodes s (startBody s) := ⟨_, _, _, _, _, _, rfl⟩
theorem putPixel_decodes (i : Nat) (p : Pixel) (s : State) : Decodes s (s.putPixel i p) := ⟨_, _, _, _, _, _, rfl⟩

theorem getNibble_reads (s : State) (n : Nibble) (t : State) (h : getNibble s = .ok (n, t)) : Reads s t := by
  unfold getNibble at h
  split at h
  · split at h
    · cases h
    · cases h; exact ⟨_, _, _, rfl⟩
  · cases h; exact ⟨_, _, _, rfl⟩

theorem vleDecodeFrom_reads (fuel : Nat) (r : Word) (s : State) (v : Word) (t : State)
    (h : vleDecodeFrom fuel r s = .ok (v, t)) : Reads s t := by
  induction fuel generalizing r s with
  | zero => cases h
  | succ fuel ih =>
    unfold vleDecodeFrom at h
    split at h
    · cases h
    · rename_i n u hn
      have h₁ := getNibble_reads _ _ _ hn
      dsimp only at h
      split at h
      · cases h
      · split at h
        · exact h₁.trans (ih _ _ h)
        · cases h; exact h₁

theorem vleDecode_reads (s : State) (v : Word) (t : State) (h : vleDecode s = .ok (v, t)) : Reads s t :=
  vleDecodeFrom_reads _ _ _ _ _ h

theorem putZeros_decodes (i k : Nat) (s : State) : Decodes s (putZeros i k s) := by
  induction k generalizing i s with
  | zero => exact Decodes.refl s
  | succ k ih => exact (putPixel_decodes i 0 s).trans (ih _ _)

theorem decodeDeltas_decodes (k : Nat) (s t : State) (h : decodeDeltas k s = .ok t) : Decodes s t := by
  induction k generalizing s with
  | zero => cases h; exact Decodes.refl _
  | succ k ih =>
    unfold decodeDeltas at h
    split at h
    · cases h
    · rename_i c u hc
      exact ((vleDecode_reads _ _ _ hc).decodes.trans (emitPixel_decodes _ _)).trans (ih _ h)

theorem decodePair_decodes (n : Nat) (s t : State) (h : decodePair n s = .ok t) : Decodes s t := by
  unfold decodePair at h
  split at h
  · cases h
  · rename_i zr u hu
    have h₁ := (vleDecode_reads _ _ _ hu).decodes
    split at h
    · cases h
    · split at h
      · cases h
      · rename_i nzr w hw
        split at h
        · cases h
        · have h₂ : Decodes u (addPixcnt zr (putZeros u.regs.pixcnt.toNat zr.toNat u)) :=
            (putZeros_decodes _ _ u).trans (addPixcnt_decodes _ _)
          exact ((h₁.trans h₂).trans (vleDecode_reads _ _ _ hw).decodes).trans (decodeDeltas_decodes _ _ _ h)

theorem decodePairs_decodes (n fuel : Nat) (s t : State) (h : decodePairs n fuel s = .ok t) : Decodes s t := by
  induction fuel generalizing s with
  | zero => cases h
  | succ fuel ih =>
    unfold decodePairs at h
    split at h
    · cases h
    · rename_i u hu
      have h₁ := decodePair_decodes _ _ _ hu
      split at h
      · cases h; exact h₁
      · exact h₁.trans (ih _ h)

theorem rdcDecodeBody_decodes (s t : State) (h : rdcDecodeBody s = .ok t) : Decodes s t := by
  unfold rdcDecodeBody at h
  split at h
  · cases h
  · exact (startBody_decodes s).trans (decodePairs_decodes _ _ _ _ h)

theorem storeWord_writes (w : Word) (s t : State) (h : storeWord w s = .ok t) : Writes s t := by
  unfold storeWord at h
  split at h
  · cases h
  · cases h; exact ⟨_, _, _, _, rfl⟩

theorem putNibble_writes (n : Nibble) (s t : State) (h : putNibble n s = .ok t) : Writes s t := by
  unfold putNibble at h
  dsimp only at h
  split at h
  · exact storeWord_writes _ _ _ h
  · cases h; exact ⟨_, _, _, _, rfl⟩

theorem putChunks_writes (v : Word) (k : Nat) (s t : State) (h : putChunks v k s = .ok t) : Writes s t := by
  induction k generalizing s with
  | zero => cases h; exact Writes.refl _
  | succ k ih =>
    unfold putChunks at h
    split at h
    · rename_i u hu
      exact (putNibble_writes _ _ _ hu).trans (ih _ h)
    · cases h

theorem vleEncode_writes (v : Word) (s t : State) (h : vleEncode v s = .ok t) : Writes s t := putChunks_writes _ _ _ _ h

theorem flushWord_writes (s t : State) (h : flushWord s = .ok t) : Writes s t := by
  unfold flushWord at h
  split at h
  · cases h; exact Writes.refl _
  · exact storeWord_writes _ _ _ h

theorem encodeDeltas_encodes (j k : Nat) (s t : State) (h : encodeDeltas j k s = .ok t) : Encodes s t := by
  induction k generalizing j s with
  | zero => cases h; exact Encodes.refl _
  | succ k ih =>
    unfold encodeDeltas at h
    dsimp only at h
    split at h
    · cases h
    · rename_i u hu
      exact ((vleEncode_writes _ _ _ hu).encodes.trans ⟨_, _, _, _, _, _, rfl⟩).trans (ih _ _ h)

theorem encodePair_encodes (n i : Nat) (s : State) (t : State) (j : Nat) (h : encodePair n i s = .ok (t, j)) :
    Encodes s t := by
  unfold encodePair at h
  dsimp only at h
  split at h
  · cases h
  · rename_i u hu
    split at h
    · cases h
    · rename_i w hw
      split at h
      · cases h
      · rename_i x hx
        cases h
        exact ((vleEncode_writes _ _ _ hu).trans (vleEncode_writes _ _ _ hw)).encodes.trans
          ((encodeDeltas_encodes _ _ _ _ hx).trans ⟨_, _, _, _, _, _, rfl⟩)

theorem encodePairs_encodes (n fuel i : Nat) (s t : State) (h : encodePairs n fuel i s = .ok t) : Encodes s t := by
  induction fuel generalizing i s with
  | zero => cases h; exact Encodes.refl _
  | succ fuel ih =>
    unfold encodePairs at h
    split at h
    · split at h
      · cases h
      · rename_i u j hu
        exact (encodePair_encodes _ _ _ _ _ hu).trans (ih _ _ h)
    · cases h; exact Encodes.refl _

theorem rdcEncodeBody_encodes (s t : State) (h : rdcEncodeBody s = .ok t) : Encodes s t := by
  unfold rdcEncodeBody at h
  split at h
  · cases h
  · split at h
    · cases h
    · rename_i u hu
      exact ((startBody_encodes s).trans (encodePairs_encodes _ _ _ _ _ hu)).trans
        (flushWord_writes _ _ h).encodes

/-! ## Headers -/

theorem fcParseBody_ok (shape tclip : Bool) (s t : State) (h : fcParseBody shape tclip s = .ok t) :
    ∃ hd, parseHeader shape tclip s = .ok hd ∧ t = setHeader hd s := by
  unfold fcParseBody at h
  split at h
  · cases h
  · split at h
    · cases h
    · rename_i hd hp
      split at h
      · cases h; exact ⟨hd, hp, rfl⟩
      · cases h

theorem frameDecBody_ok (shape tclip : Bool) (s t : State) (h : frameDecBody shape tclip s = .ok t) :
    ∃ hd u, parseHeader shape tclip s = .ok hd ∧ rdcDecodeBody (setNpixFromHeader (setHeader hd s)) = .ok u ∧
      t = setFrameValid u := by
  unfold frameDecBody at h
  split at h
  · cases h
  · rename_i u hu
    obtain ⟨hd, hp, rfl⟩ := fcParseBody_ok _ _ _ _ hu
    split at h
    · cases h
    · rename_i w hw
      cases h
      exact ⟨hd, w, hp, hw, rfl⟩

theorem frameEncBody_ok (s t : State) (h : frameEncBody s = .ok t) :
    ∃ u, writeHeaderBody s = .ok u ∧ rdcEncodeBody (setNpixFromHeader u) = .ok t := by
  unfold frameEncBody at h
  split at h
  · cases h
  · rename_i u hu
    exact ⟨u, hu, h⟩

/-! ## All commands -/

theorem markFrame_ok (r : Except CmdError State) (u : State) (h : markFrame r = .ok u) :
    ∃ w, r = .ok w ∧ u = setFrameValid w := by
  cases r with
  | ok w => cases h; exact ⟨w, rfl, rfl⟩
  | error e => cases h

/-- What a pseudocode that ends without an error leaves of the state, but for the registers. -/
def KeepsRest (s u : State) : Prop :=
  ∃ m p r f, u = { s with outMem := m, pixMem := p, regs := r, status := { s.status with frameValid := f } }

/-- The registers outside the list, STATUS aside, read as before. -/
def KeepsRegs (rs : List RegName) (s u : State) : Prop := ∀ r, r ∉ rs → r ≠ .status → regValue r u = regValue r s

theorem Reads.keepsRegs {s u : State} (h : Reads s u) : KeepsRegs [.rdPos, .rdAcc, .rdNib] s u := by
  obtain ⟨_, _, _, rfl⟩ := h
  intro r h₁ h₂
  cases r <;> first | exact absurd (by decide) h₁ | rfl
theorem Decodes.keepsRegs {s u : State} (h : Decodes s u) :
    KeepsRegs [.rdPos, .rdAcc, .rdNib, .prev, .pixcnt] s u := by
  obtain ⟨_, _, _, _, _, _, rfl⟩ := h
  intro r h₁ h₂
  cases r <;> first | exact absurd (by decide) h₁ | rfl
theorem Writes.keepsRegs {s u : State} (h : Writes s u) : KeepsRegs [.wrPos, .wrAcc, .wrNib] s u := by
  obtain ⟨_, _, _, _, rfl⟩ := h
  intro r h₁ h₂
  cases r <;> first | exact absurd (by decide) h₁ | rfl
theorem Encodes.keepsRegs {s u : State} (h : Encodes s u) :
    KeepsRegs [.wrPos, .wrAcc, .wrNib, .prev, .pixcnt] s u := by
  obtain ⟨_, _, _, _, _, _, rfl⟩ := h
  intro r h₁ h₂
  cases r <;> first | exact absurd (by decide) h₁ | rfl

theorem setVal_keepsRegs (v : Word) (s : State) : KeepsRegs [.val] s (setVal v s) := by
  intro r h₁ h₂
  cases r <;> first | exact absurd (by decide) h₁ | rfl
theorem setHeader_keepsRegs (hd : Header) (s : State) :
    KeepsRegs [.width, .height, .near, .far, .hdr, .payloadOff, .rdPos, .rdNib, .rdAcc] s (setHeader hd s) := by
  intro r h₁ h₂
  cases r <;> first | exact absurd (by decide) h₁ | rfl
theorem setNpixFromHeader_keepsRegs (s : State) : KeepsRegs [.npix] s (setNpixFromHeader s) := by
  intro r h₁ h₂
  cases r <;> first | exact absurd (by decide) h₁ | rfl
theorem setFrameValid_keepsRegs (s : State) : KeepsRegs [] s (setFrameValid s) := by
  intro r h₁ h₂
  cases r <;> first | rfl | exact absurd rfl h₂
theorem writeHeaderBody_writes (s u : State) (h : writeHeaderBody s = .ok u) : Writes s u := by
  obtain ⟨-, -, m, -, rfl⟩ := writeHeaderBody_ok _ _ h
  exact ⟨m, 20, 0, 0, rfl⟩

theorem KeepsRegs.trans {rs rs' : List RegName} {s t u : State} (h₁ : KeepsRegs rs s t) (h₂ : KeepsRegs rs' t u) :
    KeepsRegs (rs ++ rs') s u := fun r hr hs => by
  rw [List.mem_append, not_or] at hr
  rw [h₂ r hr.2 hs, h₁ r hr.1 hs]

theorem KeepsRegs.mono {rs rs' : List RegName} {s u : State} (h : KeepsRegs rs s u) (hs : ∀ r ∈ rs, r ∈ rs') :
    KeepsRegs rs' s u := fun r hr hne => h r (fun hm => hr (hs r hm)) hne

theorem KeepsRest.trans {s t u : State} (h₁ : KeepsRest s t) (h₂ : KeepsRest t u) : KeepsRest s u := by
  obtain ⟨_, _, _, _, rfl⟩ := h₁
  obtain ⟨_, _, _, _, rfl⟩ := h₂
  exact ⟨_, _, _, _, rfl⟩

theorem Decodes.keepsRest {s u : State} (h : Decodes s u) : KeepsRest s u := by
  obtain ⟨_, _, _, _, _, _, rfl⟩ := h
  exact ⟨_, _, _, _, rfl⟩
theorem Encodes.keepsRest {s u : State} (h : Encodes s u) : KeepsRest s u := by
  obtain ⟨_, _, _, _, _, _, rfl⟩ := h
  exact ⟨_, _, _, _, rfl⟩

theorem fcParseBody_footprint (shape tclip : Bool) (s u : State) (h : fcParseBody shape tclip s = .ok u) :
    KeepsRegs (writtenRegs .fcParseBin) s u ∧ KeepsRest s u := by
  obtain ⟨hd, -, rfl⟩ := fcParseBody_ok _ _ _ _ h
  exact ⟨setHeader_keepsRegs hd s, ⟨_, _, _, _, rfl⟩⟩

theorem frameDecBody_footprint (shape tclip : Bool) (s u : State) (h : frameDecBody shape tclip s = .ok u) :
    KeepsRegs (writtenRegs .frameDecBin) s u ∧ KeepsRest s u := by
  obtain ⟨hd, w, -, hw, rfl⟩ := frameDecBody_ok _ _ _ _ h
  have hw := rdcDecodeBody_decodes _ _ hw
  refine ⟨((((setHeader_keepsRegs hd s).trans (setNpixFromHeader_keepsRegs _)).trans hw.keepsRegs).trans
    (setFrameValid_keepsRegs w)).mono (by decide), ?_⟩
  have h₁ : KeepsRest s (setNpixFromHeader (setHeader hd s)) := ⟨_, _, _, _, rfl⟩
  exact (h₁.trans hw.keepsRest).trans ⟨_, _, _, _, rfl⟩

/-- A pseudocode that ends without an error changes no register that its rule does not name, and of the rest only
OUT_MEM, PIX_MEM and FRAME_VALID. -/
theorem bodyOf_footprint (i : Instr) (s u : State) (h : bodyOf i s = .ok u) :
    KeepsRegs (writtenRegs i) s u ∧ KeepsRest s u := by
  cases i with
  | nop => cases h; exact ⟨fun _ _ _ => rfl, ⟨_, _, _, _, rfl⟩⟩
  | vleDec =>
    simp only [bodyOf] at h
    split at h
    · rename_i v w hw
      cases h
      have hw := vleDecode_reads _ _ _ hw
      exact ⟨(hw.keepsRegs.trans (setVal_keepsRegs v w)).mono (by decide), hw.decodes.keepsRest.trans ⟨_, _, _, _, rfl⟩⟩
    · cases h
  | vleEnc =>
    have hw := vleEncode_writes _ _ _ h
    exact ⟨hw.keepsRegs, hw.encodes.keepsRest⟩
  | vleFlush =>
    have hw := flushWord_writes _ _ h
    exact ⟨hw.keepsRegs, hw.encodes.keepsRest⟩
  | zzEnc => cases h; exact ⟨setVal_keepsRegs _ s, ⟨_, _, _, _, rfl⟩⟩
  | zzDec => cases h; exact ⟨setVal_keepsRegs _ s, ⟨_, _, _, _, rfl⟩⟩
  | rdcDec =>
    obtain ⟨w, hw, rfl⟩ := markFrame_ok _ _ h
    have hw := rdcDecodeBody_decodes _ _ hw
    exact ⟨(hw.keepsRegs.trans (setFrameValid_keepsRegs w)).mono (by decide), hw.keepsRest.trans ⟨_, _, _, _, rfl⟩⟩
  | rdcEnc =>
    have hw := rdcEncodeBody_encodes _ _ h
    exact ⟨hw.keepsRegs, hw.keepsRest⟩
  | fcParseBin => exact fcParseBody_footprint _ _ _ _ h
  | fcParseText => exact fcParseBody_footprint _ _ _ _ h
  | fcParseTextClip => exact fcParseBody_footprint _ _ _ _ h
  | fcWrite => 
    have hw := writeHeaderBody_writes _ _ h
    exact ⟨hw.keepsRegs.mono (by decide), hw.encodes.keepsRest⟩
  | frameDecBin => exact frameDecBody_footprint _ _ _ _ h
  | frameDecText => exact frameDecBody_footprint _ _ _ _ h
  | frameDecTextClip => exact frameDecBody_footprint _ _ _ _ h
  | frameEnc =>
    obtain ⟨w, hw, h⟩ := frameEncBody_ok _ _ h
    have he := rdcEncodeBody_encodes _ _ h
    have hw := writeHeaderBody_writes _ _ hw
    refine ⟨((hw.keepsRegs.trans (setNpixFromHeader_keepsRegs _)).trans he.keepsRegs).mono (by decide),
      (hw.encodes.keepsRest.trans ?_).trans he.keepsRest⟩
    exact ⟨_, _, _, _, rfl⟩

end Sys2Proof.Machine
end

