-- ==== Sys2Proof/Laws/Vle.lean ====
section
/-! SUPPORT. VleEncode and VleDecode said once in the terms of `vleCode` and `CodeOf` (40_vlecoder.md R130, R131). -/

namespace Sys2Proof.Machine

/-! ## The length of a code -/

theorem vleLength_spec (v : Word) : 1 ≤ vleLength v ∧ vleLength v ≤ 11 ∧ v.toNat < 8 ^ vleLength v ∧
    (vleLength v = 1 ∨ 8 ^ (vleLength v - 1) ≤ v.toNat) := by
  have hlt := v.isLt
  unfold vleLength
  by_cases h0 : v = 0
  · subst h0; simp
  · have hne : v.toNat ≠ 0 := fun h => h0 (BitVec.eq_of_toNat_eq (by simpa using h))
    rw [if_neg h0]
    have h1 := Nat.log2_self_le hne
    have h2 := Nat.lt_log2_self (n := v.toNat)
    have h3 : Nat.log2 v.toNat < 32 := (Nat.log2_lt hne).2 hlt
    have e : ∀ k, 8 ^ k = 2 ^ (3 * k) := fun k => by rw [pow_mul]; norm_num
    refine ⟨by omega, by omega, ?_, .inr ?_⟩
    · rw [e]; exact lt_of_lt_of_le h2 (Nat.pow_le_pow_right (by norm_num) (by omega))
    · rw [e]; exact le_trans (Nat.pow_le_pow_right (by norm_num) (by omega)) h1

theorem length_unique (v a b : Nat) (ha : v < 8 ^ a) (ha' : a = 1 ∨ 8 ^ (a - 1) ≤ v) (ha1 : 1 ≤ a)
    (hb : v < 8 ^ b) (hb' : b = 1 ∨ 8 ^ (b - 1) ≤ v) (hb1 : 1 ≤ b) : a = b := by
  have key : ∀ x y, v < 8 ^ x → (y = 1 ∨ 8 ^ (y - 1) ≤ v) → 1 ≤ x → 1 ≤ y → y ≤ x := by
    intro x y hx hy h1 h1'
    rcases hy with rfl | hy
    · exact h1
    · by_contra hc
      have := Nat.pow_le_pow_right (n := 8) (by norm_num) (show x ≤ y - 1 by omega)
      omega
  exact le_antisymm (key b a hb ha' hb1 ha1) (key a b ha hb' ha1 hb1)

theorem shift_eq_zero_iff (v : Word) (k : Nat) : v >>> (3 * k) = 0 ↔ v.toNat < 8 ^ k := by
  have e : (8 : Nat) ^ k = 2 ^ (3 * k) := by rw [pow_mul]; norm_num
  rw [e, ← Nat.div_eq_zero_iff_lt (by positivity)]
  constructor
  · intro h
    have := congrArg BitVec.toNat h
    simpa [BitVec.toNat_ushiftRight, Nat.shiftRight_eq_div_pow] using this
  · intro h
    apply BitVec.eq_of_toNat_eq
    rw [BitVec.toNat_ushiftRight, Nat.shiftRight_eq_div_pow, h]
    rfl

theorem chunkCountFrom_spec (v : Word) (fuel k : Nat) (hk : k + fuel = 11) (h1 : 1 ≤ k)
    (hl : k = 1 ∨ 8 ^ (k - 1) ≤ v.toNat) :
    1 ≤ chunkCountFrom v fuel k ∧ v.toNat < 8 ^ chunkCountFrom v fuel k ∧
      (chunkCountFrom v fuel k = 1 ∨ 8 ^ (chunkCountFrom v fuel k - 1) ≤ v.toNat) := by
  induction fuel generalizing k with
  | zero =>
    have := v.isLt
    obtain rfl : k = 11 := by omega
    exact ⟨by simp [chunkCountFrom], by simp only [chunkCountFrom]; omega, by simpa [chunkCountFrom] using hl⟩
  | succ fuel ih =>
    unfold chunkCountFrom
    split
    · rename_i h
      rw [Ne, shift_eq_zero_iff] at h
      exact ih (k + 1) (by omega) (by omega) (.inr (by simpa using h))
    · rename_i h
      rw [not_not, shift_eq_zero_iff] at h
      exact ⟨h1, h, hl⟩

theorem chunkCount_eq (v : Word) : chunkCount v = vleLength v := by
  obtain ⟨a, b, c⟩ := chunkCountFrom_spec v 10 1 (by omega) (by omega) (.inl rfl)
  obtain ⟨d, -, e, f⟩ := vleLength_spec v
  exact length_unique v.toNat _ _ b c a e f d

/-! ## Encoding -/

theorem chunkNibble_toNat (v : Word) (i : Nat) :
    (chunkNibble v i).toNat = (if i ≠ 0 then 8 else 0) + v.toNat / 2 ^ (3 * i) % 8 := by
  unfold chunkNibble
  rw [BitVec.toNat_append, ← Nat.shiftLeft_add_eq_or_of_lt (BitVec.isLt _), Nat.shiftLeft_eq]
  simp only [BitVec.extractLsb'_toNat, BitVec.toNat_ushiftRight, Nat.shiftRight_eq_div_pow]
  by_cases h : i = 0 <;> simp [h]

theorem vleNibble_eq (v : Word) (i : Nat) (h : i < vleLength v) : vleNibble v i = chunkNibble v (vleLength v - 1 - i) := by
  apply BitVec.eq_of_toNat_eq
  rw [chunkNibble_toNat, vleNibble, BitVec.toNat_ofNat]
  by_cases hi : i < vleLength v - 1
  · rw [if_pos hi, if_pos (by omega)]; omega
  · rw [if_neg hi, if_neg (by omega)]; omega

theorem putChunks_eq (v : Word) (k : Nat) (s : State) :
    putChunks v k s = putNibbles ((List.range k).map (fun i => chunkNibble v (k - 1 - i))) s := by
  induction k generalizing s with
  | zero => rfl
  | succ k ih =>
    rw [List.range_succ_eq_map, List.map_cons, List.map_map, putChunks, putNibbles]
    simp only [Nat.add_sub_cancel, Nat.sub_zero]
    cases putNibble (chunkNibble v k) s with
    | error e => rfl
    | ok t =>
      simp only [ih]
      congr 1
      refine List.map_congr_left fun i _ => ?_
      simp only [Function.comp_apply]
      congr 1
      omega

/-- `VleEncode(v)` appends the code of `v` (40_vlecoder.md R130, 30_encoding.md R98, R99). -/
theorem vleEncode_eq (v : Word) (s : State) : vleEncode v s = putNibbles (vleCode v) s := by
  unfold vleEncode
  rw [putChunks_eq, chunkCount_eq]
  congr 1
  refine List.map_congr_left fun i hi => ?_
  rw [vleNibble_eq v i (List.mem_range.1 hi)]

/-- All that `VleEncode` can do: the whole code appended, or IoError. -/
theorem vleEncode_spec (v : Word) (s : State) (hw : WriteCursorOk s.regs) (hc : s.cfg.outCap < 2 ^ 32) :
    (RoomFor (vleCode v) s → vleEncode v s = .ok (appendNibbles (vleCode v) s)) ∧
    (¬ RoomFor (vleCode v) s → vleEncode v s = .error .ioError) := by
  rw [vleEncode_eq]
  exact putNibbles_spec _ s hw hc

/-! ## Codes -/

theorem codeValue_snoc (c : List Nibble) (n : Nibble) : codeValue (c ++ [n]) = 8 * codeValue c + n.toNat % 8 := by
  simp [codeValue]

theorem isCont_iff (n : Nibble) : isCont n = true ↔ 8 ≤ n.toNat := by
  unfold isCont
  revert n
  decide

@[simp] theorem vleCode_length (v : Word) : (vleCode v).length = vleLength v := by simp [vleCode]

/-- The code of `v` spells `v` (30_encoding.md R98, R101). -/
theorem vleCode_codeOf (v : Word) : CodeOf (vleCode v) v := by
  obtain ⟨h1, h2, h3, -⟩ := vleLength_spec v
  have hn : ∀ i, i < vleLength v → (vleNibble v i).toNat =
      (if vleLength v - 1 - i ≠ 0 then 8 else 0) + v.toNat / 2 ^ (3 * (vleLength v - 1 - i)) % 8 := fun i hi => by
    rw [vleNibble_eq v i hi, chunkNibble_toNat]
  have hval : ∀ k, k ≤ vleLength v → codeValue ((List.range k).map (vleNibble v)) = v.toNat / 8 ^ (vleLength v - k) := by
    intro k hk
    induction k with
    | zero =>
      rw [Nat.sub_zero, Nat.div_eq_of_lt h3]
      rfl
    | succ k ih =>
      rw [List.range_succ, List.map_append, List.map_singleton, codeValue_snoc, ih (by omega), hn k (by omega)]
      have e : vleLength v - k = vleLength v - (k + 1) + 1 := by omega
      have e' : (2 : Nat) ^ (3 * (vleLength v - 1 - k)) = 8 ^ (vleLength v - (k + 1)) := by
        rw [pow_mul, show vleLength v - 1 - k = vleLength v - (k + 1) by omega]; norm_num
      rw [e', e, pow_succ, ← Nat.div_div_eq_div_mul]
      split <;> omega
  refine ⟨⟨(List.range (vleLength v - 1)).map (vleNibble v), vleNibble v (vleLength v - 1), ?_, ?_, ?_, ?_⟩, ?_⟩
  · rw [vleCode, show vleLength v = vleLength v - 1 + 1 by omega, List.range_succ]
    simp
  · simp; omega
  · intro m hm
    obtain ⟨i, hi, rfl⟩ := List.mem_map.1 hm
    rw [List.mem_range] at hi
    rw [isCont_iff, hn i (by omega), if_pos (by omega)]
    omega
  · rw [← Bool.not_eq_true, isCont_iff, hn _ (by omega)]
    simp
    omega
  · rw [vleCode, hval _ le_rfl, Nat.sub_self, pow_zero, Nat.div_one]

/-! ## Decoding -/

theorem shift29_iff (r : Word) : r >>> 29 ≠ 0 ↔ 2 ^ 29 ≤ r.toNat := by
  rw [not_iff_comm, Nat.not_le, ← Nat.div_eq_zero_iff_lt (by positivity)]
  constructor
  · intro h
    apply BitVec.eq_of_toNat_eq
    rw [BitVec.toNat_ushiftRight, Nat.shiftRight_eq_div_pow, h]
    rfl
  · intro h
    have := congrArg BitVec.toNat h
    simpa [BitVec.toNat_ushiftRight, Nat.shiftRight_eq_div_pow] using this

theorem accumulate_toNat (r : Word) (n : Nibble) (h : r.toNat < 2 ^ 29) :
    ((r <<< 3) ||| (n.extractLsb' 0 3).setWidth 32).toNat = 8 * r.toNat + n.toNat % 8 := by
  have hn := n.isLt
  have hs : (r <<< 3).toNat = 8 * r.toNat := by
    rw [BitVec.toNat_shiftLeft, Nat.shiftLeft_eq]
    omega
  have hm : ((n.extractLsb' 0 3).setWidth 32).toNat = n.toNat % 8 := by
    rw [BitVec.toNat_setWidth, BitVec.extractLsb'_toNat]
    simp
    omega
  rw [BitVec.toNat_or, hs, hm, show 8 * r.toNat = r.toNat <<< 3 by rw [Nat.shiftLeft_eq]; omega,
    ← Nat.shiftLeft_add_eq_or_of_lt (by omega)]

/-- The number that nibbles spell after the number `r`. -/
def spell (r : Nat) (ns : List Nibble) : Nat := ns.foldl (fun r n => 8 * r + n.toNat % 8) r

theorem spell_cons (r : Nat) (n : Nibble) (ns : List Nibble) : spell r (n :: ns) = spell (8 * r + n.toNat % 8) ns := rfl

theorem codeValue_eq_spell (c : List Nibble) : codeValue c = spell 0 c := rfl

theorem spell_snoc (r : Nat) (ns : List Nibble) (n : Nibble) : spell r (ns ++ [n]) = 8 * spell r ns + n.toNat % 8 := by
  simp [spell]

theorem spell_lt (a r : Nat) (ns : List Nibble) (h : r < 8 ^ a) : spell r ns < 8 ^ (a + ns.length) := by
  induction ns generalizing a r with
  | nil => exact h
  | cons n ns ih =>
    rw [spell_cons, List.length_cons, show a + (ns.length + 1) = a + 1 + ns.length by omega]
    exact ih (a + 1) _ (by rw [pow_succ]; omega)

/-- The loop of `VleDecode` passes over nibbles with continuation bit 1, at most ten in all, without an error. -/
theorem vleDecodeFrom_prefix (ns rest : List Nibble) (a fuel : Nat) (r : Word) (s : State) (hs : ReadCursorOk s.regs)
    (hr : readStream s = ns ++ rest) (hns : ∀ m ∈ ns, isCont m = true) (ha : r.toNat < 8 ^ a) (hl : a + ns.length ≤ 10) :
    ∃ r' : Word, r'.toNat = spell r.toNat ns ∧
      vleDecodeFrom (ns.length + fuel) r s = vleDecodeFrom fuel r' (advanceRead ns.length s) := by
  induction ns generalizing a r s with
  | nil => exact ⟨r, rfl, by simp [advanceRead_zero]⟩
  | cons m ns ih =>
    obtain ⟨h₁, h₂, h₃⟩ := getNibble_cons s m (ns ++ rest) hs hr
    have h9 : r.toNat < 2 ^ 29 := lt_of_lt_of_le ha (le_trans (Nat.pow_le_pow_right (by norm_num)
      (show a ≤ 9 by simp at hl; omega)) (by norm_num))
    have hacc := accumulate_toNat r m h9
    obtain ⟨r', hr', he⟩ := ih (a + 1) ((r <<< 3) ||| (m.extractLsb' 0 3).setWidth 32) (advanceRead 1 s) h₃ h₂
      (fun x hx => hns x (by simp [hx])) (by rw [hacc, pow_succ]; omega) (by simp at hl; omega)
    refine ⟨r', by rw [hr', hacc, spell_cons], ?_⟩
    rw [List.length_cons, show ns.length + 1 + fuel = ns.length + fuel + 1 by omega, vleDecodeFrom, h₁]
    dsimp only
    rw [if_neg (by rw [shift29_iff]; omega), show m.getLsbD 3 = true from hns m (by simp), if_pos rfl, he,
      advanceRead_succ ns.length s (rdPos_of_cons s _ _ hr)]

/-- A code at the head of the read stream is read whole (40_vlecoder.md R131). -/
theorem vleDecode_code (c rest : List Nibble) (v : Word) (s : State) (hs : ReadCursorOk s.regs)
    (hr : readStream s = c ++ rest) (hc : CodeOf c v) : vleDecode s = .ok (v, advanceRead c.length s) := by
  obtain ⟨⟨ns, n, rfl, hl, hns, hn⟩, hv⟩ := hc
  rw [List.append_assoc, List.singleton_append] at hr
  obtain ⟨r', hr', he⟩ := vleDecodeFrom_prefix ns (n :: rest) 0 (11 - ns.length) 0 s hs hr hns (by simp) (by omega)
  obtain ⟨h₂, h₃⟩ := readStream_advance ns (n :: rest) s hs hr
  obtain ⟨h₄, -, -⟩ := getNibble_cons _ n rest h₃ h₂
  have hlt := v.isLt
  rw [codeValue_snoc] at hv
  have hr0 : r'.toNat = codeValue ns := hr'
  have hacc := accumulate_toNat r' n (by omega)
  rw [vleDecode, show (11 : Nat) = ns.length + (11 - ns.length) by omega, he,
    show 11 - ns.length = 10 - ns.length + 1 by omega, vleDecodeFrom, h₄]
  dsimp only
  rw [if_neg (by rw [shift29_iff]; omega), show n.getLsbD 3 = false from hn, if_neg (by simp),
    List.length_append, List.length_singleton,
    ← List.length_singleton (a := n), advanceRead_append ns [n] rest s hs (by simpa using hr)]
  congr 2
  exact BitVec.eq_of_toNat_eq (by rw [hacc, ← hv, hr0])

/-- A stream that ends inside a code: TruncatedStream (40_vlecoder.md R131). -/
theorem vleDecode_truncated (s : State) (hs : ReadCursorOk s.regs) (hns : ∀ m ∈ readStream s, isCont m = true)
    (hl : (readStream s).length < 11) : vleDecode s = .error .truncatedStream := by
  obtain ⟨r', -, he⟩ := vleDecodeFrom_prefix (readStream s) [] 0 (11 - (readStream s).length) 0 s hs (by simp) hns
    (by simp) (by omega)
  obtain ⟨h₂, -⟩ := readStream_advance (readStream s) [] s hs (by simp)
  rw [vleDecode, show (11 : Nat) = (readStream s).length + (11 - (readStream s).length) by omega, he,
    show 11 - (readStream s).length = 10 - (readStream s).length + 1 by omega, vleDecodeFrom, getNibble_nil _ h₂]

/-- Eleven nibbles that do not end a code, or a code of 2^32 or more: VleOverflow (40_vlecoder.md R131). -/
theorem vleDecode_overflow (c rest : List Nibble) (s : State) (hs : ReadCursorOk s.regs) (hr : readStream s = c ++ rest)
    (hc : (c.length = 11 ∧ ∀ n ∈ c, isCont n = true) ∨ (IsCode c ∧ 2 ^ 32 ≤ codeValue c)) :
    vleDecode s = .error .vleOverflow := by
  obtain ⟨ns, n, rfl, hl, hns, hn⟩ : ∃ ns n, c = ns ++ [n] ∧ ns.length = 10 ∧ (∀ m ∈ ns, isCont m = true) ∧
      (isCont n = true ∨ 2 ^ 32 ≤ codeValue (ns ++ [n])) := by
    rcases hc with ⟨hl, hc⟩ | ⟨⟨ns, n, rfl, hl, hns, -⟩, hv⟩
    · have hne : c ≠ [] := by rintro rfl; simp at hl
      refine ⟨c.dropLast, c.getLast hne, (List.dropLast_append_getLast hne).symm, by simp [hl], ?_, ?_⟩
      · exact fun m hm => hc m (List.mem_of_mem_dropLast hm)
      · exact .inl (hc _ (List.getLast_mem hne))
    · refine ⟨ns, n, rfl, ?_, hns, .inr hv⟩
      by_contra hx
      have h := spell_lt 0 0 ns (by simp)
      rw [codeValue_snoc, codeValue_eq_spell] at hv
      have : (8 : Nat) ^ (0 + ns.length) ≤ 8 ^ 9 := Nat.pow_le_pow_right (by norm_num) (by omega)
      omega
  rw [List.append_assoc, List.singleton_append] at hr
  obtain ⟨r', hr', he⟩ := vleDecodeFrom_prefix ns (n :: rest) 0 1 0 s hs hr hns (by simp) (by omega)
  obtain ⟨h₂, h₃⟩ := readStream_advance ns (n :: rest) s hs hr
  obtain ⟨h₄, -, -⟩ := getNibble_cons _ n rest h₃ h₂
  rw [hl] at he h₄
  have hr0 : r'.toNat = codeValue ns := hr'
  rw [vleDecode, he, vleDecodeFrom, h₄]
  dsimp only
  by_cases h29 : r' >>> 29 ≠ 0
  · rw [if_pos h29]
  · rw [if_neg h29]
    rw [shift29_iff] at h29
    rcases hn with hn | hn
    · rw [show n.getLsbD 3 = true from hn, if_pos rfl]
      rfl
    · rw [codeValue_snoc] at hn
      have := n.isLt
      omega

/-- Every stream begins with a code in the domain, or with one outside it, or ends inside a code. -/
theorem stream_cases (l : List Nibble) :
    (∃ c rest v, l = c ++ rest ∧ CodeOf c v) ∨
    (∃ c rest, l = c ++ rest ∧ ((c.length = 11 ∧ ∀ n ∈ c, isCont n = true) ∨ (IsCode c ∧ 2 ^ 32 ≤ codeValue c))) ∨
    ((∀ n ∈ l, isCont n = true) ∧ l.length < 11) := by
  have hsplit := (List.takeWhile_append_dropWhile (p := isCont) (l := l)).symm
  have hpre : ∀ n ∈ l.takeWhile isCont, isCont n = true := fun n hn => List.mem_takeWhile_imp hn
  by_cases hlen : 11 ≤ (l.takeWhile isCont).length
  · refine .inr (.inl ⟨(l.takeWhile isCont).take 11, (l.takeWhile isCont).drop 11 ++ l.dropWhile isCont, ?_, .inl ⟨?_, ?_⟩⟩)
    · rw [← List.append_assoc, List.take_append_drop]; exact hsplit
    · simp; omega
    · exact fun n hn => hpre n (List.mem_of_mem_take hn)
  · cases hd : l.dropWhile isCont with
    | nil =>
      rw [hd, List.append_nil] at hsplit
      exact .inr (.inr ⟨fun n hn => hpre n (hsplit ▸ hn), by rw [hsplit]; omega⟩)
    | cons n rest =>
      have hn : isCont n = false := by
        have := List.head_dropWhile_not (p := isCont) (l := l) (by simp [hd])
        simpa [hd] using this
      have hcode : IsCode (l.takeWhile isCont ++ [n]) := ⟨_, n, rfl, by omega, hpre, hn⟩
      have hl : l = (l.takeWhile isCont ++ [n]) ++ rest := by
        rw [List.append_assoc, List.singleton_append, ← hd]; exact hsplit
      by_cases hv : codeValue (l.takeWhile isCont ++ [n]) < 2 ^ 32
      · refine .inl ⟨_, rest, BitVec.ofNat 32 (codeValue (l.takeWhile isCont ++ [n])), hl, hcode, ?_⟩
        rw [BitVec.toNat_ofNat, Nat.mod_eq_of_lt hv]
      · exact .inr (.inl ⟨_, rest, hl, .inr ⟨hcode, by omega⟩⟩)

/-- All that `VleDecode` can do (40_vlecoder.md R131): a code read, or one of two errors. -/
theorem vleDecode_cases (s : State) (hs : ReadCursorOk s.regs) :
    (∃ c rest v, readStream s = c ++ rest ∧ CodeOf c v ∧ vleDecode s = .ok (v, advanceRead c.length s)) ∨
    vleDecode s = .error .vleOverflow ∨ vleDecode s = .error .truncatedStream := by
  rcases stream_cases (readStream s) with ⟨c, rest, v, hl, hc⟩ | ⟨c, rest, hl, hc⟩ | ⟨h₁, h₂⟩
  · exact .inl ⟨c, rest, v, hl, hc, vleDecode_code c rest v s hs hl hc⟩
  · exact .inr (.inl (vleDecode_overflow c rest s hs hl hc))
  · exact .inr (.inr (vleDecode_truncated s hs h₁ h₂))

end Sys2Proof.Machine
end

