-- ==== Sys2Proof/Laws/RunDecode.lean ====
section
/-! SUPPORT. RdcDecodeBody said once in the terms of pairs of codes (41_rundelta.md R154, R155). -/

namespace Sys2Proof.Machine

open Sys2Proof

/-! ## Pixels written -/

/-- The state with `ps` written at PIXCNT, PREV set and PIXCNT advanced. -/
def afterPixels (ps : List Pixel) (prev : Pixel) (s : State) : State :=
  { s with
    pixMem := storePixels s.pixMem s.regs.pixcnt.toNat ps
    regs := { s.regs with prev := prev, pixcnt := s.regs.pixcnt + BitVec.ofNat 32 ps.length } }

@[simp] theorem afterPixels_cfg (ps : List Pixel) (p : Pixel) (s : State) : (afterPixels ps p s).cfg = s.cfg := rfl
@[simp] theorem afterPixels_status (ps : List Pixel) (p : Pixel) (s : State) : (afterPixels ps p s).status = s.status := rfl
@[simp] theorem afterPixels_prev (ps : List Pixel) (p : Pixel) (s : State) : (afterPixels ps p s).regs.prev = p := rfl
@[simp] theorem afterPixels_pixcnt (ps : List Pixel) (p : Pixel) (s : State) :
    (afterPixels ps p s).regs.pixcnt = s.regs.pixcnt + BitVec.ofNat 32 ps.length := rfl
@[simp] theorem afterPixels_pixMem (ps : List Pixel) (p : Pixel) (s : State) :
    (afterPixels ps p s).pixMem = storePixels s.pixMem s.regs.pixcnt.toNat ps := rfl

theorem afterPixels_readStream (ps : List Pixel) (p : Pixel) (s : State) : readStream (afterPixels ps p s) = readStream s := rfl

theorem afterPixels_cursorOk (ps : List Pixel) (p : Pixel) (s : State) (h : ReadCursorOk s.regs) :
    ReadCursorOk (afterPixels ps p s).regs := h

theorem advanceRead_afterPixels (k : Nat) (ps : List Pixel) (p : Pixel) (s : State) :
    advanceRead k (afterPixels ps p s) = afterPixels ps p (advanceRead k s) := by
  unfold advanceRead afterPixels
  dsimp only
  split <;> rfl

@[simp] theorem advanceRead_pixcnt (k : Nat) (s : State) : (advanceRead k s).regs.pixcnt = s.regs.pixcnt := by
  rw [advanceRead_regs]
@[simp] theorem advanceRead_prev (k : Nat) (s : State) : (advanceRead k s).regs.prev = s.regs.prev := by
  rw [advanceRead_regs]
@[simp] theorem advanceRead_npix (k : Nat) (s : State) : (advanceRead k s).regs.npix = s.regs.npix := by
  rw [advanceRead_regs]

theorem storePixels_append (m : Memory Pixel) (i : Nat) (ps qs : List Pixel) :
    storePixels m i (ps ++ qs) = storePixels (storePixels m i ps) (i + ps.length) qs := by
  induction ps generalizing m i with
  | nil => rfl
  | cons p ps ih =>
    simp only [List.cons_append, storePixels, ih, List.length_cons]
    congr 1
    omega

theorem lookup_storePixels (m : Memory Pixel) (i : Nat) (ps : List Pixel) (j : Nat) :
    Memory.lookup (storePixels m i ps) j = if h : i ≤ j ∧ j - i < ps.length then some ps[j - i] else m.lookup j := by
  induction ps generalizing m i with
  | nil => simp [storePixels]
  | cons p ps ih =>
    simp only [storePixels, ih, lookup_insert, List.length_cons]
    by_cases h0 : j = i
    · subst h0
      rw [dif_neg (by omega), if_pos rfl, dif_pos (by omega)]
      simp
    · by_cases h1 : i ≤ j ∧ j - i < ps.length + 1
      · rw [dif_pos (by omega), dif_pos h1]
        congr 1
        rw [List.getElem_cons]
        rw [dif_neg (by omega)]
        congr 1
      · rw [dif_neg (by omega), dif_neg h1, if_neg h0]

theorem wf_storePixels (m : Memory Pixel) (i : Nat) (ps : List Pixel) (h : m.wf = true) :
    (storePixels m i ps).wf = true := by
  induction ps generalizing m i with
  | nil => exact h
  | cons p ps ih => exact ih _ _ (wf_insert _ _ _ h)

theorem within_storePixels (m : Memory Pixel) (i : Nat) (ps : List Pixel) (k : Nat) (hk : i + ps.length ≤ k)
    (h : m.within k = true) : (storePixels m i ps).within k = true := by
  induction ps generalizing m i with
  | nil => exact h
  | cons p ps ih =>
    rw [List.length_cons] at hk
    exact ih _ _ (by omega) (within_insert _ _ _ _ (by omega) h)

theorem afterPixels_append (ps qs : List Pixel) (p q : Pixel) (s : State)
    (h : s.regs.pixcnt.toNat + ps.length < 2 ^ 32) :
    afterPixels qs q (afterPixels ps p s) = afterPixels (ps ++ qs) q s := by
  have hc : (s.regs.pixcnt + BitVec.ofNat 32 ps.length).toNat = s.regs.pixcnt.toNat + ps.length := by
    rw [BitVec.toNat_add, BitVec.toNat_ofNat]
    omega
  unfold afterPixels
  dsimp only
  rw [hc, storePixels_append, List.length_append, BitVec.add_assoc, BitVec.ofNat_add]

theorem afterPixels_nil (s : State) : afterPixels [] s.regs.prev s = s := by
  simp [afterPixels, storePixels]

theorem putZeros_eq (i k : Nat) (s : State) :
    putZeros i k s = { s with pixMem := storePixels s.pixMem i (List.replicate k 0) } := by
  induction k generalizing i s with
  | zero => rfl
  | succ k ih => rw [putZeros, ih]; rfl

theorem addPixcnt_putZeros (v : Word) (s : State) :
    addPixcnt v (putZeros s.regs.pixcnt.toNat v.toNat s) = afterPixels (List.replicate v.toNat 0) s.regs.prev s := by
  rw [putZeros_eq]
  simp [addPixcnt, afterPixels]

theorem emitPixel_eq (cur : Pixel) (s : State) : emitPixel cur s = afterPixels [cur] cur s := rfl

/-! ## Nonzero runs -/

/-- The codes of a list are in the domain of 30_encoding.md R100. -/
def CodesOk (cs : List (List Nibble)) : Prop := ∀ c ∈ cs, IsCode c ∧ codeValue c < 2 ^ 32

theorem codeOf_ofNat (c : List Nibble) (h : IsCode c ∧ codeValue c < 2 ^ 32) :
    CodeOf c (BitVec.ofNat 32 (codeValue c)) := ⟨h.1, by rw [BitVec.toNat_ofNat, Nat.mod_eq_of_lt h.2]⟩

theorem deltaPixels_length (prev : Pixel) (ds : List (List Nibble)) : (deltaPixels prev ds).length = ds.length := by
  induction ds generalizing prev with
  | nil => rfl
  | cons d ds ih => simp [deltaPixels, ih]

theorem getLastD_cons (x a : Pixel) (l : List Pixel) : (x :: l).getLastD a = l.getLastD x := by
  cases l <;> simp [List.getLastD]

/-- A nonzero run reads its deltas and writes their pixels; it may stop at the first code that cannot be read. -/
theorem decodeDeltas_prefix (ds : List (List Nibble)) (rest : List Nibble) (k : Nat) (s : State) (hs : ReadCursorOk s.regs)
    (hr : readStream s = ds.flatten ++ rest) (hd : CodesOk ds) (hc : s.regs.pixcnt.toNat + ds.length < 2 ^ 32) :
    decodeDeltas (ds.length + k) s =
      decodeDeltas k (afterPixels (deltaPixels s.regs.prev ds) ((deltaPixels s.regs.prev ds).getLastD s.regs.prev)
        (advanceRead ds.flatten.length s)) := by
  induction ds generalizing s with
  | nil => simp [deltaPixels, advanceRead_zero, afterPixels_nil]
  | cons d ds ih =>
    rw [List.flatten_cons, List.append_assoc] at hr
    have h₁ := vleDecode_code d (ds.flatten ++ rest) _ s hs hr (codeOf_ofNat d (hd d (by simp)))
    obtain ⟨h₂, h₃⟩ := readStream_advance d (ds.flatten ++ rest) s hs hr
    rw [List.length_cons] at hc
    rw [List.length_cons, show ds.length + 1 + k = ds.length + k + 1 by omega, decodeDeltas, h₁]
    dsimp only
    rw [emitPixel_eq, advanceRead_prev, ih]
    · simp only [afterPixels_prev]
      rw [advanceRead_afterPixels, afterPixels_append _ _ _ _ _ (by simp; omega),
        ← advanceRead_append d ds.flatten rest s hs hr, List.flatten_cons, List.length_append]
      simp only [deltaPixels, List.singleton_append, getLastD_cons]
    · exact afterPixels_cursorOk _ _ _ h₃
    · rw [afterPixels_readStream]; exact h₂
    · exact fun c hm => hd c (by simp [hm])
    · simp only [afterPixels_pixcnt, advanceRead_pixcnt, List.length_singleton, BitVec.toNat_add, BitVec.toNat_ofNat]
      omega

theorem decodeDeltas_code (ds : List (List Nibble)) (rest : List Nibble) (s : State) (hs : ReadCursorOk s.regs)
    (hr : readStream s = ds.flatten ++ rest) (hd : CodesOk ds) (hc : s.regs.pixcnt.toNat + ds.length < 2 ^ 32) :
    decodeDeltas ds.length s =
      .ok (afterPixels (deltaPixels s.regs.prev ds) ((deltaPixels s.regs.prev ds).getLastD s.regs.prev)
        (advanceRead ds.flatten.length s)) := decodeDeltas_prefix ds rest 0 s hs hr hd hc

/-! ## Pairs -/

/-- The pixels of one pair after `prev`. -/
def pairRun (prev : Pixel) (p : PairCodes) : List Pixel :=
  List.replicate (codeValue p.zero) 0 ++ deltaPixels prev p.deltas

/-- PREV after one pair. -/
def pairLast (prev : Pixel) (p : PairCodes) : Pixel := (deltaPixels prev p.deltas).getLastD prev

theorem pairRun_length (prev : Pixel) (p : PairCodes) (h : p.Legal) : (pairRun prev p).length = p.length := by
  rw [pairRun, List.length_append, List.length_replicate, deltaPixels_length, h.2.2.2]
  rfl

theorem pairPixels_cons (prev : Pixel) (p : PairCodes) (ps : List PairCodes) :
    pairPixels prev (p :: ps) =
      (pairRun prev p ++ (pairPixels (pairLast prev p) ps).1, (pairPixels (pairLast prev p) ps).2) := rfl

theorem pairPixels_snoc (prev : Pixel) (qs : List PairCodes) (last : PairCodes) : pairPixels prev (qs ++ [last]) =
    ((pairPixels prev qs).1 ++ pairRun (pairPixels prev qs).2 last, pairLast (pairPixels prev qs).2 last) := by
  induction qs generalizing prev with
  | nil => simp [pairPixels_cons, pairPixels]
  | cons q qs ih => simp [pairPixels_cons, ih]

theorem pairPixels_length (prev : Pixel) (qs : List PairCodes) (hq : ∀ p ∈ qs, p.Legal) :
    (pairPixels prev qs).1.length = (qs.map PairCodes.length).sum := by
  induction qs generalizing prev with
  | nil => rfl
  | cons q qs ih =>
    rw [pairPixels_cons, List.length_append, pairRun_length _ _ (hq q (by simp)), ih _ (fun p hm => hq p (by simp [hm]))]
    simp

/-- A pair up to its nonzero length: the state in which its deltas are read. -/
theorem decodePair_head (n : Nat) (p : PairCodes) (rest : List Nibble) (s : State) (hs : ReadCursorOk s.regs)
    (hz : IsCode p.zero ∧ codeValue p.zero < 2 ^ 32) (hnz : IsCode p.nonzero ∧ codeValue p.nonzero < 2 ^ 32)
    (hr : readStream s = p.zero ++ (p.nonzero ++ rest)) (hc : s.regs.pixcnt.toNat + p.length ≤ n) :
    decodePair n s = decodeDeltas (codeValue p.nonzero)
        (afterPixels (List.replicate (codeValue p.zero) 0) s.regs.prev (advanceRead (p.zero ++ p.nonzero).length s)) ∧
      readStream (advanceRead (p.zero ++ p.nonzero).length s) = rest ∧
      ReadCursorOk (advanceRead (p.zero ++ p.nonzero).length s).regs := by
  have hl : p.length = codeValue p.zero + codeValue p.nonzero := rfl
  have v₁ : (BitVec.ofNat 32 (codeValue p.zero)).toNat = codeValue p.zero := by
    rw [BitVec.toNat_ofNat, Nat.mod_eq_of_lt hz.2]
  have v₂ : (BitVec.ofNat 32 (codeValue p.nonzero)).toNat = codeValue p.nonzero := by
    rw [BitVec.toNat_ofNat, Nat.mod_eq_of_lt hnz.2]
  have h₁ := vleDecode_code p.zero (p.nonzero ++ rest) _ s hs hr (codeOf_ofNat _ hz)
  obtain ⟨h₂, h₃⟩ := readStream_advance p.zero (p.nonzero ++ rest) s hs hr
  have ha := advanceRead_append p.zero p.nonzero rest s hs hr
  have h₄ := readStream_advance p.nonzero rest _ h₃ h₂
  rw [← ha, ← List.length_append] at h₄
  refine ⟨?_, h₄⟩
  have h₅ := vleDecode_code p.nonzero rest _
    (afterPixels (List.replicate (codeValue p.zero) 0) s.regs.prev (advanceRead p.zero.length s)) h₃
    (by rw [afterPixels_readStream]; exact h₂) (codeOf_ofNat _ hnz)
  have hz' := addPixcnt_putZeros (BitVec.ofNat 32 (codeValue p.zero)) (advanceRead p.zero.length s)
  rw [v₁, advanceRead_prev] at hz'
  unfold decodePair
  rw [h₁]
  dsimp only
  rw [v₁, if_neg (by simp only [advanceRead_pixcnt]; omega), hz', h₅]
  dsimp only
  rw [v₂, if_neg, advanceRead_afterPixels, ← ha, List.length_append]
  simp only [advanceRead_pixcnt, afterPixels_pixcnt, List.length_replicate, BitVec.toNat_add, BitVec.toNat_ofNat]
  omega

/-- A legal pair that fits is read and written (41_rundelta.md R155). -/
theorem decodePair_code (n : Nat) (p : PairCodes) (rest : List Nibble) (s : State) (hs : ReadCursorOk s.regs)
    (hn : n < 2 ^ 32) (hp : p.Legal) (hr : readStream s = p.nibbles ++ rest)
    (hc : s.regs.pixcnt.toNat + p.length ≤ n) :
    decodePair n s = .ok (afterPixels (pairRun s.regs.prev p) (pairLast s.regs.prev p) (advanceRead p.nibbles.length s)) := by
  obtain ⟨hz, hnz, hd, hl⟩ := hp
  have hlen : p.length = codeValue p.zero + codeValue p.nonzero := rfl
  have hr' : readStream s = p.zero ++ (p.nonzero ++ (p.deltas.flatten ++ rest)) := by
    rw [hr, PairCodes.nibbles]; simp
  obtain ⟨h₁, h₂, h₃⟩ := decodePair_head n p _ s hs hz hnz hr' hc
  rw [h₁, ← hl, decodeDeltas_code p.deltas rest _ (afterPixels_cursorOk _ _ _ h₃)
    (by rw [afterPixels_readStream]; exact h₂) hd]
  · rw [advanceRead_afterPixels, afterPixels_append]
    · rw [← advanceRead_append (p.zero ++ p.nonzero) p.deltas.flatten rest s hs (by rw [hr']; simp), afterPixels_prev,
        ← List.length_append]
      rfl
    · simp only [advanceRead_pixcnt, List.length_replicate]
      omega
  · simp only [afterPixels_pixcnt, advanceRead_pixcnt, List.length_replicate, BitVec.toNat_add, BitVec.toNat_ofNat]
    omega

theorem pairNibbles_length (p : PairCodes) (h : p.Legal) : 2 ≤ p.nibbles.length := by
  obtain ⟨⟨⟨ns, n, h₁, -⟩, -⟩, ⟨⟨ms, m, h₂, -⟩, -⟩, -⟩ := h
  simp [PairCodes.nibbles, h₁, h₂]
  omega

/-- Pairs that leave pixels missing are read, and the `repeat` goes on after them (41_rundelta.md R155). -/
theorem decodePairs_prefix (n : Nat) (ps : List PairCodes) (rest : List Nibble) (fuel : Nat) (s : State)
    (hs : ReadCursorOk s.regs) (hn : n < 2 ^ 32) (hp : ∀ p ∈ ps, p.Legal)
    (hr : readStream s = ps.flatMap PairCodes.nibbles ++ rest)
    (hc : ∀ k, k ≤ ps.length → s.regs.pixcnt.toNat + ((ps.take k).map PairCodes.length).sum < n) :
    decodePairs n (ps.length + fuel) s =
      decodePairs n fuel (afterPixels (pairPixels s.regs.prev ps).1 (pairPixels s.regs.prev ps).2
        (advanceRead (ps.flatMap PairCodes.nibbles).length s)) := by
  induction ps generalizing s with
  | nil => simp [pairPixels, advanceRead_zero, afterPixels_nil]
  | cons p ps ih =>
    rw [List.flatMap_cons, List.append_assoc] at hr
    have hc1 := hc 1 (by simp)
    simp only [List.take_succ_cons, List.take_zero, List.map_cons, List.map_nil, List.sum_cons, List.sum_nil] at hc1
    have h₁ := decodePair_code n p _ s hs hn (hp p (by simp)) hr (by omega)
    obtain ⟨h₂, h₃⟩ := readStream_advance p.nibbles _ s hs hr
    have hlen := pairRun_length s.regs.prev p (hp p (by simp))
    have hcnt : (s.regs.pixcnt + BitVec.ofNat 32 (pairRun s.regs.prev p).length).toNat = s.regs.pixcnt.toNat + p.length := by
      rw [BitVec.toNat_add, BitVec.toNat_ofNat, hlen]
      omega
    rw [List.length_cons, show ps.length + 1 + fuel = ps.length + fuel + 1 by omega, decodePairs, h₁]
    dsimp only
    rw [if_neg]
    · rw [ih]
      · rw [afterPixels_prev, advanceRead_afterPixels, afterPixels_append,
          ← advanceRead_append p.nibbles (ps.flatMap PairCodes.nibbles) rest s hs hr, pairPixels_cons,
          List.flatMap_cons, List.length_append]
        simp only [hlen, advanceRead_pixcnt]; omega
      · exact afterPixels_cursorOk _ _ _ h₃
      · exact fun q hq => hp q (by simp [hq])
      · rw [afterPixels_readStream]; exact h₂
      · intro k hk
        have := hc (k + 1) (by simpa using hk)
        rw [List.take_succ_cons, List.map_cons, List.sum_cons] at this
        simp only [afterPixels_pixcnt, advanceRead_pixcnt, hcnt]
        omega
    · simp only [afterPixels_pixcnt, advanceRead_pixcnt, hcnt]
      omega

/-- The pairs of a frame are read to its end, with passes to spare (41_rundelta.md R155). -/
theorem decodePairs_frame (n : Nat) (ps : List PairCodes) (rest : List Nibble) (fuel : Nat) (s : State)
    (hs : ReadCursorOk s.regs) (hn : n < 2 ^ 32) (hp : ∀ p ∈ ps, p.Legal) (he : EndsFrame n ps)
    (hr : readStream s = ps.flatMap PairCodes.nibbles ++ rest) (h0 : s.regs.pixcnt = 0) (hf : ps.length ≤ fuel) :
    decodePairs n fuel s = .ok (afterPixels (pairPixels s.regs.prev ps).1 (pairPixels s.regs.prev ps).2
        (advanceRead (ps.flatMap PairCodes.nibbles).length s)) := by
  obtain ⟨init, last, rfl, hsum, hpre⟩ := he
  have h0' : s.regs.pixcnt.toNat = 0 := by rw [h0]; rfl
  rw [List.flatMap_append, List.append_assoc] at hr
  have hpi : ∀ p ∈ init, p.Legal := fun p hm => hp p (by simp [hm])
  have hlast : last.Legal := hp last (by simp)
  obtain ⟨f, rfl⟩ : ∃ f, fuel = init.length + (f + 1) := ⟨fuel - init.length - 1, by simp at hf; omega⟩
  rw [decodePairs_prefix n init _ (f + 1) s hs hn hpi hr (fun k hk => by
    have := hpre k hk
    omega)]
  obtain ⟨h₂, h₃⟩ := readStream_advance (init.flatMap PairCodes.nibbles) _ s hs hr
  have hi := pairPixels_length s.regs.prev init hpi
  have hlt := hpre init.length le_rfl
  rw [List.take_length] at hlt
  rw [List.map_append, List.sum_append] at hsum
  simp only [List.map_cons, List.map_nil, List.sum_cons, List.sum_nil, Nat.add_zero] at hsum
  have hcnt : (s.regs.pixcnt + BitVec.ofNat 32 (pairPixels s.regs.prev init).1.length).toNat =
      (init.map PairCodes.length).sum := by
    rw [BitVec.toNat_add, BitVec.toNat_ofNat, hi]
    omega
  have hr₂ : readStream (afterPixels (pairPixels s.regs.prev init).1 (pairPixels s.regs.prev init).2
      (advanceRead (init.flatMap PairCodes.nibbles).length s)) = last.nibbles ++ rest := by
    rw [afterPixels_readStream, h₂]; simp
  have h₄ := decodePair_code n last rest _ (afterPixels_cursorOk _ _ _ h₃) hn hlast hr₂
    (by simp only [afterPixels_pixcnt, advanceRead_pixcnt, hcnt]; omega)
  rw [decodePairs, h₄]
  dsimp only
  rw [afterPixels_prev, advanceRead_afterPixels, afterPixels_append, if_pos]
  · rw [pairPixels_snoc, List.flatMap_append, List.length_append,
      advanceRead_append (init.flatMap PairCodes.nibbles) ([last].flatMap PairCodes.nibbles) rest s hs hr]
    simp
  · simp only [afterPixels_pixcnt, advanceRead_pixcnt, List.length_append, pairRun_length _ _ hlast, hi, BitVec.toNat_add,
      BitVec.toNat_ofNat]
    omega
  · simp only [hi, advanceRead_pixcnt]; omega

/-! ## What a decode that raised nothing has read -/

theorem decodeDeltas_ok (k : Nat) (s t : State) (hs : ReadCursorOk s.regs) (hc : s.regs.pixcnt.toNat + k < 2 ^ 32)
    (h : decodeDeltas k s = .ok t) :
    ∃ ds rest, ds.length = k ∧ CodesOk ds ∧ readStream s = ds.flatten ++ rest := by
  induction k generalizing s with
  | zero => exact ⟨[], readStream s, rfl, by simp [CodesOk], by simp⟩
  | succ k ih =>
    unfold decodeDeltas at h
    rcases vleDecode_cases s hs with ⟨c, rest, v, hr, hv, he⟩ | he | he
    · rw [he] at h
      dsimp only at h
      rw [emitPixel_eq] at h
      obtain ⟨h₂, h₃⟩ := readStream_advance c rest s hs hr
      obtain ⟨ds, rest', hl, hd, hr'⟩ := ih _ (afterPixels_cursorOk _ _ _ h₃) (by
        simp only [afterPixels_pixcnt, advanceRead_pixcnt, List.length_singleton, BitVec.toNat_add,
          BitVec.toNat_ofNat]
        omega) h
      refine ⟨c :: ds, rest', by simp [hl], ?_, ?_⟩
      · intro d hd'
        rcases List.mem_cons.1 hd' with rfl | hd'
        · exact ⟨hv.1, by rw [hv.2]; exact v.isLt⟩
        · exact hd d hd'
      · rw [afterPixels_readStream, h₂] at hr'
        rw [hr, hr', List.flatten_cons, List.append_assoc]
    · rw [he] at h; cases h
    · rw [he] at h; cases h

/-- A pass of the `repeat` that raised nothing has read one legal pair that fits. -/
theorem decodePair_ok (n : Nat) (s t : State) (hs : ReadCursorOk s.regs) (hn : n < 2 ^ 32) (h : decodePair n s = .ok t) :
    ∃ p rest, p.Legal ∧ readStream s = p.nibbles ++ rest ∧ s.regs.pixcnt.toNat + p.length ≤ n ∧
      t = afterPixels (pairRun s.regs.prev p) (pairLast s.regs.prev p) (advanceRead p.nibbles.length s) := by
  have h' := h
  unfold decodePair at h
  rcases vleDecode_cases s hs with ⟨z, rest, v, hr, hv, he⟩ | he | he
  · rw [he] at h
    dsimp only at h
    obtain ⟨h₂, h₃⟩ := readStream_advance z rest s hs hr
    split at h
    · cases h
    · rename_i hle
      have hz := addPixcnt_putZeros v (advanceRead z.length s)
      rw [hz] at h
      rw [advanceRead_pixcnt] at hle
      rcases vleDecode_cases (afterPixels (List.replicate v.toNat 0) (advanceRead z.length s).regs.prev
        (advanceRead z.length s)) h₃ with ⟨m, rest', w, hr', hw, he'⟩ | he' | he'
      · rw [he'] at h
        dsimp only at h
        obtain ⟨h₄, h₅⟩ := readStream_advance m rest' _ (afterPixels_cursorOk _ _ _ h₃) hr'
        split at h
        · cases h
        · rename_i hle'
          simp only [advanceRead_pixcnt, afterPixels_pixcnt, List.length_replicate, BitVec.toNat_add,
            BitVec.toNat_ofNat] at hle'
          obtain ⟨ds, rest'', hl, hd, hr''⟩ := decodeDeltas_ok _ _ _ h₅ (by
            simp only [advanceRead_pixcnt, afterPixels_pixcnt, List.length_replicate, BitVec.toNat_add,
              BitVec.toNat_ofNat]
            omega) h
          rw [afterPixels_readStream, h₂] at hr'
          rw [h₄] at hr''
          have hp : PairCodes.Legal ⟨z, m, ds⟩ :=
            ⟨⟨hv.1, by rw [hv.2]; exact v.isLt⟩, ⟨hw.1, by rw [hw.2]; exact w.isLt⟩, hd, by rw [hl, hw.2]⟩
          have hread : readStream s = PairCodes.nibbles ⟨z, m, ds⟩ ++ rest'' := by
            rw [hr, hr', hr'', PairCodes.nibbles]; simp
          have hlen : s.regs.pixcnt.toNat + PairCodes.length ⟨z, m, ds⟩ ≤ n := by
            rw [PairCodes.length, hv.2, hw.2]
            omega
          have h₆ := decodePair_code n ⟨z, m, ds⟩ rest'' s hs hn hp hread hlen
          rw [h₆] at h'
          cases h'
          exact ⟨⟨z, m, ds⟩, rest'', hp, hread, hlen, rfl⟩
      · rw [he'] at h; cases h
      · rw [he'] at h; cases h
  · rw [he] at h; cases h
  · rw [he] at h; cases h

/-- A frame body that raised nothing has read legal pairs whose lengths sum to the missing pixels (41_rundelta.md R159). -/
theorem decodePairs_ok (n fuel : Nat) (s t : State) (hs : ReadCursorOk s.regs) (hn : n < 2 ^ 32)
    (h : decodePairs n fuel s = .ok t) :
    ∃ ps rest, (∀ p ∈ ps, p.Legal) ∧ readStream s = ps.flatMap PairCodes.nibbles ++ rest ∧
      s.regs.pixcnt.toNat + (ps.map PairCodes.length).sum = n ∧
      t = afterPixels (pairPixels s.regs.prev ps).1 (pairPixels s.regs.prev ps).2
        (advanceRead (ps.flatMap PairCodes.nibbles).length s) := by
  induction fuel generalizing s with
  | zero => cases h
  | succ fuel ih =>
    unfold decodePairs at h
    split at h
    · cases h
    · rename_i u hu
      obtain ⟨p, rest, hp, hr, hl, rfl⟩ := decodePair_ok n s u hs hn hu
      obtain ⟨h₂, h₃⟩ := readStream_advance p.nibbles rest s hs hr
      have hlen := pairRun_length s.regs.prev p hp
      have hcnt : (s.regs.pixcnt + BitVec.ofNat 32 (pairRun s.regs.prev p).length).toNat =
          s.regs.pixcnt.toNat + p.length := by
        rw [BitVec.toNat_add, BitVec.toNat_ofNat, hlen]
        omega
      split at h
      · rename_i he
        cases h
        simp only [afterPixels_pixcnt, advanceRead_pixcnt, hcnt] at he
        exact ⟨[p], rest, by simpa using hp, by simpa using hr, by simpa using he, by simp [pairPixels, pairRun, pairLast]⟩
      · obtain ⟨ps, rest', hps, hr', hsum, rfl⟩ := ih _ (afterPixels_cursorOk _ _ _ h₃) h
        rw [afterPixels_readStream, h₂] at hr'
        simp only [afterPixels_pixcnt, advanceRead_pixcnt, hcnt] at hsum
        refine ⟨p :: ps, rest', ?_, by rw [hr, hr']; simp, by simp; omega, ?_⟩
        · intro q hq
          rcases List.mem_cons.1 hq with rfl | hq
          · exact hp
          · exact hps q hq
        · rw [hr'] at hr
          rw [afterPixels_prev, advanceRead_afterPixels, afterPixels_append _ _ _ _ _ (by simp [hlen]; omega),
            ← advanceRead_append p.nibbles (ps.flatMap PairCodes.nibbles) rest' s hs hr, pairPixels_cons,
            List.flatMap_cons, List.length_append]

/-! ## The passes are never used up (41_rundelta.md R160) -/

/-- How many nibbles the read cursor can still give, from any state. -/
def nibblesLeft (s : State) : Nat := s.regs.rdNib.toNat + 8 * ((s.regs.inLen.toNat - s.regs.rdPos.toNat) / 4)

theorem getNibble_uses (s : State) (n : Nibble) (t : State) (h : getNibble s = .ok (n, t)) :
    nibblesLeft t + 1 = nibblesLeft s ∧ t.regs.inLen = s.regs.inLen := by
  have hsub : ∀ x : BitVec 4, x ≠ 0 → (x - 1).toNat + 1 = x.toNat := by decide
  have hlt := s.regs.inLen.isLt
  unfold getNibble at h
  split at h
  · rename_i h0
    split at h
    · cases h
    · rename_i hp
      cases h
      have hpos : (s.regs.rdPos + 4).toNat = s.regs.rdPos.toNat + 4 := by
        rw [BitVec.toNat_add, show (4 : Word).toNat = 4 from rfl]
        omega
      have h7 : ((8 : BitVec 4) - 1).toNat = 7 := rfl
      refine ⟨?_, rfl⟩
      unfold nibblesLeft
      simp only [loadWord_regs, hpos, h7, h0]
      simp
      omega
  · rename_i h0
    cases h
    refine ⟨?_, rfl⟩
    have := hsub _ h0
    unfold nibblesLeft
    simp only
    omega

theorem vleDecodeFrom_uses (fuel : Nat) (r : Word) (s : State) (v : Word) (t : State)
    (h : vleDecodeFrom fuel r s = .ok (v, t)) : nibblesLeft t + 1 ≤ nibblesLeft s := by
  induction fuel generalizing r s with
  | zero => cases h
  | succ fuel ih =>
    unfold vleDecodeFrom at h
    split at h
    · cases h
    · rename_i n u hu
      have h₁ := (getNibble_uses _ _ _ hu).1
      dsimp only at h
      split at h
      · cases h
      · split at h
        · have := ih _ _ h
          omega
        · cases h; omega

theorem vleDecode_uses (s : State) (v : Word) (t : State) (h : vleDecode s = .ok (v, t)) :
    nibblesLeft t + 1 ≤ nibblesLeft s := vleDecodeFrom_uses _ _ _ _ _ h

theorem decodeDeltas_uses (k : Nat) (s t : State) (h : decodeDeltas k s = .ok t) : nibblesLeft t ≤ nibblesLeft s := by
  induction k generalizing s with
  | zero => cases h; exact le_rfl
  | succ k ih =>
    unfold decodeDeltas at h
    split at h
    · cases h
    · rename_i c u hu
      have h₁ := vleDecode_uses _ _ _ hu
      have h₂ := ih _ h
      have h₃ : nibblesLeft (emitPixel (u.regs.prev + (zigzagDecode32 c).setWidth 16) u) = nibblesLeft u := rfl
      omega

theorem decodePair_uses (n : Nat) (s t : State) (h : decodePair n s = .ok t) : nibblesLeft t + 2 ≤ nibblesLeft s := by
  unfold decodePair at h
  split at h
  · cases h
  · rename_i zr u hu
    have h₁ := vleDecode_uses _ _ _ hu
    split at h
    · cases h
    · rw [addPixcnt_putZeros] at h
      split at h
      · cases h
      · rename_i nzr w hw
        have h₂ := vleDecode_uses _ _ _ hw
        split at h
        · cases h
        · have h₃ := decodeDeltas_uses _ _ _ h
          have h₄ : nibblesLeft (afterPixels (List.replicate zr.toNat 0) u.regs.prev u) = nibblesLeft u := rfl
          omega

/-- With more passes than half the nibbles left, the number of passes does not matter. -/
theorem decodePairs_fuel (n a b : Nat) (s : State) (ha : nibblesLeft s < 2 * a) (hb : nibblesLeft s < 2 * b) :
    decodePairs n a s = decodePairs n b s := by
  induction a generalizing b s with
  | zero => omega
  | succ a ih =>
    obtain ⟨b, rfl⟩ : ∃ c, b = c + 1 := ⟨b - 1, by omega⟩
    unfold decodePairs
    cases h : decodePair n s with
    | error e => rfl
    | ok t =>
      dsimp only
      split
      · rfl
      · have := decodePair_uses _ _ _ h
        exact ih b t (by omega) (by omega)

theorem nibblesLeft_lt_fuel (s : State) : nibblesLeft s < 2 * decodeFuel s := by
  unfold nibblesLeft decodeFuel
  omega

/-! ## The frame body -/

theorem badPixelCount_false (s : State) : badPixelCount s = false ↔
    1 ≤ s.regs.npix.toNat ∧ s.regs.npix.toNat ≤ s.cfg.maxPixels := by
  unfold badPixelCount
  rw [decide_eq_false_iff_not]
  omega

/-- A legal frame body at the head of the read stream is read whole (41_rundelta.md R155). -/
theorem rdcDecodeBody_frame (ps : List PairCodes) (rest : List Nibble) (s : State) (hs : ReadCursorOk s.regs)
    (h1 : 1 ≤ s.regs.npix.toNat) (h2 : s.regs.npix.toNat ≤ s.cfg.maxPixels) (hp : ∀ p ∈ ps, p.Legal)
    (he : EndsFrame s.regs.npix.toNat ps) (hr : readStream s = ps.flatMap PairCodes.nibbles ++ rest) :
    rdcDecodeBody s = .ok (afterPixels (pairPixels 0 ps).1 (pairPixels 0 ps).2
      (advanceRead (ps.flatMap PairCodes.nibbles).length (startBody s))) := by
  have hb : badPixelCount s = false := (badPixelCount_false s).2 ⟨h1, h2⟩
  unfold rdcDecodeBody
  rw [hb, if_neg (by simp)]
  have hlen : 2 * ps.length ≤ (readStream s).length := by
    rw [hr, List.length_append]
    have : ∀ qs : List PairCodes, (∀ p ∈ qs, p.Legal) → 2 * qs.length ≤ (qs.flatMap PairCodes.nibbles).length := by
      intro qs hq
      induction qs with
      | nil => simp
      | cons q qs ih =>
        have h₁ := pairNibbles_length q (hq q (by simp))
        have h₂ := ih (fun p hm => hq p (by simp [hm]))
        simp only [List.flatMap_cons, List.length_append, List.length_cons]
        omega
    have := this ps hp
    omega
  have hleft : (readStream s).length ≤ nibblesLeft s := by
    have : ∀ (l : List Nat) (f : Nat → Word), (l.flatMap fun q => wordNibbles (f q)).length = 8 * l.length := by
      intro l f
      induction l with
      | nil => rfl
      | cons x l ih => rw [List.flatMap_cons, List.length_append, ih, wordNibbles_length, List.length_cons]; omega
    rw [readStream, List.length_append, this, List.length_range]
    simp [unreadNibbles, nibblesLeft, wordsLeft]
  have := nibblesLeft_lt_fuel s
  exact decodePairs_frame _ ps rest _ (startBody s) hs s.regs.npix.isLt hp he hr rfl (by omega)

end Sys2Proof.Machine
end

