-- ==== Sys2Proof/Laws/RunEncode.lean ====
section
/-! SUPPORT. RdcEncodeBody said once in the terms of `pairsOf` and `pairNibbles` (41_rundelta.md R157). -/

namespace Sys2Proof.Machine

open Sys2Proof

/-! ## Maximal runs -/

/-- The pixels of PIX_MEM from index `i`, `k` of them. -/
def pixelsFrom (pixel : Nat → Pixel) (i k : Nat) : List Pixel := (List.range' i k).map pixel

theorem pixelsFrom_succ (pixel : Nat → Pixel) (i k : Nat) :
    pixelsFrom pixel i (k + 1) = pixel i :: pixelsFrom pixel (i + 1) k := by
  simp [pixelsFrom, List.range'_succ]

@[simp] theorem pixelsFrom_length (pixel : Nat → Pixel) (i k : Nat) : (pixelsFrom pixel i k).length = k := by
  simp [pixelsFrom]

theorem pixelsFrom_drop (pixel : Nat → Pixel) (i k j : Nat) :
    (pixelsFrom pixel i k).drop j = pixelsFrom pixel (i + j) (k - j) := by
  simp [pixelsFrom, ← List.map_drop, List.drop_range']

theorem runLength_eq (pixel : Nat → Pixel) (p : Pixel → Bool) (k i : Nat) :
    runLength pixel p k i = ((pixelsFrom pixel i k).takeWhile p).length := by
  induction k generalizing i with
  | zero => rfl
  | succ k ih =>
    rw [runLength, pixelsFrom_succ, List.takeWhile_cons]
    split
    · rw [ih, List.length_cons]
    · rfl

theorem runLength_le (pixel : Nat → Pixel) (p : Pixel → Bool) (k i : Nat) : runLength pixel p k i ≤ k := by
  rw [runLength_eq]
  have h := (List.takeWhile_sublist (l := pixelsFrom pixel i k) p).length_le
  rwa [pixelsFrom_length] at h

theorem drop_length_takeWhile (p : Pixel → Bool) (l : List Pixel) :
    l.drop (l.takeWhile p).length = l.dropWhile p := by
  induction l with
  | nil => rfl
  | cons x l ih =>
    rw [List.takeWhile_cons, List.dropWhile_cons]
    split
    · exact ih
    · rfl

theorem take_length_takeWhile (p : Pixel → Bool) (l : List Pixel) :
    l.take (l.takeWhile p).length = l.takeWhile p := by
  induction l with
  | nil => rfl
  | cons x l ih =>
    rw [List.takeWhile_cons]
    split
    · rw [List.length_cons, List.take_succ_cons, ih]
    · rfl

theorem pixelsFrom_take (pixel : Nat → Pixel) (i k j : Nat) (h : j ≤ k) :
    (pixelsFrom pixel i k).take j = pixelsFrom pixel i j := by
  induction j generalizing i k with
  | zero => rfl
  | succ j ih =>
    obtain ⟨k, rfl⟩ : ∃ m, k = m + 1 := ⟨k - 1, by omega⟩
    rw [pixelsFrom_succ, List.take_succ_cons, ih _ _ (by omega), pixelsFrom_succ]

theorem pairsOf_ne_nil (l : List Pixel) (h : l ≠ []) : pairsOf l ≠ [] := by
  cases l with
  | nil => exact absurd rfl h
  | cons p ps =>
    unfold pairsOf
    split
    · split <;> simp
    · split <;> simp

/-- The first pair of a nonempty frame is its maximal zero run and the maximal nonzero run after it (41_rundelta.md
R157). -/
theorem pairsOf_eq (l : List Pixel) (h : l ≠ []) :
    pairsOf l = ((l.takeWhile (· == 0)).length, (l.dropWhile (· == 0)).takeWhile (· != 0)) ::
      pairsOf ((l.dropWhile (· == 0)).dropWhile (· != 0)) := by
  induction l with
  | nil => exact absurd rfl h
  | cons p ps ih =>
    by_cases hp : p = 0
    · have h1 : (p == 0) = true := by simpa using hp
      rw [List.takeWhile_cons_of_pos (p := (· == 0)) h1, List.dropWhile_cons_of_pos (p := (· == 0)) h1, List.length_cons]
      cases ps with
      | nil => subst hp; rfl
      | cons q qs => rw [pairsOf, if_pos hp, ih (by simp)]
    · have h1 : ¬(p == 0) = true := by simpa using hp
      have h2 : (p != 0) = true := by simpa using hp
      rw [List.takeWhile_cons_of_neg (p := (· == 0)) h1, List.dropWhile_cons_of_neg (p := (· == 0)) h1, List.takeWhile_cons_of_pos (p := (· != 0)) h2,
        List.dropWhile_cons_of_pos (p := (· != 0)) h2, pairsOf, if_neg hp, List.length_nil]
      cases ps with
      | nil => rfl
      | cons q qs =>
        have ih := ih (by simp)
        by_cases hq : q = 0
        · have h3 : (q == 0) = true := by simpa using hq
          have h4 : ¬(q != 0) = true := by simpa using hq
          rw [List.takeWhile_cons_of_neg (p := (· != 0)) h4, List.dropWhile_cons_of_neg (p := (· != 0)) h4]
          rw [List.takeWhile_cons_of_pos (p := (· == 0)) h3, List.length_cons] at ih
          rw [ih]
          rfl
        · have h3 : ¬(q == 0) = true := by simpa using hq
          rw [List.takeWhile_cons_of_neg (p := (· == 0)) h3, List.dropWhile_cons_of_neg (p := (· == 0)) h3, List.length_nil] at ih
          rw [ih]
          rfl

/-! ## Codes appended beside PREV and PIXCNT -/

/-- The state with PREV and PIXCNT set. -/
def track (p : Pixel) (c : Word) (s : State) : State := { s with regs := { s.regs with prev := p, pixcnt := c } }

theorem appendNibbles_track (ns : List Nibble) (p : Pixel) (c : Word) (s : State) :
    appendNibbles ns (track p c s) = track p c (appendNibbles ns s) := rfl

theorem track_track (p q : Pixel) (c d : Word) (s : State) : track p c (track q d s) = track p c s := rfl

theorem roomFor_track (ns : List Nibble) (p : Pixel) (c : Word) (s : State) :
    RoomFor ns (track p c s) ↔ RoomFor ns s := Iff.rfl

theorem track_self (s : State) : track s.regs.prev s.regs.pixcnt s = s := rfl

/-- A pseudocode that appends the nibbles `ns` and sets PREV and PIXCNT, or raises IoError where they do not fit. -/
def Appends (ns : List Nibble) (p : Pixel) (c : Word) (s : State) (r : Except CmdError State) : Prop :=
  (RoomFor ns s → r = .ok (track p c (appendNibbles ns s))) ∧ (¬ RoomFor ns s → r = .error .ioError)

theorem vleEncode_appends (v : Word) (s : State) (hw : WriteCursorOk s.regs) (hc : s.cfg.outCap < 2 ^ 32) :
    Appends (vleCode v) s.regs.prev s.regs.pixcnt s (vleEncode v s) := by
  obtain ⟨h₁, h₂⟩ := vleEncode_spec v s hw hc
  exact ⟨fun h => by rw [h₁ h]; rfl, h₂⟩

/-- One appending pseudocode and then another. -/
theorem Appends.seq {xs ys : List Nibble} {p q : Pixel} {c d : Word} {s : State} {r r' : Except CmdError State}
    {f : State → Except CmdError State} (hc : s.cfg.outCap < 2 ^ 32) (h₁ : Appends xs p c s r)
    (h₂ : RoomFor xs s → Appends ys q d (track p c (appendNibbles xs s)) (f (track p c (appendNibbles xs s))))
    (hr : ∀ t, r = .ok t → r' = f t) (he : ∀ e, r = .error e → r' = .error e) : Appends (xs ++ ys) q d s r' := by
  have hroom := roomFor_append xs ys s hc
  constructor
  · intro h
    obtain ⟨hx, hy⟩ := hroom.1 h
    rw [hr _ (h₁.1 hx), (h₂ hx).1 hy, appendNibbles_track, track_track, ← appendNibbles_append xs ys s hc hx]
  · intro h
    by_cases hx : RoomFor xs s
    · rw [hr _ (h₁.1 hx)]
      exact (h₂ hx).2 fun hy => h (hroom.2 ⟨hx, hy⟩)
    · exact he _ (h₁.2 hx)

theorem encodeDeltas_appends (j k : Nat) (s : State) (hw : WriteCursorOk s.regs) (hc : s.cfg.outCap < 2 ^ 32) :
    Appends (deltaNibbles s.regs.prev (pixelsFrom s.pixel j k)) ((pixelsFrom s.pixel j k).getLastD s.regs.prev)
      s.regs.pixcnt s (encodeDeltas j k s) := by
  induction k generalizing j s with
  | zero =>
    refine ⟨fun _ => ?_, fun h => absurd (.inl ?_) h⟩
    · show Except.ok s = Except.ok (track s.regs.prev s.regs.pixcnt (appendNibbles [] s))
      rw [appendNibbles_nil s hw, track_self]
    · show (s.regs.wrNib.toNat + 0) / 8 = 0
      have := hw.1
      omega
  | succ k ih =>
    rw [pixelsFrom_succ, deltaNibbles]
    have hlast : (s.pixel j :: pixelsFrom s.pixel (j + 1) k).getLastD s.regs.prev =
        (pixelsFrom s.pixel (j + 1) k).getLastD (s.pixel j) := by
      cases pixelsFrom s.pixel (j + 1) k <;> simp [List.getLastD]
    rw [hlast]
    refine Appends.seq hc (vleEncode_appends _ s hw hc)
      (f := fun t => encodeDeltas (j + 1) k { t with regs := { t.regs with prev := s.pixel j } }) ?_ ?_ ?_
    · intro hx
      exact ih (j + 1) (track (s.pixel j) s.regs.pixcnt (appendNibbles _ s)) (appendNibbles_cursorOk _ s) hc
    · intro t ht
      rw [encodeDeltas]
      dsimp only
      rw [ht]
    · intro e he
      rw [encodeDeltas]
      dsimp only
      rw [he]

/-- The length of the first pair of the frame from index `i`. -/
def firstLength (pixel : Nat → Pixel) (n i : Nat) : Nat :=
  let z := runLength pixel (fun p => p == 0) (n - i) i
  z + runLength pixel (fun p => p != 0) (n - (i + z)) (i + z)

theorem firstLength_pos (pixel : Nat → Pixel) (n i : Nat) (h : i < n) : 1 ≤ firstLength pixel n i := by
  obtain ⟨k, hk⟩ : ∃ k, n - i = k + 1 := ⟨n - i - 1, by omega⟩
  unfold firstLength
  dsimp only
  by_cases hp : pixel i = 0
  · rw [hk, runLength, if_pos (by simpa using hp)]
    omega
  · rw [hk, runLength, if_neg (by simpa using hp), Nat.add_zero, hk, runLength, if_pos (by simpa using hp)]
    omega

theorem firstLength_le (pixel : Nat → Pixel) (n i : Nat) (h : i ≤ n) : i + firstLength pixel n i ≤ n := by
  have h₁ := runLength_le pixel (fun p => p == 0) (n - i) i
  have h₂ := runLength_le pixel (fun p => p != 0) (n - (i + runLength pixel (fun p => p == 0) (n - i) i))
    (i + runLength pixel (fun p => p == 0) (n - i) i)
  unfold firstLength
  dsimp only
  omega

/-- One pass of the outer `while`: the codes of the first pair from index `i` (41_rundelta.md R157). -/
theorem encodePair_appends (n i : Nat) (s : State) (hw : WriteCursorOk s.regs) (hc : s.cfg.outCap < 2 ^ 32) :
    let z := runLength s.pixel (fun p => p == 0) (n - i) i
    let nz := pixelsFrom s.pixel (i + z) (runLength s.pixel (fun p => p != 0) (n - (i + z)) (i + z))
    let j := i + firstLength s.pixel n i
    let ns := vleCode (BitVec.ofNat 32 z) ++ vleCode (BitVec.ofNat 32 nz.length) ++ deltaNibbles s.regs.prev nz
    (RoomFor ns s →
      encodePair n i s = .ok (track (nz.getLastD s.regs.prev) (BitVec.ofNat 32 j) (appendNibbles ns s), j)) ∧
    (¬ RoomFor ns s → encodePair n i s = .error .ioError) := by
  intro z nz j ns
  have hlen : nz.length = runLength s.pixel (fun p => p != 0) (n - (i + z)) (i + z) := by simp [nz]
  have key : Appends ns (nz.getLastD s.regs.prev) s.regs.pixcnt s
      (match vleEncode (BitVec.ofNat 32 z) s with
        | .error e => .error e
        | .ok t =>
          match vleEncode (BitVec.ofNat 32 nz.length) t with
          | .error e => .error e
          | .ok u => encodeDeltas (i + z) nz.length u) := by
    refine Appends.seq hc (p := s.regs.prev) (c := s.regs.pixcnt)
      (r := match vleEncode (BitVec.ofNat 32 z) s with
        | .error e => .error e
        | .ok t => vleEncode (BitVec.ofNat 32 nz.length) t)
      (f := fun u => encodeDeltas (i + z) nz.length u) ?_ ?_ ?_ ?_
    · refine Appends.seq hc (vleEncode_appends _ s hw hc) (f := vleEncode (BitVec.ofNat 32 nz.length)) ?_ ?_ ?_
      · intro hx
        exact vleEncode_appends _ _ (appendNibbles_cursorOk _ s) hc
      · intro t ht; rw [ht]
      · intro e he; rw [he]
    · intro hx
      have := encodeDeltas_appends (i + z) nz.length (appendNibbles (vleCode (BitVec.ofNat 32 z) ++
        vleCode (BitVec.ofNat 32 nz.length)) s) (appendNibbles_cursorOk _ s) hc
      rw [hlen] at this ⊢
      exact this
    · intro t ht
      cases h : vleEncode (BitVec.ofNat 32 z) s with
      | error e => rw [h] at ht; cases ht
      | ok u => rw [h] at ht; dsimp only at ht ⊢; rw [ht]
    · intro e he
      cases h : vleEncode (BitVec.ofNat 32 z) s with
      | error e => rw [h] at he; exact he
      | ok u => rw [h] at he; dsimp only at he ⊢; rw [he]
  have hj : i + z + nz.length = j := by
    simp only [j, firstLength, hlen, z]
    omega
  have he : encodePair n i s = match (match vleEncode (BitVec.ofNat 32 z) s with
        | .error e => (.error e : Except CmdError State)
        | .ok t =>
          match vleEncode (BitVec.ofNat 32 nz.length) t with
          | .error e => .error e
          | .ok u => encodeDeltas (i + z) nz.length u) with
      | .error e => .error e
      | .ok w => .ok ({ w with regs := { w.regs with pixcnt := BitVec.ofNat 32 j } }, j) := by
    rw [← hj, hlen]
    unfold encodePair
    dsimp only
    cases vleEncode (BitVec.ofNat 32 z) s with
    | error e => rfl
    | ok t =>
      dsimp only
      cases vleEncode (BitVec.ofNat 32 (runLength s.pixel (fun p => p != 0) (n - (i + z)) (i + z))) t with
      | error e => rfl
      | ok u => rfl
  refine ⟨fun h => ?_, fun h => ?_⟩
  · rw [he, key.1 h]
    rfl
  · rw [he, key.2 h]

/-- The nibbles and PREV of the frame from index `i` split into its first pair and the rest. -/
theorem pairNibbles_from (pixel : Nat → Pixel) (n i : Nat) (h : i < n) :
    let z := runLength pixel (fun p => p == 0) (n - i) i
    let nz := pixelsFrom pixel (i + z) (runLength pixel (fun p => p != 0) (n - (i + z)) (i + z))
    pairsOf (pixelsFrom pixel i (n - i)) =
      (z, nz) :: pairsOf (pixelsFrom pixel (i + firstLength pixel n i) (n - (i + firstLength pixel n i))) := by
  intro z nz
  have hne : pixelsFrom pixel i (n - i) ≠ [] := by
    intro hx
    have := congrArg List.length hx
    simp at this
    omega
  have hz : z = ((pixelsFrom pixel i (n - i)).takeWhile (· == 0)).length := runLength_eq _ _ _ _
  have hd : (pixelsFrom pixel i (n - i)).dropWhile (· == 0) = pixelsFrom pixel (i + z) (n - (i + z)) := by
    rw [← drop_length_takeWhile, ← hz, pixelsFrom_drop]
    congr 1
    omega
  have hk := runLength_eq pixel (fun p => p != 0) (n - (i + z)) (i + z)
  have hle := runLength_le pixel (fun p => p != 0) (n - (i + z)) (i + z)
  have hnz : nz = (pixelsFrom pixel (i + z) (n - (i + z))).takeWhile (· != 0) := by
    have ht : (pixelsFrom pixel (i + z) (n - (i + z))).take
        (runLength pixel (fun p => p != 0) (n - (i + z)) (i + z)) = nz := by
      exact pixelsFrom_take _ _ _ _ hle
    rw [← ht, hk, take_length_takeWhile]
  have hd' : (pixelsFrom pixel (i + z) (n - (i + z))).dropWhile (· != 0) =
      pixelsFrom pixel (i + firstLength pixel n i) (n - (i + firstLength pixel n i)) := by
    rw [← drop_length_takeWhile, ← hk, pixelsFrom_drop]
    have : firstLength pixel n i = z + runLength pixel (fun p => p != 0) (n - (i + z)) (i + z) := rfl
    rw [this]
    congr 1 <;> omega
  rw [pairsOf_eq _ hne, hd, ← hz, hd', hnz]

/-- PREV after pairs. -/
def pairsLast (prev : Pixel) : List (Nat × List Pixel) → Pixel
  | [] => prev
  | (_, nz) :: rest => pairsLast (nz.getLastD prev) rest

/-- The outer `while` from index `i`, with passes to spare (41_rundelta.md R157). -/
theorem encodePairs_appends (n fuel i : Nat) (s : State) (hw : WriteCursorOk s.regs) (hc : s.cfg.outCap < 2 ^ 32)
    (hi : i ≤ n) (hf : n - i ≤ fuel) (hp : i = n → s.regs.pixcnt = BitVec.ofNat 32 n) :
    Appends (pairNibbles s.regs.prev (pairsOf (pixelsFrom s.pixel i (n - i))))
      (pairsLast s.regs.prev (pairsOf (pixelsFrom s.pixel i (n - i)))) (BitVec.ofNat 32 n) s
      (encodePairs n fuel i s) := by
  have hdone : ∀ t : State, WriteCursorOk t.regs → t.regs.pixcnt = BitVec.ofNat 32 n →
      Appends [] t.regs.prev (BitVec.ofNat 32 n) t (.ok t) := by
    intro t ht hn
    refine ⟨fun _ => ?_, fun h => absurd (.inl ?_) h⟩
    · rw [appendNibbles_nil t ht, ← hn, track_self]
    · show (t.regs.wrNib.toNat + 0) / 8 = 0
      have := ht.1
      omega
  induction fuel generalizing i s with
  | zero =>
    obtain rfl : i = n := by omega
    rw [Nat.sub_self]
    exact hdone s hw (hp rfl)
  | succ fuel ih =>
    by_cases hlt : i < n
    · have hpos := firstLength_pos s.pixel n i hlt
      have hle := firstLength_le s.pixel n i hi
      rw [pairNibbles_from s.pixel n i hlt]
      simp only [pairNibbles, pairsLast]
      obtain ⟨h₁, h₂⟩ := encodePair_appends n i s hw hc
      refine Appends.seq hc (p := (pixelsFrom s.pixel (i + runLength s.pixel (fun p => p == 0) (n - i) i)
          (runLength s.pixel (fun p => p != 0) (n - (i + runLength s.pixel (fun p => p == 0) (n - i) i))
            (i + runLength s.pixel (fun p => p == 0) (n - i) i))).getLastD s.regs.prev)
        (c := BitVec.ofNat 32 (i + firstLength s.pixel n i))
        (r := match encodePair n i s with
          | .error e => .error e
          | .ok (t, _) => .ok t)
        (f := fun t => encodePairs n fuel (i + firstLength s.pixel n i) t) ⟨fun h => ?_, fun h => ?_⟩ ?_ ?_ ?_
      · rw [h₁ h]
      · rw [h₂ h]
      · intro hx
        exact ih (i + firstLength s.pixel n i) _ (appendNibbles_cursorOk _ s) hc (by omega) (by omega)
          (fun he => congrArg (BitVec.ofNat 32) he)
      · intro t ht
        rw [encodePairs, if_pos hlt]
        by_cases hroom : RoomFor (vleCode (BitVec.ofNat 32 (runLength s.pixel (fun p => p == 0) (n - i) i)) ++
          vleCode (BitVec.ofNat 32 (pixelsFrom s.pixel (i + runLength s.pixel (fun p => p == 0) (n - i) i)
            (runLength s.pixel (fun p => p != 0) (n - (i + runLength s.pixel (fun p => p == 0) (n - i) i))
            (i + runLength s.pixel (fun p => p == 0) (n - i) i))).length) ++
          deltaNibbles s.regs.prev (pixelsFrom s.pixel (i + runLength s.pixel (fun p => p == 0) (n - i) i)
            (runLength s.pixel (fun p => p != 0) (n - (i + runLength s.pixel (fun p => p == 0) (n - i) i))
            (i + runLength s.pixel (fun p => p == 0) (n - i) i)))) s
        · rw [h₁ hroom] at ht ⊢
          cases ht
          rfl
        · rw [h₂ hroom] at ht
          cases ht
      · intro e he
        rw [encodePairs, if_pos hlt]
        cases h : encodePair n i s with
        | error e' => rw [h] at he; cases he; rfl
        | ok x => rw [h] at he; cases he
    · obtain rfl : i = n := by omega
      rw [encodePairs, if_neg hlt, Nat.sub_self]
      exact hdone s hw (hp rfl)

/-- The number of passes does not matter once there are enough (41_rundelta.md R160). -/
theorem encodePairs_fuel (n a b i : Nat) (s : State) (ha : n - i ≤ a) (hb : n - i ≤ b) :
    encodePairs n a i s = encodePairs n b i s := by
  induction a generalizing b i s with
  | zero =>
    cases b with
    | zero => rfl
    | succ b => rw [encodePairs, encodePairs, if_neg (by omega)]
  | succ a ih =>
    cases b with
    | zero => rw [encodePairs, encodePairs, if_neg (by omega)]
    | succ b =>
      rw [encodePairs, encodePairs]
      split
      · rename_i hlt
        cases h : encodePair n i s with
        | error e => rfl
        | ok x =>
          obtain ⟨t, j⟩ := x
          dsimp only
          have hj : j = i + firstLength s.pixel n i := by
            unfold encodePair at h
            dsimp only at h
            repeat' split at h
            all_goals cases h
            simp only [firstLength]
            omega
          have := firstLength_pos s.pixel n i hlt
          exact ih b j t (by omega) (by omega)
      · rfl

theorem pairsLast_append_zero (prev : Pixel) (ps : List Pixel) : pairsLast prev (pairsOf ps) =
    (ps.filter (fun p => p != 0)).getLastD prev := by
  generalize hk : ps.length = k
  induction k using Nat.strong_induction_on generalizing prev ps with
  | _ k ih =>
    by_cases hne : ps = []
    · subst hne; rfl
    · rw [pairsOf_eq ps hne, pairsLast]
      have hsplit : ps = ps.takeWhile (· == 0) ++ ((ps.dropWhile (· == 0)).takeWhile (· != 0) ++
          (ps.dropWhile (· == 0)).dropWhile (· != 0)) := by
        rw [List.takeWhile_append_dropWhile, List.takeWhile_append_dropWhile]
      have hlen := congrArg List.length hsplit
      simp only [List.length_append] at hlen
      have hpos : 1 ≤ (ps.takeWhile (· == 0)).length + ((ps.dropWhile (· == 0)).takeWhile (· != 0)).length := by
        cases ps with
        | nil => exact absurd rfl hne
        | cons p ps =>
          by_cases hp : p = 0
          · rw [List.takeWhile_cons_of_pos (p := (· == 0)) (by simpa using hp), List.length_cons]
            omega
          · rw [List.dropWhile_cons_of_neg (p := (· == 0)) (by simpa using hp),
              List.takeWhile_cons_of_pos (p := (· != 0)) (by simpa using hp), List.length_cons]
            omega
      rw [ih _ (by omega) _ _ rfl]
      conv_rhs => rw [hsplit]
      have hz : (ps.takeWhile (· == 0)).filter (fun p => p != 0) = [] := by
        rw [List.filter_eq_nil_iff]
        intro x hx
        have := List.mem_takeWhile_imp hx
        simpa using this
      have hnz : ((ps.dropWhile (· == 0)).takeWhile (· != 0)).filter (fun p => p != 0) =
          (ps.dropWhile (· == 0)).takeWhile (· != 0) := by
        rw [List.filter_eq_self]
        intro x hx
        exact List.mem_takeWhile_imp (p := (· != 0)) hx
      rw [List.filter_append, List.filter_append, hz, hnz, List.nil_append]
      generalize (ps.dropWhile (· == 0)).takeWhile (· != 0) = a
      generalize ((ps.dropWhile (· == 0)).dropWhile (· != 0)).filter (fun p => p != 0) = b
      cases b with
      | nil => simp [List.getLastD]
      | cons x b =>
        simp [List.getLastD_eq_getLast?, List.getLast?_append, List.getLast?_cons]

end Sys2Proof.Machine
end

