-- ==== Sys2Proof/Laws/FrameBody.lean ====
section
/-! SUPPORT. The two frame bodies from start to end: what RdcDecodeBody and RdcEncodeBody leave, and when they raise
(41_rundelta.md R155, R157). -/

namespace Sys2Proof.Machine

open Sys2Proof

/-! ## Decode -/

theorem clearFrameValid_cursorOk (s : State) (h : ReadCursorOk s.regs) : ReadCursorOk (clearFrameValid s).regs := h

/-- The pixels of pairs that end a frame number NPIX (41_rundelta.md R159). -/
theorem endsFrame_length (n : Nat) (ps : List PairCodes) (hp : ∀ p ∈ ps, p.Legal) (he : EndsFrame n ps) :
    (pairPixels 0 ps).1.length = n := by
  obtain ⟨init, last, rfl, hsum, -⟩ := he
  rw [pairPixels_length _ _ hp, hsum]

theorem advanceRead_startBody (k : Nat) (s : State) : advanceRead k (startBody s) = startBody (advanceRead k s) := by
  unfold advanceRead startBody
  dsimp only
  split <;> rfl

/-- What RdcDecodeBody leaves is `decodedFrame`, but for FRAME_VALID (41_rundelta.md R155). -/
theorem rdcDecodeBody_decoded (ps : List PairCodes) (rest : List Nibble) (s : State) (hs : ReadCursorOk s.regs)
    (h1 : 1 ≤ s.regs.npix.toNat) (h2 : s.regs.npix.toNat ≤ s.cfg.maxPixels) (hp : ∀ p ∈ ps, p.Legal)
    (he : EndsFrame s.regs.npix.toNat ps) (hr : readStream s = ps.flatMap PairCodes.nibbles ++ rest) :
    ∃ t, rdcDecodeBody s = .ok t ∧ setFrameValid t = decodedFrame ps s := by
  refine ⟨_, rdcDecodeBody_frame ps rest s hs h1 h2 hp he hr, ?_⟩
  have hc : (0 : Word) + BitVec.ofNat 32 (pairPixels 0 ps).1.length = s.regs.npix := by
    rw [endsFrame_length _ _ hp he, zero_add, BitVec.ofNat_toNat, BitVec.setWidth_eq]
  rw [advanceRead_startBody]
  unfold decodedFrame afterPixels setFrameValid startBody
  dsimp only
  rw [hc, advanceRead_status, advanceRead_pixMem]
  rfl

/-- FRAME_VALID plays no part in the decode. -/
theorem decodedFrame_clear (ps : List PairCodes) (s : State) :
    decodedFrame ps (clearFrameValid s) = decodedFrame ps s := by
  unfold decodedFrame advanceRead clearFrameValid
  dsimp only
  split <;> rfl

/-- The `repeat` after pairs that leave pixels missing goes on from the state they leave. -/
theorem rdcDecodeBody_begun (ps : List PairCodes) (rest : List Nibble) (s : State) (hs : ReadCursorOk s.regs)
    (h1 : 1 ≤ s.regs.npix.toNat) (h2 : s.regs.npix.toNat ≤ s.cfg.maxPixels) (hp : ∀ p ∈ ps, p.Legal)
    (hr : readStream s = ps.flatMap PairCodes.nibbles ++ rest)
    (hc : ∀ k, k ≤ ps.length → ((ps.take k).map PairCodes.length).sum < s.regs.npix.toNat) (e : CmdError)
    (he : ∀ t : State, ReadCursorOk t.regs → readStream t = rest →
      t.regs.pixcnt.toNat = (ps.map PairCodes.length).sum → decodePair s.regs.npix.toNat t = .error e) :
    rdcDecodeBody s = .error e := by
  rw [rdcDecodeBody, if_neg (by simpa using (badPixelCount_false s).2 ⟨h1, h2⟩)]
  have hn := s.regs.npix.isLt
  have hfuel := decodePairs_fuel s.regs.npix.toNat (decodeFuel s) (ps.length + (decodeFuel s + 1)) (startBody s)
    (nibblesLeft_lt_fuel (startBody s)) (by
      have h : nibblesLeft (startBody s) < 2 * decodeFuel s := nibblesLeft_lt_fuel (startBody s)
      omega)
  rw [hfuel, decodePairs_prefix _ ps rest _ (startBody s) hs hn hp hr (by
    intro k hk
    have := hc k hk
    show (0 : Word).toNat + _ < _
    simpa using this)]
  obtain ⟨hr', hs'⟩ := readStream_advance (ps.flatMap PairCodes.nibbles) rest (startBody s) hs hr
  rw [decodePairs, he]
  · exact hs'
  · exact hr'
  · have hk := hc ps.length le_rfl
    rw [List.take_length] at hk
    rw [afterPixels_pixcnt, advanceRead_pixcnt, pairPixels_length _ _ hp]
    show ((0 : Word) + _).toNat = _
    rw [zero_add, BitVec.toNat_ofNat, Nat.mod_eq_of_lt (by omega)]

/-- The zero-run length of a pair that fits: the second code is then read from what follows (41_rundelta.md R155). -/
theorem decodePair_zero (n : Nat) (z rest : List Nibble) (s : State) (hs : ReadCursorOk s.regs)
    (hz : IsCode z ∧ codeValue z < 2 ^ 32) (hr : readStream s = z ++ rest) (hn : n < 2 ^ 32)
    (hc : s.regs.pixcnt.toNat + codeValue z ≤ n) :
    ∃ t : State, ReadCursorOk t.regs ∧ readStream t = rest ∧ t.regs.pixcnt.toNat = s.regs.pixcnt.toNat + codeValue z ∧
      decodePair n s =
        match vleDecode t with
        | .error e => .error e
        | .ok (nzr, u) => if u.regs.pixcnt.toNat + nzr.toNat > n then .error .pixelCountMismatch
          else decodeDeltas nzr.toNat u := by
  have v₁ : (BitVec.ofNat 32 (codeValue z)).toNat = codeValue z := by
    rw [BitVec.toNat_ofNat, Nat.mod_eq_of_lt hz.2]
  obtain ⟨h₂, h₃⟩ := readStream_advance z rest s hs hr
  refine ⟨afterPixels (List.replicate (codeValue z) 0) s.regs.prev (advanceRead z.length s),
    afterPixels_cursorOk _ _ _ h₃, h₂, ?_, ?_⟩
  · rw [afterPixels_pixcnt, advanceRead_pixcnt, List.length_replicate, BitVec.toNat_add, v₁]
    omega
  · have hz' := addPixcnt_putZeros (BitVec.ofNat 32 (codeValue z)) (advanceRead z.length s)
    rw [v₁, advanceRead_prev] at hz'
    unfold decodePair
    rw [vleDecode_code z rest _ s hs hr (codeOf_ofNat _ hz)]
    dsimp only
    rw [v₁, if_neg (by rw [advanceRead_pixcnt]; omega)]
    exact congrArg (fun u => match vleDecode u with
      | .error e => Except.error e
      | .ok (nzr, u) => if u.regs.pixcnt.toNat + nzr.toNat > n then .error .pixelCountMismatch
        else decodeDeltas nzr.toNat u) hz'

/-- A zero-run length that would pass the count (41_rundelta.md R155). -/
theorem decodePair_zero_tooLong (n : Nat) (z rest : List Nibble) (s : State) (hs : ReadCursorOk s.regs)
    (hz : IsCode z ∧ codeValue z < 2 ^ 32) (hr : readStream s = z ++ rest)
    (hc : n < s.regs.pixcnt.toNat + codeValue z) : decodePair n s = .error .pixelCountMismatch := by
  have v₁ : (BitVec.ofNat 32 (codeValue z)).toNat = codeValue z := by
    rw [BitVec.toNat_ofNat, Nat.mod_eq_of_lt hz.2]
  unfold decodePair
  rw [vleDecode_code z rest _ s hs hr (codeOf_ofNat _ hz)]
  dsimp only
  rw [v₁, if_pos (by rw [advanceRead_pixcnt]; omega)]

/-- A nonzero-run length that would pass the count (41_rundelta.md R155). -/
theorem decodePair_nonzero_tooLong (n : Nat) (z nz rest : List Nibble) (s : State) (hs : ReadCursorOk s.regs)
    (hz : IsCode z ∧ codeValue z < 2 ^ 32) (hnz : IsCode nz ∧ codeValue nz < 2 ^ 32) (hn : n < 2 ^ 32)
    (hr : readStream s = z ++ (nz ++ rest)) (hc : s.regs.pixcnt.toNat + codeValue z ≤ n)
    (hc' : n < s.regs.pixcnt.toNat + codeValue z + codeValue nz) : decodePair n s = .error .pixelCountMismatch := by
  have v₂ : (BitVec.ofNat 32 (codeValue nz)).toNat = codeValue nz := by
    rw [BitVec.toNat_ofNat, Nat.mod_eq_of_lt hnz.2]
  obtain ⟨t, ht, hrt, hct, h⟩ := decodePair_zero n z _ s hs hz hr hn hc
  rw [h, vleDecode_code nz rest _ t ht hrt (codeOf_ofNat _ hnz)]
  dsimp only
  rw [v₂, if_pos (by rw [advanceRead_pixcnt]; omega)]

/-- The first code of `bad` cannot be decoded, whatever state reads it: `e` is raised. -/
def BadCode (bad : List Nibble) (e : CmdError) : Prop :=
  ∀ t : State, ReadCursorOk t.regs → readStream t = bad → vleDecode t = .error e

theorem badCode_truncated (bad : List Nibble) (h : ∀ n ∈ bad, isCont n = true) (hl : bad.length < 11) :
    BadCode bad .truncatedStream := fun t ht hr => vleDecode_truncated t ht (by rw [hr]; exact h) (by rw [hr]; exact hl)

theorem badCode_overflow (c rest : List Nibble)
    (h : (c.length = 11 ∧ ∀ n ∈ c, isCont n = true) ∨ (IsCode c ∧ 2 ^ 32 ≤ codeValue c)) :
    BadCode (c ++ rest) .vleOverflow := fun t ht hr => vleDecode_overflow c rest t ht hr h

/-- A code that cannot be decoded after the first codes of a pair (41_rundelta.md R155, 60_exceptions.md R245). -/
theorem decodePair_badCode (n : Nat) (cs : List (List Nibble)) (bad : List Nibble) (e : CmdError) (s : State)
    (hs : ReadCursorOk s.regs) (hn : n < 2 ^ 32) (hp : s.regs.pixcnt.toNat ≤ n)
    (hb : PairBegun (n - s.regs.pixcnt.toNat) cs) (hr : readStream s = cs.flatten ++ bad) (he : BadCode bad e) :
    decodePair n s = .error e := by
  obtain ⟨hcs, hsum, hlast⟩ := hb
  match cs, hcs, hsum, hlast, hr with
  | [], _, _, _, hr =>
    unfold decodePair
    rw [he s hs hr]
  | [z], hcs, hsum, _, hr =>
    simp only [List.take_succ_cons, List.take_nil, List.map_cons, List.map_nil, List.sum_cons, List.sum_nil] at hsum
    obtain ⟨t, ht, hrt, -, h⟩ := decodePair_zero n z bad s hs (hcs z (by simp)) (by simpa using hr) hn (by omega)
    rw [h, he t ht hrt]
  | z :: nz :: ds, hcs, hsum, hlast, hr =>
    simp only [List.take_succ_cons, List.take_zero, List.map_cons, List.map_nil, List.sum_cons, List.sum_nil] at hsum
    have hnz := hcs nz (by simp)
    have v₂ : (BitVec.ofNat 32 (codeValue nz)).toNat = codeValue nz := by
      rw [BitVec.toNat_ofNat, Nat.mod_eq_of_lt hnz.2]
    obtain ⟨t, ht, hrt, hct, h⟩ := decodePair_zero n z (nz ++ (ds.flatten ++ bad)) s hs (hcs z (by simp))
      (by rw [hr]; simp) hn (by omega)
    obtain ⟨h₂, h₃⟩ := readStream_advance nz _ t ht hrt
    obtain ⟨k, hk⟩ : ∃ k, codeValue nz = ds.length + (k + 1) := ⟨codeValue nz - ds.length - 1, by omega⟩
    rw [h, vleDecode_code nz _ _ t ht hrt (codeOf_ofNat _ hnz)]
    dsimp only
    rw [v₂, if_neg (by rw [advanceRead_pixcnt]; omega), hk,
      decodeDeltas_prefix ds bad (k + 1) _ h₃ h₂ (fun d hd => hcs d (by simp [hd]))
        (by rw [advanceRead_pixcnt]; omega)]
    obtain ⟨h₄, h₅⟩ := readStream_advance ds.flatten bad _ h₃ h₂
    rw [decodeDeltas, he _ (afterPixels_cursorOk _ _ _ h₅) h₄]

/-! ## Encode -/

theorem startBody_self_track (s : State) : startBody s = track 0 0 s := rfl

theorem pixels_eq (s : State) (n : Nat) : pixels s n = pixelsFrom s.pixel 0 n := by
  rw [pixels, pixelsFrom, List.range_eq_range']

theorem padding_append (ns : List Nibble) (s : State) :
    padding [] (appendNibbles ns s).regs = padding ns s.regs := by
  unfold padding
  rw [appendNibbles_wrNib]
  congr 2
  simp

/-- RdcEncodeBody appends the run-pair stream and its padding, or raises IoError where a word does not fit
(41_rundelta.md R157). -/
theorem rdcEncodeBody_spec (s : State) (hw : WriteCursorOk s.regs) (hc : s.cfg.outCap < 2 ^ 32)
    (h1 : 1 ≤ s.regs.npix.toNat) (h2 : s.regs.npix.toNat ≤ s.cfg.maxPixels) :
    let ns := frameNibbles (pixels s s.regs.npix.toNat)
    (RoomFor (ns ++ padding ns s.regs) s → rdcEncodeBody s = .ok (encodedFrame s)) ∧
    (¬ RoomFor (ns ++ padding ns s.regs) s → rdcEncodeBody s = .error .ioError) := by
  intro ns
  have hbad : ¬ badPixelCount s = true := by simpa using (badPixelCount_false s).2 ⟨h1, h2⟩
  have hn : BitVec.ofNat 32 s.regs.npix.toNat = s.regs.npix := by
    rw [BitVec.ofNat_toNat, BitVec.setWidth_eq]
  have key := encodePairs_appends s.regs.npix.toNat s.regs.npix.toNat 0 (startBody s) hw hc (by omega) (by omega)
    (by omega)
  have hns : pairNibbles (startBody s).regs.prev (pairsOf (pixelsFrom (startBody s).pixel 0 (s.regs.npix.toNat - 0))) =
      ns := by
    simp only [ns, frameNibbles, pixels_eq]
    rfl
  have hlast : pairsLast (startBody s).regs.prev (pairsOf (pixelsFrom (startBody s).pixel 0 (s.regs.npix.toNat - 0))) =
      lastNonzero (pixels s s.regs.npix.toNat) := by
    rw [pairsLast_append_zero, lastNonzero, pixels_eq]
    rfl
  rw [hns, hlast, hn, startBody_self_track] at key
  rw [rdcEncodeBody, if_neg hbad]
  have hroom := roomFor_append ns (padding ns s.regs) s hc
  have hflush := flushWord_spec (track (lastNonzero (pixels s s.regs.npix.toNat)) s.regs.npix
    (appendNibbles ns (track 0 0 s))) (appendNibbles_cursorOk ns s)
  have hpad : padding [] (track (lastNonzero (pixels s s.regs.npix.toNat)) s.regs.npix
      (appendNibbles ns (track 0 0 s))).regs = padding ns s.regs := padding_append ns s
  rw [hpad] at hflush
  constructor
  · intro h
    obtain ⟨ha, hb⟩ := hroom.1 h
    rw [startBody_self_track, key.1 ha]
    dsimp only
    rw [hflush.1 hb]
    unfold encodedFrame
    dsimp only
    rw [appendNibbles_append _ _ s hc ha]
    rfl
  · intro h
    by_cases ha : RoomFor ns s
    · rw [startBody_self_track, key.1 ha]
      dsimp only
      exact hflush.2 fun hb => h (hroom.2 ⟨ha, hb⟩)
    · rw [startBody_self_track, key.2 ha]

end Sys2Proof.Machine
end

