-- ==== Sys2Proof/Laws/Zigzag.lean ====
section
/-! SUPPORT. The zigzag functions in whole-number arithmetic (41_rundelta.md R150, R151). -/

namespace Sys2Proof.Machine

open Sys2Proof

theorem topBit16_iff (d : BitVec 16) : d.getLsbD 15 = true ↔ 2 ^ 15 ≤ d.toNat := by
  rw [show d.getLsbD 15 = d.msb by rw [BitVec.msb_eq_getLsbD_last], BitVec.msb_eq_decide]
  simp

/-- ZigzagEncode16 (41_rundelta.md R150). -/
theorem zigzagEncode16_toNat (d : BitVec 16) : (zigzagEncode16 d).toNat =
    if d.toNat < 2 ^ 15 then 2 * d.toNat else 2 * (2 ^ 16 - d.toNat) - 1 := by
  have hd := d.isLt
  have hs : (d <<< 1).toNat = 2 * d.toNat % 2 ^ 16 := by
    rw [BitVec.toNat_shiftLeft, Nat.shiftLeft_eq]
    omega
  unfold zigzagEncode16
  by_cases h : 2 ^ 15 ≤ d.toNat
  · rw [if_pos ((topBit16_iff d).2 h), if_neg (by omega), show (0xFFFF : BitVec 16) = BitVec.allOnes 16 from rfl,
      BitVec.xor_allOnes, BitVec.toNat_not, hs]
    omega
  · rw [if_neg (fun hb => h ((topBit16_iff d).1 hb)), if_pos (by omega), show (0 : BitVec 16) = 0#16 from rfl, BitVec.xor_zero, hs]
    omega

/-- ZigzagDecode32 (41_rundelta.md R151). -/
theorem zigzagDecode32_toNat (c : Word) : (zigzagDecode32 c).toNat =
    if c.toNat % 2 = 0 then c.toNat / 2 else 2 ^ 32 - (c.toNat + 1) / 2 := by
  have hc := c.isLt
  have hs : (c >>> 1).toNat = c.toNat / 2 := by
    rw [BitVec.toNat_ushiftRight, Nat.shiftRight_eq_div_pow]
  have hb : c.getLsbD 0 = decide (c.toNat % 2 = 1) := by
    rw [BitVec.getLsbD, Nat.testBit_zero]
  unfold zigzagDecode32
  rw [hb]
  by_cases h : c.toNat % 2 = 0
  · rw [if_neg (by simp; omega), if_pos h, show (0 : BitVec 32) = 0#32 from rfl, BitVec.xor_zero, hs]
  · rw [if_pos (by simp; omega), if_neg h, show (0xFFFFFFFF : BitVec 32) = BitVec.allOnes 32 from rfl,
      BitVec.xor_allOnes, BitVec.toNat_not, hs]
    omega

theorem zigzagEncode16_ofInt (d : BitVec 16) : (zigzagEncode16 d).setWidth 32 =
    BitVec.ofInt 32 (if 0 ≤ d.toInt then 2 * d.toInt else -2 * d.toInt - 1) := by
  have hd := d.isLt
  apply BitVec.eq_of_toNat_eq
  rw [BitVec.toNat_setWidth, zigzagEncode16_toNat, BitVec.toNat_ofInt, BitVec.toInt_eq_toNat_cond]
  split_ifs <;> omega

theorem zigzagDecode32_ofInt (c : Word) : zigzagDecode32 c =
    BitVec.ofInt 32 (if c.toNat % 2 = 0 then (c.toNat / 2 : Int) else -((c.toNat + 1) / 2 : Int)) := by
  have hc := c.isLt
  apply BitVec.eq_of_toNat_eq
  rw [zigzagDecode32_toNat, BitVec.toNat_ofInt]
  split_ifs <;> omega

/-- A delta is given back by its code, mod 2^16 (41_rundelta.md R151, R159). -/
theorem zigzag_delta (d : BitVec 16) : (zigzagDecode32 ((zigzagEncode16 d).setWidth 32)).setWidth 16 = d := by
  have hd := d.isLt
  apply BitVec.eq_of_toNat_eq
  rw [BitVec.toNat_setWidth, zigzagDecode32_toNat, BitVec.toNat_setWidth, zigzagEncode16_toNat]
  split_ifs <;> omega

end Sys2Proof.Machine
end

