-- ==== Sys2Proof/Laws/FrameCodes.lean ====
section
/-! SUPPORT. The stream an encoder writes as a stream a decoder reads: the pairs of a frame as pairs of codes, which spell
the frame again (41_rundelta.md R159). -/

namespace Sys2Proof.Machine

open Sys2Proof

/-- The delta codes of a nonzero run, one by one. -/
def deltaCodes (prev : Pixel) : List Pixel → List (List Nibble)
  | [] => []
  | p :: ps => vleCode ((zigzagEncode16 (p - prev)).setWidth 32) :: deltaCodes p ps

theorem deltaCodes_flatten (prev : Pixel) (ps : List Pixel) :
    (deltaCodes prev ps).flatten = deltaNibbles prev ps := by
  induction ps generalizing prev with
  | nil => rfl
  | cons p ps ih => rw [deltaCodes, List.flatten_cons, ih, deltaNibbles]

@[simp] theorem deltaCodes_length (prev : Pixel) (ps : List Pixel) : (deltaCodes prev ps).length = ps.length := by
  induction ps generalizing prev with
  | nil => rfl
  | cons p ps ih => rw [deltaCodes, List.length_cons, ih, List.length_cons]

theorem vleCode_ok (v : Word) : IsCode (vleCode v) ∧ codeValue (vleCode v) < 2 ^ 32 := by
  obtain ⟨h₁, h₂⟩ := vleCode_codeOf v
  exact ⟨h₁, by rw [h₂]; exact v.isLt⟩

theorem vleCode_value (v : Word) : codeValue (vleCode v) = v.toNat := (vleCode_codeOf v).2

theorem vleCode_value_ofNat (n : Nat) (h : n < 2 ^ 32) : codeValue (vleCode (BitVec.ofNat 32 n)) = n := by
  rw [vleCode_value, BitVec.toNat_ofNat, Nat.mod_eq_of_lt h]

theorem deltaCodes_ok (prev : Pixel) (ps : List Pixel) : CodesOk (deltaCodes prev ps) := by
  induction ps generalizing prev with
  | nil => intro d hd; cases hd
  | cons p ps ih =>
    intro d hd
    rcases List.mem_cons.1 hd with rfl | hd
    · exact vleCode_ok _
    · exact ih p d hd

/-- A nonzero run is given back by its delta codes (41_rundelta.md R151, R155). -/
theorem deltaPixels_deltaCodes (prev : Pixel) (ps : List Pixel) : deltaPixels prev (deltaCodes prev ps) = ps := by
  induction ps generalizing prev with
  | nil => rfl
  | cons p ps ih =>
    have hcur : prev + (zigzagDecode32 (BitVec.ofNat 32 (codeValue (vleCode ((zigzagEncode16 (p - prev)).setWidth 32))))).setWidth
        16 = p := by
      rw [vleCode_value, BitVec.ofNat_toNat, BitVec.setWidth_eq, zigzag_delta, add_sub_cancel]
    simp only [deltaCodes, deltaPixels, hcur, ih]

/-- The codes of a list of pairs after the nonzero pixel `prev`. -/
def pairCodes (prev : Pixel) : List (Nat × List Pixel) → List PairCodes
  | [] => []
  | (z, nz) :: rest =>
    { zero := vleCode (BitVec.ofNat 32 z), nonzero := vleCode (BitVec.ofNat 32 nz.length), deltas := deltaCodes prev nz } ::
      pairCodes (nz.getLastD prev) rest

theorem pairCodes_nibbles (prev : Pixel) (ps : List (Nat × List Pixel)) :
    (pairCodes prev ps).flatMap PairCodes.nibbles = pairNibbles prev ps := by
  induction ps generalizing prev with
  | nil => rfl
  | cons p ps ih =>
    obtain ⟨z, nz⟩ := p
    rw [pairCodes, List.flatMap_cons, ih, pairNibbles, PairCodes.nibbles, deltaCodes_flatten]

/-- How many pixels a list of pairs stands for. -/
def pairsLength (ps : List (Nat × List Pixel)) : Nat := (ps.map (fun p => p.1 + p.2.length)).sum

theorem pairsLength_cons (p : Nat × List Pixel) (ps : List (Nat × List Pixel)) :
    pairsLength (p :: ps) = p.1 + p.2.length + pairsLength ps := by simp [pairsLength]

theorem pairCodes_legal (prev : Pixel) (ps : List (Nat × List Pixel)) (h : pairsLength ps < 2 ^ 32) :
    ∀ p ∈ pairCodes prev ps, p.Legal := by
  induction ps generalizing prev with
  | nil => intro p hp; cases hp
  | cons q ps ih =>
    obtain ⟨z, nz⟩ := q
    rw [pairsLength_cons] at h
    dsimp only at h
    intro p hp
    rw [pairCodes] at hp
    rcases List.mem_cons.1 hp with rfl | hp
    · refine ⟨vleCode_ok _, vleCode_ok _, deltaCodes_ok _ _, ?_⟩
      dsimp only
      rw [deltaCodes_length, vleCode_value_ofNat _ (by omega)]
    · exact ih _ (by omega) p hp

theorem pairCodes_lengths (prev : Pixel) (ps : List (Nat × List Pixel)) (h : pairsLength ps < 2 ^ 32) :
    (pairCodes prev ps).map PairCodes.length = ps.map (fun p => p.1 + p.2.length) := by
  induction ps generalizing prev with
  | nil => rfl
  | cons q ps ih =>
    obtain ⟨z, nz⟩ := q
    rw [pairsLength_cons] at h
    dsimp only at h
    rw [pairCodes, List.map_cons, List.map_cons, ih _ (by omega), PairCodes.length]
    dsimp only
    rw [vleCode_value_ofNat _ (by omega), vleCode_value_ofNat _ (by omega)]

/-- The pixels of pairs are given back by their codes, with PREV at their end. -/
theorem pairPixels_pairCodes (prev : Pixel) (ps : List (Nat × List Pixel)) (h : pairsLength ps < 2 ^ 32) :
    pairPixels prev (pairCodes prev ps) =
      (ps.flatMap (fun p => List.replicate p.1 0 ++ p.2), pairsLast prev ps) := by
  induction ps generalizing prev with
  | nil => rfl
  | cons q ps ih =>
    obtain ⟨z, nz⟩ := q
    rw [pairsLength_cons] at h
    dsimp only at h
    rw [pairCodes, pairPixels]
    dsimp only
    rw [deltaPixels_deltaCodes, ih _ (by omega), vleCode_value_ofNat _ (by omega), List.flatMap_cons, pairsLast]

/-- The pairs of a frame spell it (30_encoding.md R104). -/
theorem pairsOf_pixels (l : List Pixel) : (pairsOf l).flatMap (fun p => List.replicate p.1 0 ++ p.2) = l := by
  induction l with
  | nil => rfl
  | cons p ps ih =>
    by_cases hp : p = 0
    · rw [pairsOf, if_pos hp]
      cases h : pairsOf ps with
      | nil =>
        rw [h] at ih
        rw [← ih, hp]
        rfl
      | cons q qs =>
        obtain ⟨z, nz⟩ := q
        rw [h] at ih
        conv_rhs => rw [← ih, hp]
        simp [List.replicate_succ]
    · rw [pairsOf, if_neg hp]
      cases h : pairsOf ps with
      | nil =>
        rw [h] at ih
        rw [← ih]
        rfl
      | cons q qs =>
        obtain ⟨z, nz⟩ := q
        rw [h] at ih
        conv_rhs => rw [← ih]
        cases z <;> simp

theorem pairsLength_eq (ps : List (Nat × List Pixel)) :
    pairsLength ps = (ps.flatMap (fun p => List.replicate p.1 (0 : Pixel) ++ p.2)).length := by
  induction ps with
  | nil => rfl
  | cons p ps ih => rw [pairsLength_cons, ih, List.flatMap_cons, List.length_append, List.length_append, List.length_replicate]

theorem pairsOf_length (l : List Pixel) : pairsLength (pairsOf l) = l.length := by
  rw [pairsLength_eq, pairsOf_pixels]

/-- No pair of a frame is empty (41_rundelta.md R160). -/
theorem pairsOf_pos (l : List Pixel) : ∀ p ∈ pairsOf l, 1 ≤ p.1 + p.2.length := by
  induction l with
  | nil => intro p hp; cases hp
  | cons x ps ih =>
    intro p hp
    rw [pairsOf] at hp
    split at hp
    · split at hp
      · simp only [List.mem_singleton] at hp
        subst hp
        simp
      · rename_i z nz rest h
        rw [h] at ih
        rcases List.mem_cons.1 hp with rfl | hp
        · dsimp only; omega
        · exact ih p (by simp [hp])
    · split at hp
      · rename_i nz rest h
        rw [h] at ih
        rcases List.mem_cons.1 hp with rfl | hp
        · simp
        · exact ih p (by simp [hp])
      · rcases List.mem_cons.1 hp with rfl | hp
        · simp
        · exact ih p hp

/-- The codes of a nonempty frame end it (30_encoding.md R104). -/
theorem frameCodes_end (l : List Pixel) (h : l ≠ []) (hl : l.length < 2 ^ 32) :
    EndsFrame l.length (pairCodes 0 (pairsOf l)) := by
  have hne : pairCodes 0 (pairsOf l) ≠ [] := by
    have := pairsOf_ne_nil l h
    cases hp : pairsOf l with
    | nil => exact absurd hp this
    | cons q qs => obtain ⟨z, nz⟩ := q; simp [pairCodes]
  have hlen := pairCodes_lengths 0 (pairsOf l) (by rw [pairsOf_length]; exact hl)
  have hsum : ((pairCodes 0 (pairsOf l)).map PairCodes.length).sum = l.length := by
    rw [hlen]
    exact pairsOf_length l
  refine ⟨(pairCodes 0 (pairsOf l)).dropLast, (pairCodes 0 (pairsOf l)).getLast hne,
    (List.dropLast_append_getLast hne).symm, by rw [List.dropLast_append_getLast hne, hsum], fun k hk => ?_⟩
  have hpos : ∀ x ∈ (pairCodes 0 (pairsOf l)).map PairCodes.length, 1 ≤ x := by
    rw [hlen]
    intro x hx
    obtain ⟨p, hp, rfl⟩ := List.mem_map.1 hx
    exact pairsOf_pos l p hp
  rw [List.length_dropLast] at hk
  have hk' : k < (pairCodes 0 (pairsOf l)).length := by
    have := List.length_pos_iff.2 hne
    omega
  have htake : (pairCodes 0 (pairsOf l)).dropLast.take k = (pairCodes 0 (pairsOf l)).take k := by
    rw [List.dropLast_eq_take, List.take_take, Nat.min_eq_left hk]
  rw [htake, ← hsum, ← List.take_append_drop k (pairCodes 0 (pairsOf l)), List.map_append, List.sum_append,
    List.take_append_drop]
  have hd : 1 ≤ (((pairCodes 0 (pairsOf l)).drop k).map PairCodes.length).sum := by
    rw [List.drop_eq_getElem_cons hk', List.map_cons, List.sum_cons]
    have := hpos _ (List.mem_map_of_mem (List.getElem_mem hk'))
    omega
  omega

theorem frameNibbles_codes (l : List Pixel) : (pairCodes 0 (pairsOf l)).flatMap PairCodes.nibbles = frameNibbles l :=
  pairCodes_nibbles 0 _

theorem frameCodes_legal (l : List Pixel) (hl : l.length < 2 ^ 32) : ∀ p ∈ pairCodes 0 (pairsOf l), p.Legal :=
  pairCodes_legal 0 _ (by rw [pairsOf_length]; exact hl)

theorem frameCodes_pixels (l : List Pixel) (hl : l.length < 2 ^ 32) :
    (pairPixels 0 (pairCodes 0 (pairsOf l))).1 = l := by
  rw [pairPixels_pairCodes _ _ (by rw [pairsOf_length]; exact hl)]
  exact pairsOf_pixels l

/-- RdcDecodeBody on a copy of what RdcEncodeBody stored for the frame `l` (41_rundelta.md R159). -/
theorem rdcDecodeBody_copy (l : List Pixel) (s u : State) (h0 : s.regs.wrNib = 0) (hl : l ≠ []) (hl32 : l.length < 2^32)
   (hc : s.cfg.outCap < 2^32)
   (hroom : RoomFor (frameNibbles l ++ padding (frameNibbles l) s.regs) s)
   (hn : u.regs.npix.toNat = l.length) (hm : l.length ≤ u.cfg.maxPixels) (hu : ReadCursorOk u.regs)
   (hp : u.regs.rdPos = s.regs.wrPos) (hz : u.regs.rdNib = 0)
   (hlen : (appendNibbles (frameNibbles l ++ padding (frameNibbles l) s.regs) s).regs.wrPos.toNat ≤ u.regs.inLen.toNat)
   (hb : ∀ a, s.regs.wrPos.toNat ≤ a → a < (appendNibbles (frameNibbles l ++ padding (frameNibbles l) s.regs) s).regs.wrPos.toNat →
      u.inByte a = (appendNibbles (frameNibbles l ++ padding (frameNibbles l) s.regs) s).outByte a) :
   ∃ v, rdcDecodeBody u = .ok v ∧
     (setFrameValid v).regs.rdPos = (appendNibbles (frameNibbles l ++ padding (frameNibbles l) s.regs) s).regs.wrPos ∧
     (∀ j (h : j < l.length), v.pixel j = l[j]) ∧ v.status = u.status ∧ v.regs.width = u.regs.width ∧ v.regs.height = u.regs.height := by
  set ns := frameNibbles l with hns
  set all := ns ++ padding ns s.regs with hall
  have h8 : all.length % 8 = 0 := by rw [hall]; unfold padding; simp [h0]; omega
  have hpos := appendNibbles_wrPos all s hc hroom
  rw [h0, show (0 : BitVec 4).toNat = 0 from rfl] at hpos
  obtain ⟨rest, hrest⟩ := readStream_of_copy s u all h0 h8 hz hp (by omega) (by intro a h1 h2; exact hb a h1 (by omega))
  have he := frameCodes_end l hl hl32
  have hpl := List.length_pos_iff.2 hl
  rw [← hn] at he
  obtain ⟨v, hv, hf⟩ := rdcDecodeBody_decoded (pairCodes 0 (pairsOf l)) (padding ns s.regs ++ rest) u hu (by omega) (by omega)
    (frameCodes_legal l hl32) he (by rw [hrest, hall, frameNibbles_codes, List.append_assoc])
  have hlenns : all.length = ns.length + (padding ns s.regs).length := by simp [hall]
  have hpadlt : (padding ns s.regs).length < 8 := by unfold padding; simp; omega
  refine ⟨v, hv, ?_, ?_, ?_, ?_, ?_⟩
  · rw [hf]
    unfold decodedFrame
    rw [frameNibbles_codes]
    dsimp only
    rw [advanceRead, hz, ← hns]
    have : 1 ≤ ns.length := by
      by_contra hc
      have : ns = [] := List.eq_nil_of_length_eq_zero (by omega)
      have h2 := pairsOf_ne_nil l hl
      rw [hns, ← frameNibbles_codes] at this
      obtain ⟨q, hq⟩ := List.exists_mem_of_ne_nil _ (show pairCodes 0 (pairsOf l) ≠ [] by
        cases h : pairsOf l with
        | nil => exact absurd h h2
        | cons a b => obtain ⟨z, nz⟩ := a; simp [pairCodes])
      have h3 := pairNibbles_length q (frameCodes_legal l hl32 q hq)
      have := List.flatMap_eq_nil_iff.1 this q hq
      rw [this] at h3; simp at h3
    rw [if_neg (by simp; intro h; simp [h] at this)]
    apply BitVec.eq_of_toNat_eq
    rw [hpos]
    dsimp only
    rw [BitVec.toNat_add, hp, BitVec.toNat_ofNat]
    have := (appendNibbles all s).regs.wrPos.isLt
    rw [hpos] at this
    rw [show (0 : BitVec 4).toNat = 0 from rfl]
    omega
  · intro j h
    have : v.pixel j = (decodedFrame (pairCodes 0 (pairsOf l)) u).pixel j := by rw [← hf]; rfl
    rw [this]
    unfold decodedFrame State.pixel
    dsimp only
    rw [lookup_storePixels]
    simp only [frameCodes_pixels l hl32]
    rw [dif_pos ⟨by omega, by simpa using h⟩]
    simp
  all_goals
    obtain ⟨_, _, _, _, _, _, rfl⟩ := rdcDecodeBody_decodes u v hv
    rfl

end Sys2Proof.Machine
end

