-- ==== Sys2Proof/Laws/HeaderText.lean ====
section
/-! SUPPORT. The fields of a textual header where they stand in IN_MEM: ParseDec, the token scan of ParseF32, and the magic
(42_frame.md R180, R182, R183). -/

namespace Sys2Proof.Machine

open Sys2Proof

/-- `bs` stands from index `pos`, all of it below `len`. -/
def BytesIn (byte : Nat → Byte) (len pos : Nat) (bs : List Byte) : Prop :=
  pos + bs.length ≤ len ∧ ∀ j (h : j < bs.length), byte (pos + j) = bs[j]

theorem bytesAt_iff (s : State) (a : Nat) (bs : List Byte) :
    BytesAt s a bs ↔ BytesIn s.inByte s.inLimit a bs := Iff.rfl

theorem bytesIn_append (byte : Nat → Byte) (len pos : Nat) (xs ys : List Byte) :
    BytesIn byte len pos (xs ++ ys) ↔ BytesIn byte len pos xs ∧ BytesIn byte len (pos + xs.length) ys := by
  constructor
  · rintro ⟨h, hb⟩
    rw [List.length_append] at h
    refine ⟨⟨by omega, fun j hj => ?_⟩, ⟨by omega, fun j hj => ?_⟩⟩
    · rw [hb j (by rw [List.length_append]; omega), List.getElem_append_left hj]
    · have := hb (xs.length + j) (by rw [List.length_append]; omega)
      rw [List.getElem_append_right (by omega)] at this
      simp only [Nat.add_sub_cancel_left] at this
      rw [Nat.add_assoc, this]
  · rintro ⟨⟨h₁, b₁⟩, ⟨h₂, b₂⟩⟩
    refine ⟨by rw [List.length_append]; omega, fun j hj => ?_⟩
    by_cases hlt : j < xs.length
    · rw [List.getElem_append_left hlt, b₁ j hlt]
    · rw [List.length_append] at hj
      rw [List.getElem_append_right (by omega), ← b₂ (j - xs.length) (by omega)]
      congr 1
      omega

theorem bytesIn_single (byte : Nat → Byte) (len pos : Nat) (b : Byte) :
    BytesIn byte len pos [b] ↔ pos < len ∧ byte pos = b := by
  constructor
  · rintro ⟨h, hb⟩
    exact ⟨h, by simpa using hb 0 (by simp)⟩
  · rintro ⟨h, hb⟩
    refine ⟨h, fun j hj => ?_⟩
    obtain rfl : j = 0 := by simpa using hj
    exact hb

/-- What stands at an index is one list of its length. -/
theorem bytesIn_unique (byte : Nat → Byte) (len pos : Nat) (xs ys : List Byte) (hl : xs.length = ys.length)
    (hx : BytesIn byte len pos xs) (hy : BytesIn byte len pos ys) : xs = ys :=
  List.ext_getElem hl fun j h₁ h₂ => by rw [← hx.2 j h₁, hy.2 j h₂]

/-- The digits that ParseDec's loop reads (42_frame.md R182). -/
theorem scanDigits_spec (byte : Nat → Byte) (fuel pos v : Nat) :
    ∃ ds : List Byte, (∀ b ∈ ds, isDigit b = true) ∧ BytesIn byte (pos + fuel) pos ds ∧
      (ds.length = fuel ∨ isDigit (byte (pos + ds.length)) = false) ∧
      scanDigits byte fuel pos v = (digitsValue v ds, pos + ds.length) := by
  induction fuel generalizing pos v with
  | zero => exact ⟨[], by simp, ⟨le_rfl, by simp⟩, .inl rfl, rfl⟩
  | succ fuel ih =>
    rw [scanDigits]
    split
    · rename_i hd
      obtain ⟨ds, h₁, h₂, h₃, h₄⟩ := ih (pos + 1) (10 * v + ((byte pos).toNat - 0x30))
      refine ⟨byte pos :: ds, ?_, ?_, ?_, ?_⟩
      · intro b hb
        rcases List.mem_cons.1 hb with rfl | hb
        · exact hd
        · exact h₁ b hb
      · rw [← List.singleton_append, bytesIn_append, bytesIn_single]
        refine ⟨⟨by omega, rfl⟩, ?_⟩
        rw [show pos + (fuel + 1) = pos + 1 + fuel by omega]
        exact h₂
      · rw [List.length_cons, show pos + (ds.length + 1) = pos + 1 + ds.length by omega]
        rcases h₃ with h₃ | h₃
        · exact .inl (by omega)
        · exact .inr h₃
      · have hv : digitsValue v (byte pos :: ds) = digitsValue (10 * v + ((byte pos).toNat - 0x30)) ds := rfl
        have hl : pos + (byte pos :: ds).length = pos + 1 + ds.length := by rw [List.length_cons]; omega
        rw [h₄, hv, hl]
    · rename_i hd
      exact ⟨[], by simp, ⟨by simp, by simp⟩, .inr (by simpa using hd), rfl⟩

/-- Digits followed by something that is no digit are read whole. -/
theorem scanDigits_of (byte : Nat → Byte) (len pos : Nat) (ds : List Byte) (t : Byte) (hd : ∀ b ∈ ds, isDigit b = true)
    (ht : isDigit t = false) (h : BytesIn byte len pos (ds ++ [t])) :
    scanDigits byte (len - pos) pos 0 = (digitsValue 0 ds, pos + ds.length) := by
  obtain ⟨es, h₁, h₂, h₃, h₄⟩ := scanDigits_spec byte (len - pos) pos 0
  obtain ⟨hds, hend⟩ := (bytesIn_append _ _ _ _ _).1 h
  obtain ⟨hlt, hbt⟩ := (bytesIn_single _ _ _ _).1 hend
  have hlen : es.length = ds.length := by
    rcases Nat.lt_trichotomy es.length ds.length with hc | hc | hc
    · rcases h₃ with h₃ | h₃
      · omega
      · rw [hds.2 _ hc] at h₃
        have := hd _ (List.getElem_mem hc)
        rw [this] at h₃
        cases h₃
    · exact hc
    · have := h₁ _ (List.getElem_mem hc)
      rw [← h₂.2 _ hc, hbt, ht] at this
      cases this
  obtain rfl : es = ds := bytesIn_unique byte len pos es ds hlen ⟨by have := hds.1; omega, h₂.2⟩ hds
  exact h₄

/-- ParseDec reads exactly DIGIT+ and its terminator, below 2^32 (30_encoding.md R108, 42_frame.md R182). -/
theorem parseDec_iff (byte : Nat → Byte) (len pos : Nat) (term : Byte) (ht : isDigit term = false) (v q : Nat) :
    parseDec byte len pos term = .ok (v, q) ↔
      ∃ ds, IsDigits ds ∧ digitsValue 0 ds = v ∧ v < 2 ^ 32 ∧ BytesIn byte len pos (ds ++ [term]) ∧
        q = pos + ds.length + 1 := by
  constructor
  · intro h
    obtain ⟨ds, h₁, h₂, -, h₄⟩ := scanDigits_spec byte (len - pos) pos 0
    unfold parseDec at h
    rw [h₄] at h
    dsimp only at h
    split at h
    · cases h
    rename_i hne
    split at h
    · cases h
    rename_i hv
    split at h
    · cases h
    rename_i hterm
    simp only [Except.ok.injEq, Prod.mk.injEq] at h
    obtain ⟨rfl, rfl⟩ := h
    simp only [not_or, not_le, ne_eq, not_not] at hterm
    refine ⟨ds, ⟨?_, h₁⟩, rfl, by omega, ?_, rfl⟩
    · rintro rfl
      exact hne (by simp)
    · rw [bytesIn_append, bytesIn_single]
      exact ⟨⟨by omega, h₂.2⟩, hterm⟩
  · rintro ⟨ds, ⟨hne, hd⟩, rfl, hv, hb, rfl⟩
    have hpos := List.length_pos_iff.2 hne
    obtain ⟨-, hend⟩ := (bytesIn_append _ _ _ _ _).1 hb
    obtain ⟨hlt, hbt⟩ := (bytesIn_single _ _ _ _).1 hend
    unfold parseDec
    rw [scanDigits_of byte len pos ds term hd ht hb]
    dsimp only
    rw [if_neg (by omega), if_neg (by omega), if_neg]
    rw [not_or, not_le, not_not]
    exact ⟨hlt, hbt⟩

theorem parseDec_cases (byte : Nat → Byte) (len pos : Nat) (term : Byte) :
    (∃ v q, parseDec byte len pos term = .ok (v, q)) ∨ parseDec byte len pos term = .error .malformedHeader := by
  unfold parseDec
  dsimp only
  split
  · exact .inr rfl
  · split
    · exact .inr rfl
    · split
      · exact .inr rfl
      · exact .inl ⟨_, _, rfl⟩

/-- The token scan gives the bytes before the first terminator (42_frame.md R183). -/
theorem scanToken_iff (byte : Nat → Byte) (term : Byte) (fuel pos : Nat) (tok : List Byte) :
    scanToken byte term fuel pos = some tok ↔ term ∉ tok ∧ BytesIn byte (pos + fuel) pos (tok ++ [term]) := by
  induction fuel generalizing pos tok with
  | zero =>
    constructor
    · intro h; cases h
    · rintro ⟨-, h, -⟩
      rw [List.length_append, List.length_singleton] at h
      omega
  | succ fuel ih =>
    rw [scanToken]
    split
    · rename_i hb
      constructor
      · intro h
        cases h
        exact ⟨by simp, (bytesIn_single _ _ _ _).2 ⟨by omega, hb⟩⟩
      · rintro ⟨hn, h⟩
        cases tok with
        | nil => rfl
        | cons b bs =>
          have h0 : byte pos = b := by simpa using h.2 0 (by simp)
          rw [hb] at h0
          exact absurd (by simp [h0]) hn
    · rename_i hb
      rw [Option.map_eq_some_iff]
      constructor
      · rintro ⟨bs, h, rfl⟩
        obtain ⟨h₁, h₂⟩ := (ih _ _).1 h
        refine ⟨by simp [h₁, Ne.symm hb], ?_⟩
        rw [List.cons_append, ← List.singleton_append, bytesIn_append, bytesIn_single]
        refine ⟨⟨by omega, rfl⟩, ?_⟩
        rw [show pos + (fuel + 1) = pos + 1 + fuel by omega]
        exact h₂
      · rintro ⟨hn, h⟩
        cases tok with
        | nil => exact absurd ((bytesIn_single _ _ _ _).1 h).2 hb
        | cons b bs =>
          rw [List.cons_append, ← List.singleton_append, bytesIn_append, bytesIn_single] at h
          obtain ⟨⟨-, rfl⟩, h⟩ := h
          rw [show pos + (fuel + 1) = pos + 1 + fuel by omega] at h
          exact ⟨bs, (ih _ _).2 ⟨fun hm => hn (by simp [hm]), h⟩, rfl⟩

/-- CheckMagic (42_frame.md R180). -/
theorem magicOk_iff (s : State) : magicOk s = true ↔ BytesAt s 0 magicBytes := by
  rw [bytesAt_iff, show magicBytes = [0x52] ++ ([0x56] ++ ([0x4C] ++ [0x0A])) from rfl]
  simp only [bytesIn_append, bytesIn_single, magicOk, Bool.and_eq_true, beq_iff_eq, decide_eq_true_iff,
    List.length_singleton]
  constructor
  · rintro ⟨⟨⟨⟨h, a⟩, b⟩, c⟩, d⟩
    exact ⟨⟨by omega, a⟩, ⟨by omega, b⟩, ⟨by omega, c⟩, ⟨by omega, d⟩⟩
  · rintro ⟨⟨-, a⟩, ⟨-, b⟩, ⟨-, c⟩, ⟨h, d⟩⟩
    exact ⟨⟨⟨⟨by omega, a⟩, b⟩, c⟩, d⟩

end Sys2Proof.Machine
end

