-- ==== Sys2Proof/Laws/Headers.lean ====
section
/-! SUPPORT. FcParseBody said once in the terms of the headers that stand in IN_MEM (42_frame.md R181 to R187). -/

namespace Sys2Proof.Machine

open Sys2Proof

/-- The float grammar is read as it is spelled: what the lemmas about a clip line take as given. -/
def FloatReads : Prop := ∀ tok d, parseFlt tok = some d ↔ IsFlt tok d

/-- A float field holds neither terminator (30_encoding.md R109). -/
theorem isFlt_chars (tok : List Byte) (d : Decimal) (h : IsFlt tok d) : ∀ b ∈ tok, b ≠ 0x20 ∧ b ≠ 0x0A := by
  have dig : ∀ b, isDigit b = true → b ≠ 0x20 ∧ b ≠ 0x0A := by
    intro b h; unfold isDigit at h; rw [decide_eq_true_iff] at h
    constructor <;> (rintro rfl; revert h; decide)
  have sgn : ∀ sg neg, IsSign sg neg → ∀ b ∈ sg, b ≠ 0x20 ∧ b ≠ 0x0A := by
    rintro sg neg (⟨rfl, -⟩ | ⟨rfl, -⟩ | ⟨rfl, -⟩) b hb
    · cases hb
    · simp at hb; subst hb; decide
    · simp at hb; subst hb; decide
  obtain ⟨sg, man, ints, fracs, ex, e, rfl, hsg, ⟨hd, hm⟩, hex, -, -⟩ := h
  intro b hb
  rw [List.mem_append, List.mem_append] at hb
  rcases hb with (hb | hb) | hb
  · exact sgn _ _ hsg b hb
  · have hpt : (0x2E : Byte) ≠ 0x20 ∧ (0x2E : Byte) ≠ 0x0A := by decide
    rcases hm with ⟨rfl, -, rfl⟩ | ⟨rfl, -⟩ | ⟨rfl, rfl, -⟩
    · exact dig b (hd b (by simp [hb]))
    · rw [List.mem_append, List.mem_cons] at hb
      rcases hb with hb | rfl | hb
      · exact dig b (hd b (by simp [hb]))
      · exact hpt
      · exact dig b (hd b (by simp [hb]))
    · rw [List.mem_cons] at hb
      rcases hb with rfl | hb
      · exact hpt
      · exact dig b (hd b (by simp [hb]))
  · rcases hex with ⟨rfl, -⟩ | ⟨mark, sg, neg, ds, rfl, hm, hs, hds, -⟩
    · cases hb
    · rw [List.mem_cons, List.mem_append] at hb
      rcases hb with rfl | hb | hb
      · rcases hm with rfl | rfl <;> decide
      · exact sgn _ _ hs b hb
      · exact dig b (hds.2 b hb)

/-- ParseF32 reads exactly a float field and its terminator (42_frame.md R183). -/
theorem parseF32_iff (fg : FloatReads) (byte : Nat → Byte) (len pos : Nat) (term : Byte) (ht : term = 0x20 ∨ term = 0x0A) (x : Word) (q : Nat) :
    parseF32 byte len pos term = .ok (x, q) ↔
      ∃ tok, IsF32Field tok x ∧ BytesIn byte len pos (tok ++ [term]) ∧ q = pos + tok.length + 1 := by
  unfold parseF32
  constructor
  · intro h
    split at h
    · cases h
    rename_i tok htok
    split at h
    · cases h
    rename_i d hd
    split at h
    · cases h
    rename_i y hy
    simp only [Except.ok.injEq, Prod.mk.injEq] at h
    obtain ⟨rfl, rfl⟩ := h
    obtain ⟨hn, hb⟩ := (scanToken_iff _ _ _ _ _).1 htok
    have h1 := hb.1
    rw [List.length_append, List.length_singleton] at h1
    exact ⟨tok, ⟨d, (fg tok d).1 hd, hy⟩, ⟨by rw [List.length_append, List.length_singleton]; omega, hb.2⟩, rfl⟩
  · rintro ⟨tok, ⟨d, hd, hy⟩, hb, rfl⟩
    have hch := isFlt_chars tok d hd
    have hn : term ∉ tok := fun hm => by
      have := hch _ hm
      rcases ht with rfl | rfl
      · exact this.1 rfl
      · exact this.2 rfl
    have h1 := hb.1
    rw [List.length_append, List.length_singleton] at h1
    rw [(scanToken_iff byte term (len - pos) pos tok).2 ⟨hn, ⟨by rw [List.length_append, List.length_singleton]; omega, hb.2⟩⟩]
    dsimp only
    rw [(fg tok d).2 hd]
    dsimp only
    rw [hy]

/-- The one-line textual header field by field (30_encoding.md R107). -/
theorem textHeader_bytes (s : State) (wd ht : List Byte) : BytesAt s 0 (magicBytes ++ wd ++ [0x20] ++ ht ++ [0x0A]) ↔
   BytesAt s 0 magicBytes ∧ BytesAt s 4 (wd ++ [0x20]) ∧ BytesAt s (4 + wd.length + 1) (ht ++ [0x0A]) := by
  rw [show magicBytes ++ wd ++ [0x20] ++ ht ++ [0x0A] = magicBytes ++ ((wd ++ [0x20]) ++ (ht ++ [0x0A])) by simp]
  simp only [bytesAt_iff]
  rw [bytesIn_append, bytesIn_append, show 0 + magicBytes.length = 4 from rfl, List.length_append, List.length_singleton, ← Nat.add_assoc]

/-- The two-line textual header field by field (30_encoding.md R107). -/
theorem clipHeader_bytes (s : State) (wd ht nt ft : List Byte) :
    BytesAt s 0 (magicBytes ++ wd ++ [0x20] ++ ht ++ [0x0A] ++ nt ++ [0x20] ++ ft ++ [0x0A]) ↔
   BytesAt s 0 magicBytes ∧ BytesAt s 4 (wd ++ [0x20]) ∧ BytesAt s (4 + wd.length + 1) (ht ++ [0x0A]) ∧
   BytesAt s (4 + wd.length + 1 + ht.length + 1) (nt ++ [0x20]) ∧ BytesAt s (4 + wd.length + 1 + ht.length + 1 + nt.length + 1) (ft ++ [0x0A]) := by
  rw [show magicBytes ++ wd ++ [0x20] ++ ht ++ [0x0A] ++ nt ++ [0x20] ++ ft ++ [0x0A] = (magicBytes ++ wd ++ [0x20] ++ ht ++ [0x0A]) ++ ((nt ++ [0x20]) ++ (ft ++ [0x0A])) by simp]
  have := textHeader_bytes s wd ht
  simp only [bytesAt_iff] at *
  rw [bytesIn_append, this, bytesIn_append _ _ _ (nt ++ [0x20]) (ft ++ [0x0A]), and_assoc, and_assoc]
  have e1 : 0 + (magicBytes ++ wd ++ [0x20] ++ ht ++ [0x0A]).length = 4 + wd.length + 1 + ht.length + 1 := by simp [magicBytes]; omega
  rw [e1, List.length_append, List.length_singleton, ← Nat.add_assoc]

/-- Each shape is parsed exactly where it stands (42_frame.md R181, R184). -/
theorem parseHeader_iff (fg : FloatReads) (shape tclip : Bool) (s : State) (hd : Header) (hm : BytesAt s 0 magicBytes) :
    parseHeader shape tclip s = .ok hd ↔ HeaderAt shape tclip s hd := by
  have nd : isDigit 0x20 = false ∧ isDigit 0x0A = false := by decide
  cases shape
  · show parseBinaryHeader s = .ok hd ↔ BinHeaderAt s hd
    unfold parseBinaryHeader BinHeaderAt
    split
    · constructor
      · intro h; cases h
      · rintro ⟨h, -⟩; omega
    · constructor
      · intro h; cases h; exact ⟨by omega, hm, rfl⟩
      · rintro ⟨-, -, rfl⟩; rfl
  · have l4 : magicBytes.length = 4 := rfl
    cases tclip
    · show parseTextHeader false s = .ok hd ↔ TextHeaderAt s hd
      unfold parseTextHeader TextHeaderAt
      constructor
      · intro h
        split at h
        · cases h
        rename_i w p hw
        split at h
        · cases h
        rename_i ht q hh
        simp only [Bool.false_eq_true, if_false, Except.ok.injEq] at h
        obtain ⟨wd, hwd, hwv, hw32, hwb, rfl⟩ := (parseDec_iff _ _ _ _ nd.1 _ _).1 hw
        obtain ⟨htd, hhd, hhv, hh32, hhb, rfl⟩ := (parseDec_iff _ _ _ _ nd.2 _ _).1 hh
        subst h
        refine ⟨wd, htd, (textHeader_bytes _ _ _).2 ⟨hm, hwb, hhb⟩, ⟨hwd, ?_⟩, ⟨hhd, ?_⟩, rfl, rfl, rfl, ?_⟩
        · dsimp only; rw [BitVec.toNat_ofNat, Nat.mod_eq_of_lt hw32, hwv]
        · dsimp only; rw [BitVec.toNat_ofNat, Nat.mod_eq_of_lt hh32, hhv]
        · dsimp only; congr 1; simp [l4]; omega
      · rintro ⟨wd, htd, hb, ⟨hwd, hwv⟩, ⟨hhd, hhv⟩, hn, hf, hc, ho⟩
        obtain ⟨-, hwb, hhb⟩ := (textHeader_bytes _ _ _).1 hb
        rw [(parseDec_iff _ _ _ _ nd.1 _ _).2 ⟨wd, hwd, hwv, hd.width.isLt, hwb, rfl⟩]
        dsimp only
        rw [(parseDec_iff _ _ _ _ nd.2 _ _).2 ⟨htd, hhd, hhv, hd.height.isLt, hhb, rfl⟩]
        obtain ⟨w, h, n, f, c, o⟩ := hd
        dsimp only at *
        subst hn hf hc ho
        simp [l4]
        congr 1; omega
    · show parseTextHeader true s = .ok hd ↔ ClipHeaderAt s hd
      unfold parseTextHeader ClipHeaderAt
      constructor
      · intro h
        split at h
        · cases h
        rename_i w p hw
        split at h
        · cases h
        rename_i ht q hh
        simp only [if_true] at h
        split at h
        · cases h
        rename_i nr r hnr
        split at h
        · cases h
        rename_i fr o hfr
        simp only [Except.ok.injEq] at h
        obtain ⟨wd, hwd, hwv, hw32, hwb, rfl⟩ := (parseDec_iff _ _ _ _ nd.1 _ _).1 hw
        obtain ⟨htd, hhd, hhv, hh32, hhb, rfl⟩ := (parseDec_iff _ _ _ _ nd.2 _ _).1 hh
        obtain ⟨nt, hnt, hntb, rfl⟩ := (parseF32_iff fg _ _ _ _ (.inl rfl) _ _).1 hnr
        obtain ⟨ft, hft, hftb, rfl⟩ := (parseF32_iff fg _ _ _ _ (.inr rfl) _ _).1 hfr
        subst h
        refine ⟨wd, htd, nt, ft, (clipHeader_bytes _ _ _ _ _).2 ⟨hm, hwb, hhb, hntb, hftb⟩, ⟨hwd, ?_⟩, ⟨hhd, ?_⟩, hnt, hft, rfl, ?_⟩
        · dsimp only; rw [BitVec.toNat_ofNat, Nat.mod_eq_of_lt hw32, hwv]
        · dsimp only; rw [BitVec.toNat_ofNat, Nat.mod_eq_of_lt hh32, hhv]
        · dsimp only; congr 1; simp [l4]; omega
      · rintro ⟨wd, htd, nt, ft, hb, ⟨hwd, hwv⟩, ⟨hhd, hhv⟩, hn, hf, hc, ho⟩
        obtain ⟨-, hwb, hhb, hntb, hftb⟩ := (clipHeader_bytes _ _ _ _ _).1 hb
        rw [(parseDec_iff _ _ _ _ nd.1 _ _).2 ⟨wd, hwd, hwv, hd.width.isLt, hwb, rfl⟩]
        dsimp only
        rw [(parseDec_iff _ _ _ _ nd.2 _ _).2 ⟨htd, hhd, hhv, hd.height.isLt, hhb, rfl⟩]
        dsimp only
        rw [if_pos rfl, (parseF32_iff fg _ _ _ _ (.inl rfl) _ _).2 ⟨nt, hn, hntb, rfl⟩]
        dsimp only
        rw [(parseF32_iff fg _ _ _ _ (.inr rfl) _ _).2 ⟨ft, hf, hftb, rfl⟩]
        obtain ⟨w, h, n, f, c, o⟩ := hd
        dsimp only at *
        subst hc ho
        simp [l4]
        congr 1; omega

/-- ValidateHeader passes exactly on the DepthFrame invariants (42_frame.md R185). -/
theorem headerOk_iff (c : Capacities) (w h nr fr : Word) (clip : Bool) :
    headerOk c w h nr fr clip = true ↔ HeaderLegal c w h nr fr clip := by
  have nz (x : Word) : x ≠ 0 ↔ 1 ≤ x.toNat := by
    rw [Nat.one_le_iff_ne_zero]
    exact not_congr ⟨fun h => by rw [h]; rfl, fun h => BitVec.eq_of_toNat_eq (by simpa using h)⟩
  unfold headerOk HeaderLegal
  simp only [Bool.and_eq_true, decide_eq_true_iff, nz, and_assoc, Bool.or_eq_true, Bool.not_eq_true', f32Lt, f32Rank_lt_iff]
  cases clip <;> simp

/-- Every shape begins with the magic (30_encoding.md R106, R107). -/
theorem headerAt_magic (shape tclip : Bool) (s : State) (hd : Header) (h : HeaderAt shape tclip s hd) :
    BytesAt s 0 magicBytes := by
  cases shape
  · exact h.2.1
  · cases tclip
    · obtain ⟨wd, ht, hb, -⟩ := h
      exact ((textHeader_bytes _ _ _).1 hb).1
    · obtain ⟨wd, ht, nt, ft, hb, -⟩ := h
      exact ((clipHeader_bytes _ _ _ _ _).1 hb).1

/-- FcParseBody on a legal header (42_frame.md R187). -/
theorem fcParseBody_header (fg : FloatReads) (shape tclip : Bool) (s : State) (hd : Header) (h : HeaderAt shape tclip s hd)
    (hl : HeaderLegal s.cfg hd.width hd.height hd.near hd.far hd.clip) : fcParseBody shape tclip s = .ok (setHeader hd s) := by
  have hm := headerAt_magic shape tclip s hd h
  unfold fcParseBody
  rw [(magicOk_iff s).2 hm, (parseHeader_iff fg shape tclip s hd hm).2 h]
  dsimp only
  rw [(headerOk_iff _ _ _ _ _ _).2 hl]
  simp

/-- FcParseBody without the magic (42_frame.md R180, R187). -/
theorem fcParseBody_badMagic (shape tclip : Bool) (s : State) (h : ¬ BytesAt s 0 magicBytes) :
    fcParseBody shape tclip s = .error .badMagic := by
  unfold fcParseBody
  rw [Bool.eq_false_iff.2 fun hm => h ((magicOk_iff s).1 hm)]
  rfl

/-- FcParseBody without a legal header (42_frame.md R187). -/
theorem fcParseBody_badHeader (fg : FloatReads) (shape tclip : Bool) (s : State) (hm : BytesAt s 0 magicBytes)
    (h : ∀ hd, HeaderAt shape tclip s hd → ¬ HeaderLegal s.cfg hd.width hd.height hd.near hd.far hd.clip) : fcParseBody shape tclip s = .error .malformedHeader := by
  unfold fcParseBody
  rw [(magicOk_iff s).2 hm]
  simp only [Bool.not_true, Bool.false_eq_true, if_false]
  cases hp : parseHeader shape tclip s with
  | error e =>
    dsimp only
    have := parseHeader_raises shape tclip s
    rw [hp] at this
    simpa [Raises] using this
  | ok hd =>
    dsimp only
    rw [if_neg]
    intro hk
    exact h hd ((parseHeader_iff fg shape tclip s hd hm).1 hp) ((headerOk_iff _ _ _ _ _ _).1 hk)

end Sys2Proof.Machine
end

