-- ==== Sys2Proof/Laws/HeaderWrite.lean ====
section
/-! SUPPORT. WriteHeaderBody said once in the terms of `writtenHeader`, and its bytes read back (42_frame.md R191, R197). -/

namespace Sys2Proof.Machine

open Sys2Proof

/-- The header registers hold what WriteHeaderBody accepts (42_frame.md R191). -/
abbrev WritableHeader (s : State) : Prop :=
  s.regs.clipValid = true ∧ HeaderLegal s.cfg s.regs.width s.regs.height s.regs.near s.regs.far true

theorem lookup_storeBytes (m : Memory Byte) (a : Nat) (bs : List Byte) (b : Nat) :
    Memory.lookup (storeBytes m a bs) b = if h : a ≤ b ∧ b - a < bs.length then some bs[b - a] else m.lookup b := by
  induction bs generalizing m a with
  | nil => simp [storeBytes]
  | cons x bs ih =>
    rw [storeBytes, ih, lookup_insert]
    by_cases h1 : b = a
    · subst h1; simp
    · by_cases h2 : a + 1 ≤ b ∧ b - (a + 1) < bs.length
      · rw [dif_pos h2, dif_pos ⟨by omega, by simp; omega⟩]
        congr 1
        have : b - a = (b - (a + 1)) + 1 := by omega
        simp only [this, List.getElem_cons_succ]
      · rw [dif_neg h2, dif_neg (by simp; omega), if_neg h1]

/-- A word write is the write of its bytes (20_memory.md R61). -/
theorem memWrite_storeBytes (m : Memory Byte) (a : Nat) (w : Word) :
    memWrite m a 4 w.toNat = storeBytes m a (bytesOfWord w) := by
  have h (k : Nat) (hk : k < 32): w.extractLsb' k 8 = BitVec.ofNat 8 (w.toNat / 2 ^ k) := by
    apply BitVec.eq_of_toNat_eq
    rw [BitVec.extractLsb'_toNat, Nat.shiftRight_eq_div_pow, BitVec.toNat_ofNat]
  simp only [memWrite, bytesOfWord, storeBytes, h 0 (by omega), h 8 (by omega), h 16 (by omega), h 24 (by omega)]
  simp only [Nat.div_div_eq_div_mul]
  norm_num

theorem storeBytes_append (m : Memory Byte) (a : Nat) (xs ys : List Byte) :
   storeBytes m a (xs ++ ys) = storeBytes (storeBytes m a xs) (a + xs.length) ys := by
  induction xs generalizing m a with
  | nil => rfl
  | cons x xs ih => rw [List.cons_append, storeBytes, ih, storeBytes, List.length_cons]; congr 1; omega

/-- What WriteHeaderBody leaves (42_frame.md R191). -/
theorem putHeader_stores (s : State) :
    { putHeader s with regs := { s.regs with wrPos := 20, wrNib := 0, wrAcc := 0 } } = writtenHeader s := by
  have hm : bytesOfWord 0x0A4C5652 = magicBytes := by decide
  unfold putHeader writtenHeader headerBytes State.putOutWord
  dsimp only
  simp only [memWrite_storeBytes, hm]
  rw [storeBytes_append, storeBytes_append, storeBytes_append, storeBytes_append]
  rfl

theorem writeHeaderOk_legal (s : State) (h : WritableHeader s) :
   writeHeaderOk s = true := by
  unfold writeHeaderOk
  rw [(headerOk_iff _ _ _ _ _ _).2 h.2, h.1]; rfl

theorem writeHeaderOk_illegal (s : State) (h : ¬ WritableHeader s) :
   writeHeaderOk s = false := by
  rw [Bool.eq_false_iff]
  unfold writeHeaderOk
  intro hk
  rw [Bool.and_eq_true, headerOk_iff] at hk
  exact h ⟨hk.2, hk.1⟩

/-- WriteHeaderBody on a legal header with room (42_frame.md R191). -/
theorem writeHeaderBody_written (s : State) (h : WritableHeader s) (h20 : 20 ≤ s.cfg.outCap) :
  writeHeaderBody s = .ok (writtenHeader s) := by
      unfold writeHeaderBody
      rw [writeHeaderOk_legal s h]
      simp only [Bool.not_true, Bool.false_eq_true, if_false]
      rw [if_neg (by omega), putHeader_stores]

/-- The 20 header bytes, copied to IN_MEM, are a binary header with the same fields (42_frame.md R197). -/
theorem header_copied (s u : State) (h20 : 20 ≤ u.regs.inLen.toNat) (hb : ∀ a, a < 20 → u.inByte a = (writtenHeader s).outByte a) :
   BinHeaderAt u { width := s.regs.width, height := s.regs.height, near := s.regs.near, far := s.regs.far, clip := true, off := 20 } := by
  have hl : (headerBytes s.regs.width s.regs.height s.regs.near s.regs.far).length = 20 := rfl
  have hby : ∀ a (h : a < 20), u.inByte a = (headerBytes s.regs.width s.regs.height s.regs.near s.regs.far)[a] := by
    intro a h
    rw [hb a h]
    unfold writtenHeader State.outByte
    dsimp only
    rw [lookup_storeBytes, dif_pos ⟨by omega, by omega⟩]
    rfl
  have word : ∀ k (w : Word), (∀ i (hi : i < 4), u.inByte (k + i) = (bytesOfWord w)[i]) → u.inWord k = w := by
    intro k w h
    refine inWord_of_bytes u k w fun i hi => ?_
    rw [h i hi]
    unfold byteOfWord bytesOfWord
    apply BitVec.eq_of_toNat_eq
    interval_cases i <;> simp [BitVec.extractLsb'_toNat, Nat.shiftRight_eq_div_pow]
  have H : ∀ a (h : a < 20), u.inByte a = (magicBytes ++ bytesOfWord s.regs.width ++ bytesOfWord s.regs.height ++ bytesOfWord s.regs.near ++ bytesOfWord s.regs.far)[a] := hby
  refine ⟨h20, ⟨by show 0 + 4 ≤ _; unfold State.inLimit; omega, ?_⟩, ?_⟩
  · intro j hj
    have hj : j < 4 := hj
    rw [Nat.zero_add, H j (by omega)]
    interval_cases j <;> rfl
  · congr 1
    · symm; apply word; intro i hi; rw [H _ (by omega)]; interval_cases i <;> rfl
    · symm; apply word; intro i hi; rw [H _ (by omega)]; interval_cases i <;> rfl
    · symm; apply word; intro i hi; rw [H _ (by omega)]; interval_cases i <;> rfl
    · symm; apply word; intro i hi; rw [H _ (by omega)]; interval_cases i <;> rfl

end Sys2Proof.Machine
end

