-- ==== Sys2Proof/Laws/Input.lean ====
section
/-! SUPPORT. What a command can depend on (10_state.md R34, R43): with another OUT_MEM, and an IN_MEM that agrees below
IN_LEN, its pseudocode goes the same way and makes the same stores. -/

namespace Sys2Proof.Machine

open Sys2Proof

/-! ## The two memories exchanged -/

/-- The state with the memories `m` for IN_MEM and `o` for OUT_MEM. -/
def swapped (m o : Memory Byte) (s : State) : State := { s with inMem := m, outMem := o }

/-- `m` holds what IN_MEM holds below IN_LEN. -/
def AgreesIn (m : Memory Byte) (s : State) : Prop :=
  ∀ a, a < s.regs.inLen.toNat → Memory.lookup m a = Memory.lookup s.inMem a

/-! ## Decoding: the same way, no stores -/

theorem AgreesIn.inByte {m : Memory Byte} {s : State} (o : Memory Byte) (h : AgreesIn m s) (a : Nat)
    (ha : a < s.inLimit) :
    (swapped m o s).inByte a = s.inByte a := by
  unfold State.inByte swapped
  rw [show ({ s with inMem := m, outMem := o } : State).inMem = m from rfl, h a ha]

theorem memRead_congr (f g : Nat → Byte) (a n : Nat) (h : ∀ b, a ≤ b → b < a + n → f b = g b) :
    memRead f a n = memRead g a n := by
  induction n generalizing a with
  | zero => rfl
  | succ n ih =>
    unfold memRead
    rw [h a (by omega) (by omega), ih (a + 1) fun b h1 h2 => h b (by omega) (by omega)]

theorem AgreesIn.inWord {m : Memory Byte} {s : State} (o : Memory Byte) (h : AgreesIn m s) (a : Nat)
    (ha : a + 4 ≤ s.inLimit) :
    (swapped m o s).inWord a = s.inWord a := by
  unfold State.inWord
  rw [memRead_congr _ s.inByte]
  intro b h1 h2
  exact h.inByte o b (by omega)

theorem AgreesIn.decodes {m : Memory Byte} {s t : State} (h : AgreesIn m s) (hd : Decodes s t) : AgreesIn m t := by
  obtain ⟨_, _, _, _, _, _, rfl⟩ := hd
  exact h

theorem getNibble_swapped (m o : Memory Byte) (s : State) (h : AgreesIn m s) :
    getNibble (swapped m o s) = (getNibble s).map (Prod.map id (swapped m o)) := by
  unfold getNibble
  show (if s.regs.rdNib = 0 then if s.regs.rdPos.toNat + 4 > s.regs.inLen.toNat then _ else _ else _) = _
  split
  · split
    · rfl
    · rename_i h1
      have : loadWord (swapped m o s) = swapped m o (loadWord s) := by
        unfold loadWord
        rw [show (swapped m o s).regs = s.regs from rfl, h.inWord o _ (by simpa [State.inLimit] using h1)]
        rfl
      rw [this]; rfl
  · rfl

theorem vleDecodeFrom_swapped (m o : Memory Byte) (fuel : Nat) (r : Word) (s : State) (h : AgreesIn m s) :
    vleDecodeFrom fuel r (swapped m o s) = (vleDecodeFrom fuel r s).map (Prod.map id (swapped m o)) := by
  induction fuel generalizing r s with
  | zero => rfl
  | succ fuel ih =>
    unfold vleDecodeFrom
    rw [getNibble_swapped m o s h]
    cases hn : getNibble s with
    | error e => rfl
    | ok p =>
      obtain ⟨n, t⟩ := p
      have ht := h.decodes (getNibble_reads _ _ _ hn).decodes
      dsimp only [Except.map, Prod.map, id]
      split
      · rfl
      · split
        · exact ih _ t ht
        · rfl

theorem vleDecode_swapped (m o : Memory Byte) (s : State) (h : AgreesIn m s) :
    vleDecode (swapped m o s) = (vleDecode s).map (Prod.map id (swapped m o)) := vleDecodeFrom_swapped m o _ _ s h

theorem putZeros_swapped (m o : Memory Byte) (i k : Nat) (s : State) :
    putZeros i k (swapped m o s) = swapped m o (putZeros i k s) := by
  induction k generalizing i s with
  | zero => rfl
  | succ k ih => exact ih (i + 1) (s.putPixel i 0)

theorem decodeDeltas_swapped (m o : Memory Byte) (k : Nat) (s : State) (h : AgreesIn m s) :
    decodeDeltas k (swapped m o s) = (decodeDeltas k s).map (swapped m o) := by
  induction k generalizing s with
  | zero => rfl
  | succ k ih =>
    unfold decodeDeltas
    rw [vleDecode_swapped m o s h]
    cases hn : vleDecode s with
    | error e => rfl
    | ok p =>
      obtain ⟨n, t⟩ := p
      have ht := h.decodes (vleDecode_reads _ _ _ hn).decodes
      exact ih _ (ht.decodes (emitPixel_decodes _ _))

theorem decodePair_swapped (m o : Memory Byte) (n : Nat) (s : State) (h : AgreesIn m s) :
    decodePair n (swapped m o s) = (decodePair n s).map (swapped m o) := by
  unfold decodePair
  rw [vleDecode_swapped m o s h]
  cases hn : vleDecode s with
  | error e => rfl
  | ok p =>
    obtain ⟨zr, t⟩ := p
    have ht := h.decodes (vleDecode_reads _ _ _ hn).decodes
    dsimp only [Except.map, Prod.map, id]
    rw [show (swapped m o t).regs = t.regs from rfl]
    split
    · rfl
    · have e : addPixcnt zr (putZeros t.regs.pixcnt.toNat zr.toNat (swapped m o t)) =
          swapped m o (addPixcnt zr (putZeros t.regs.pixcnt.toNat zr.toNat t)) := by
        rw [putZeros_swapped]; rfl
      have hu := ht.decodes ((putZeros_decodes t.regs.pixcnt.toNat zr.toNat t).trans (addPixcnt_decodes zr _))
      rw [e, vleDecode_swapped m o _ hu]
      cases hn2 : vleDecode (addPixcnt zr (putZeros t.regs.pixcnt.toNat zr.toNat t)) with
      | error e => rfl
      | ok p =>
        obtain ⟨nzr, u⟩ := p
        have hw := hu.decodes (vleDecode_reads _ _ _ hn2).decodes
        dsimp only [Except.map, Prod.map, id]
        rw [show (swapped m o u).regs = u.regs from rfl]
        split
        · rfl
        · exact decodeDeltas_swapped m o _ u hw

theorem decodePairs_swapped (m o : Memory Byte) (n fuel : Nat) (s : State) (h : AgreesIn m s) :
    decodePairs n fuel (swapped m o s) = (decodePairs n fuel s).map (swapped m o) := by
  induction fuel generalizing s with
  | zero => rfl
  | succ fuel ih =>
    unfold decodePairs
    rw [decodePair_swapped m o n s h]
    cases hn : decodePair n s with
    | error e => rfl
    | ok t =>
      have ht := h.decodes (decodePair_decodes _ _ _ hn)
      dsimp only [Except.map]
      rw [show (swapped m o t).regs = t.regs from rfl]
      split
      · rfl
      · exact ih t ht

theorem rdcDecodeBody_swapped (m o : Memory Byte) (s : State) (h : AgreesIn m s) :
    rdcDecodeBody (swapped m o s) = (rdcDecodeBody s).map (swapped m o) := by
  unfold rdcDecodeBody
  rw [show badPixelCount (swapped m o s) = badPixelCount s from rfl]
  split
  · rfl
  · exact decodePairs_swapped m o _ _ (startBody s) h

theorem scanDigits_congr (f g : Nat → Byte) (fuel pos v : Nat) (h : ∀ a, a < pos + fuel → f a = g a) :
    scanDigits f fuel pos v = scanDigits g fuel pos v := by
  induction fuel generalizing pos v with
  | zero => rfl
  | succ n ih =>
    unfold scanDigits
    rw [h pos (by omega), ih (pos + 1) _ fun a ha => h a (by omega)]

theorem scanToken_congr (f g : Nat → Byte) (term : Byte) (fuel pos : Nat) (h : ∀ a, a < pos + fuel → f a = g a) :
    scanToken f term fuel pos = scanToken g term fuel pos := by
  induction fuel generalizing pos with
  | zero => rfl
  | succ n ih =>
    unfold scanToken
    rw [h pos (by omega), ih (pos + 1) fun a ha => h a (by omega)]

theorem parseDec_congr (f g : Nat → Byte) (len pos : Nat) (term : Byte) (h : ∀ a, a < len → f a = g a) :
    parseDec f len pos term = parseDec g len pos term := by
  unfold parseDec
  have e : scanDigits f (len - pos) pos 0 = scanDigits g (len - pos) pos 0 := by
    by_cases hp : pos ≤ len
    · exact scanDigits_congr _ _ _ _ _ fun a ha => h a (by omega)
    · rw [show len - pos = 0 by omega]; rfl
  rw [e]
  have e2 : ∀ q, (q ≥ len ∨ f q ≠ term) ↔ (q ≥ len ∨ g q ≠ term) := by
    intro q
    by_cases hq : q < len
    · rw [h q hq]
    · exact ⟨fun _ => .inl (by omega), fun _ => .inl (by omega)⟩
  simp only [e2]

theorem parseF32_congr (f g : Nat → Byte) (len pos : Nat) (term : Byte) (h : ∀ a, a < len → f a = g a) :
    parseF32 f len pos term = parseF32 g len pos term := by
  unfold parseF32
  have e : scanToken f term (len - pos) pos = scanToken g term (len - pos) pos := by
    by_cases hp : pos ≤ len
    · exact scanToken_congr _ _ _ _ _ fun a ha => h a (by omega)
    · rw [show len - pos = 0 by omega]; rfl
  rw [e]

theorem parseHeader_swapped (m o : Memory Byte) (shape tclip : Bool) (s : State) (h : AgreesIn m s) :
    parseHeader shape tclip (swapped m o s) = parseHeader shape tclip s := by
  have hb : ∀ a, a < s.inLimit → (swapped m o s).inByte a = s.inByte a := fun a ha => h.inByte o a ha
  have hl : (swapped m o s).inLimit = s.inLimit := rfl
  unfold parseHeader
  cases shape
  · simp only [Bool.false_eq_true, if_false, parseBinaryHeader, hl]
    split
    · rfl
    · rw [h.inWord o 4 (by omega), h.inWord o 8 (by omega), h.inWord o 12 (by omega), h.inWord o 16 (by omega)]
  · simp only [if_true, parseTextHeader, hl, parseDec_congr _ _ _ _ _ hb, parseF32_congr _ _ _ _ _ hb]

theorem magicOk_swapped (m o : Memory Byte) (s : State) (h : AgreesIn m s) : magicOk (swapped m o s) = magicOk s := by
  unfold magicOk
  rw [show (swapped m o s).inLimit = s.inLimit from rfl]
  by_cases h4 : 4 ≤ s.inLimit
  · rw [h.inByte o 0 (by omega), h.inByte o 1 (by omega), h.inByte o 2 (by omega), h.inByte o 3 (by omega)]
  · simp [h4]

theorem fcParseBody_swapped (m o : Memory Byte) (shape tclip : Bool) (s : State) (h : AgreesIn m s) :
    fcParseBody shape tclip (swapped m o s) = (fcParseBody shape tclip s).map (swapped m o) := by
  unfold fcParseBody
  rw [magicOk_swapped m o s h, parseHeader_swapped m o _ _ s h]
  split
  · rfl
  · split
    · rfl
    · rw [show (swapped m o s).cfg = s.cfg from rfl]
      split <;> rfl

theorem frameDecBody_swapped (m o : Memory Byte) (shape tclip : Bool) (s : State) (h : AgreesIn m s) :
    frameDecBody shape tclip (swapped m o s) = (frameDecBody shape tclip s).map (swapped m o) := by
  unfold frameDecBody
  rw [fcParseBody_swapped m o _ _ s h]
  cases hn : fcParseBody shape tclip s with
  | error e => rfl
  | ok t =>
    obtain ⟨hd, -, rfl⟩ := fcParseBody_ok _ _ _ _ hn
    dsimp only [Except.map]
    rw [show setNpixFromHeader (swapped m o (setHeader hd s)) = swapped m o (setNpixFromHeader (setHeader hd s))
      from rfl,
      rdcDecodeBody_swapped m o (setNpixFromHeader (setHeader hd s)) h]
    cases rdcDecodeBody (setNpixFromHeader (setHeader hd s)) <;> rfl

/-! ## Encoding: the same stores -/

/-- The bytes written one after the other, each at its index. -/
def storeAll : List (Nat × Byte) → Memory Byte → Memory Byte
  | [], m => m
  | (a, b) :: ws, m => storeAll ws (m.insert a b)

theorem storeAll_append (ws xs : List (Nat × Byte)) (m : Memory Byte) :
    storeAll (ws ++ xs) m = storeAll xs (storeAll ws m) := by
  induction ws generalizing m with
  | nil => rfl
  | cons w ws ih => exact ih _

/-- A byte after the same stores into two memories is the same byte, or untouched in both. -/
theorem lookup_storeAll (ws : List (Nat × Byte)) (o o' : Memory Byte) (a : Nat) :
    (storeAll ws o).lookup a = (storeAll ws o').lookup a ∨
      ((storeAll ws o).lookup a = o.lookup a ∧ (storeAll ws o').lookup a = o'.lookup a) := by
  induction ws generalizing o o' with
  | nil => exact .inr ⟨rfl, rfl⟩
  | cons w ws ih =>
    obtain ⟨c, b⟩ := w
    rcases ih (o.insert c b) (o'.insert c b) with h | ⟨h, h'⟩
    · exact .inl h
    · simp only [storeAll]
      rw [h, h', lookup_insert, lookup_insert]
      by_cases hc : a = c
      · exact .inl (by rw [if_pos hc, if_pos hc])
      · exact .inr ⟨by rw [if_neg hc], by rw [if_neg hc]⟩

theorem memWrite_stores (a n v : Nat) : ∃ ws, ∀ o : Memory Byte, memWrite o a n v = storeAll ws o := by
  induction n generalizing a v with
  | zero => exact ⟨[], fun _ => rfl⟩
  | succ n ih =>
    obtain ⟨ws, h⟩ := ih (a + 1) (v / 256)
    exact ⟨(a, BitVec.ofNat 8 v) :: ws, fun o => h _⟩

/-- `r` from `s` and `r'` from `s` with its memories exchanged go the same way: the same error, or the same state but for
the memories, after the same stores. -/
def Twin (m o : Memory Byte) (s : State) (r r' : Except CmdError State) : Prop :=
  (∃ e, r = .error e ∧ r' = .error e) ∨
    ∃ t ws, r = .ok t ∧ r' = .ok (swapped m (storeAll ws o) t) ∧ t.outMem = storeAll ws s.outMem

theorem Twin.keep {m o : Memory Byte} {s t : State} (h : t.outMem = s.outMem) :
    Twin m o s (.ok t) (.ok (swapped m o t)) :=
  .inr ⟨t, [], rfl, rfl, h⟩

/-- What stores nothing and goes the same way. -/
theorem Twin.same {m o : Memory Byte} {s : State} {r r' : Except CmdError State} (h : r' = r.map (swapped m o))
    (hk : ∀ t, r = .ok t → t.outMem = s.outMem) : Twin m o s r r' := by
  subst h
  cases hr : r with
  | error e => exact .inl ⟨e, rfl, rfl⟩
  | ok t => exact .keep (hk t hr)

theorem Twin.bind {m o : Memory Byte} {s : State} {r r' : Except CmdError State} (h : Twin m o s r r')
    (f : State → Except CmdError State) (hf : ∀ t o', Twin m o' t (f t) (f (swapped m o' t))) :
    Twin m o s (r.bind f) (r'.bind f) := by
  rcases h with ⟨e, rfl, rfl⟩ | ⟨t, ws, rfl, rfl, h⟩
  · exact .inl ⟨e, rfl, rfl⟩
  · rcases hf t (storeAll ws o) with ⟨e, h₁, h₂⟩ | ⟨u, xs, h₁, h₂, h₃⟩
    · exact .inl ⟨e, h₁, h₂⟩
    · exact .inr ⟨u, ws ++ xs, h₁, by rw [storeAll_append]; exact h₂, by rw [storeAll_append, ← h]; exact h₃⟩

theorem storeWord_twin (m o : Memory Byte) (w : Word) (s : State) :
    Twin m o s (storeWord w s) (storeWord w (swapped m o s)) := by
  obtain ⟨ws, h⟩ := memWrite_stores s.regs.wrPos.toNat 4 w.toNat
  unfold storeWord
  show Twin m o s _ (if s.regs.wrPos.toNat + 4 > s.cfg.outCap then _ else _)
  split
  · exact .inl ⟨_, rfl, rfl⟩
  · refine .inr ⟨_, ws, rfl, ?_, h _⟩
    rw [← h]
    rfl

theorem putNibble_twin (m o : Memory Byte) (n : Nibble) (s : State) :
    Twin m o s (putNibble n s) (putNibble n (swapped m o s)) := by
  unfold putNibble
  dsimp only
  rw [show (swapped m o s).regs = s.regs from rfl]
  split
  · exact storeWord_twin _ _ _ _
  · exact .keep rfl

theorem flushWord_twin (m o : Memory Byte) (s : State) : Twin m o s (flushWord s) (flushWord (swapped m o s)) := by
  unfold flushWord
  rw [show (swapped m o s).regs = s.regs from rfl]
  split
  · exact .keep rfl
  · exact storeWord_twin _ _ _ _

theorem putChunks_twin (m o : Memory Byte) (v : Word) (k : Nat) (s : State) :
    Twin m o s (putChunks v k s) (putChunks v k (swapped m o s)) := by
  induction k generalizing s o with
  | zero => exact .keep rfl
  | succ k ih =>
    have e (s : State) : putChunks v (k + 1) s = (putNibble (chunkNibble v k) s).bind (putChunks v k) := by
      rw [putChunks]
      cases putNibble (chunkNibble v k) s <;> rfl
    rw [e, e]
    exact (putNibble_twin _ _ _ _).bind _ fun t o' => ih o' t

theorem vleEncode_twin (m o : Memory Byte) (v : Word) (s : State) :
    Twin m o s (vleEncode v s) (vleEncode v (swapped m o s)) := putChunks_twin m o v _ s

theorem encodeDeltas_twin (m o : Memory Byte) (j k : Nat) (s : State) :
    Twin m o s (encodeDeltas j k s) (encodeDeltas j k (swapped m o s)) := by
  induction k generalizing j s o with
  | zero => exact .keep rfl
  | succ k ih =>
    have e (s : State) : encodeDeltas j (k + 1) s =
        (vleEncode ((zigzagEncode16 (s.pixel j - s.regs.prev)).setWidth 32) s).bind
          (fun t => encodeDeltas (j + 1) k { t with regs := { t.regs with prev := s.pixel j } }) := by
      rw [encodeDeltas]
      cases vleEncode _ s <;> rfl
    rw [e, e]
    exact (vleEncode_twin _ _ _ _).bind _ fun t o' => ih o' _ { t with regs := { t.regs with prev := s.pixel j } }

theorem encodePair_twin (m o : Memory Byte) (n i : Nat) (s : State) :
    (∃ e, encodePair n i s = .error e ∧ encodePair n i (swapped m o s) = .error e) ∨
    ∃ t ws j, encodePair n i s = .ok (t, j) ∧ encodePair n i (swapped m o s) = .ok (swapped m (storeAll ws o) t, j) ∧
      t.outMem = storeAll ws s.outMem := by
  unfold encodePair
  dsimp only
  rw [show (swapped m o s).pixel = s.pixel from rfl]
  generalize runLength s.pixel (fun p => p == 0) (n - i) i = z
  rcases vleEncode_twin m o (BitVec.ofNat 32 z) s with ⟨e, h₁, h₂⟩ | ⟨t, w₁, h₁, h₂, s₁⟩
  · rw [h₁, h₂]; exact .inl ⟨_, rfl, rfl⟩
  rw [h₁, h₂]
  dsimp only
  generalize runLength s.pixel (fun p => p != 0) (n - (i + z)) (i + z) = nz
  rcases vleEncode_twin m (storeAll w₁ o) (BitVec.ofNat 32 nz) t with ⟨e, h₁, h₂⟩ | ⟨u, w₂, h₁, h₂, s₂⟩
  · rw [h₁, h₂]; exact .inl ⟨_, rfl, rfl⟩
  rw [h₁, h₂]
  dsimp only
  rcases encodeDeltas_twin m (storeAll w₂ (storeAll w₁ o)) (i + z) nz u with ⟨e, h₁, h₂⟩ | ⟨w, w₃, h₁, h₂, s₃⟩
  · rw [h₁, h₂]; exact .inl ⟨_, rfl, rfl⟩
  rw [h₁, h₂]
  refine .inr ⟨_, w₁ ++ (w₂ ++ w₃), _, rfl, ?_, ?_⟩
  · rw [storeAll_append, storeAll_append]; rfl
  · rw [storeAll_append, storeAll_append, ← s₁, ← s₂]; exact s₃

theorem encodePairs_twin (m o : Memory Byte) (n fuel i : Nat) (s : State) :
    Twin m o s (encodePairs n fuel i s) (encodePairs n fuel i (swapped m o s)) := by
  induction fuel generalizing i s o with
  | zero => exact .keep rfl
  | succ fuel ih =>
    unfold encodePairs
    split
    · rcases encodePair_twin m o n i s with ⟨e, h₁, h₂⟩ | ⟨t, w₁, j, h₁, h₂, s₁⟩
      · rw [h₁, h₂]; exact .inl ⟨_, rfl, rfl⟩
      · rw [h₁, h₂]
        rcases ih (storeAll w₁ o) j t with ⟨e, h₁, h₂⟩ | ⟨u, w₂, h₁, h₂, s₂⟩
        · exact .inl ⟨_, h₁, h₂⟩
        · exact .inr ⟨u, w₁ ++ w₂, h₁, by rw [storeAll_append]; exact h₂, by rw [storeAll_append, ← s₁]; exact s₂⟩
    · exact .keep rfl

theorem rdcEncodeBody_twin (m o : Memory Byte) (s : State) :
    Twin m o s (rdcEncodeBody s) (rdcEncodeBody (swapped m o s)) := by
  have e (s : State) : rdcEncodeBody s = if badPixelCount s then .error .pixelCountMismatch
      else (encodePairs s.regs.npix.toNat s.regs.npix.toNat 0 (startBody s)).bind flushWord := by
    rw [rdcEncodeBody]
    cases encodePairs s.regs.npix.toNat s.regs.npix.toNat 0 (startBody s) <;> rfl
  rw [e, e, show badPixelCount (swapped m o s) = badPixelCount s from rfl]
  split
  · exact .inl ⟨_, rfl, rfl⟩
  · exact (encodePairs_twin m o s.regs.npix.toNat s.regs.npix.toNat 0 (startBody s)).bind flushWord
      fun t o' => flushWord_twin m o' t

/-! ## Writing a header -/

theorem putOutWord_stores (a : Nat) (w : Word) :
    ∃ ws, ∀ s : State, s.putOutWord a w = { s with outMem := storeAll ws s.outMem } := by
  obtain ⟨ws, h⟩ := memWrite_stores a 4 w.toNat
  exact ⟨ws, fun s => by rw [State.putOutWord, h]⟩

theorem writeHeaderBody_twin (m o : Memory Byte) (s : State) :
    Twin m o s (writeHeaderBody s) (writeHeaderBody (swapped m o s)) := by
  unfold writeHeaderBody
  rw [show writeHeaderOk (swapped m o s) = writeHeaderOk s from rfl, show (swapped m o s).cfg = s.cfg from rfl]
  split
  · exact .inl ⟨_, rfl, rfl⟩
  split
  · exact .inl ⟨_, rfl, rfl⟩
  obtain ⟨w₁, h₁⟩ := putOutWord_stores 0 0x0A4C5652
  obtain ⟨w₂, h₂⟩ := putOutWord_stores 4 s.regs.width
  obtain ⟨w₃, h₃⟩ := putOutWord_stores 8 s.regs.height
  obtain ⟨w₄, h₄⟩ := putOutWord_stores 12 s.regs.near
  obtain ⟨w₅, h₅⟩ := putOutWord_stores 16 s.regs.far
  have hp (t : State) (ht : t.regs = s.regs) :
      putHeader t = { t with outMem := storeAll (w₁ ++ w₂ ++ w₃ ++ w₄ ++ w₅) t.outMem } := by
    unfold putHeader
    rw [ht, h₁, h₂, h₃, h₄, h₅]
    simp only [storeAll_append, ht]
  rw [hp s rfl, hp (swapped m o s) rfl]
  exact .inr ⟨_, w₁ ++ w₂ ++ w₃ ++ w₄ ++ w₅, rfl, rfl, rfl⟩

theorem frameEncBody_twin (m o : Memory Byte) (s : State) :
    Twin m o s (frameEncBody s) (frameEncBody (swapped m o s)) := by
  have e (s : State) : frameEncBody s = (writeHeaderBody s).bind (fun t => rdcEncodeBody (setNpixFromHeader t)) := by
    rw [frameEncBody]
    cases writeHeaderBody s <;> rfl
  rw [e, e]
  exact (writeHeaderBody_twin m o s).bind _ fun t o' => rdcEncodeBody_twin m o' (setNpixFromHeader t)

/-! ## All commands -/

/-- Every pseudocode goes the same way and makes the same stores. -/
theorem bodyOf_twin (m o : Memory Byte) (i : Instr) (s : State) (h : AgreesIn m s) :
    Twin m o s (bodyOf i s) (bodyOf i (swapped m o s)) := by
  have fc (shape tclip : Bool) : Twin m o s (fcParseBody shape tclip s) (fcParseBody shape tclip (swapped m o s)) :=
    .same (fcParseBody_swapped m o _ _ s h) fun t ht => by
      obtain ⟨hd, -, rfl⟩ := fcParseBody_ok _ _ _ _ ht
      rfl
  have fd (shape tclip : Bool) : Twin m o s (frameDecBody shape tclip s) (frameDecBody shape tclip (swapped m o s)) :=
    .same (frameDecBody_swapped m o _ _ s h) fun t ht => by
      obtain ⟨hd, u, -, hu, rfl⟩ := frameDecBody_ok _ _ _ _ ht
      obtain ⟨_, _, _, _, _, _, rfl⟩ := rdcDecodeBody_decodes _ _ hu
      rfl
  cases i with
  | nop => exact .keep rfl
  | vleDec =>
    refine .same ?_ fun t ht => ?_
    · simp only [bodyOf]
      rw [vleDecode_swapped m o s h]
      cases vleDecode s <;> rfl
    · simp only [bodyOf] at ht
      split at ht
      · rename_i v u hu
        cases ht
        obtain ⟨_, _, _, rfl⟩ := vleDecode_reads _ _ _ hu
        rfl
      · cases ht
  | vleEnc => exact vleEncode_twin m o _ s
  | vleFlush => exact flushWord_twin m o s
  | zzEnc => exact .inr ⟨_, [], rfl, rfl, rfl⟩
  | zzDec => exact .inr ⟨_, [], rfl, rfl, rfl⟩
  | rdcDec =>
    refine .same ?_ fun t ht => ?_
    · simp only [bodyOf]
      rw [rdcDecodeBody_swapped m o s h]
      cases rdcDecodeBody s <;> rfl
    · obtain ⟨u, hu, rfl⟩ := markFrame_ok _ _ ht
      obtain ⟨_, _, _, _, _, _, rfl⟩ := rdcDecodeBody_decodes _ _ hu
      rfl
  | rdcEnc => exact rdcEncodeBody_twin m o s
  | fcParseBin => exact fc _ _
  | fcParseText => exact fc _ _
  | fcParseTextClip => exact fc _ _
  | fcWrite => exact writeHeaderBody_twin m o s
  | frameDecBin => exact fd _ _
  | frameDecText => exact fd _ _
  | frameDecTextClip => exact fd _ _
  | frameEnc => exact frameEncBody_twin m o s

theorem windowIfHeaderChecks_swapped (m o : Memory Byte) (win : Window) (s : State) :
    windowIfHeaderChecks win (swapped m o s) = windowIfHeaderChecks win s := by
  rcases writeHeaderBody_twin m o s with ⟨e, h₁, h₂⟩ | ⟨t, ws, h₁, h₂, -⟩ <;> simp only [windowIfHeaderChecks, h₁, h₂]

theorem errorWindow_swapped (m o : Memory Byte) (i : Instr) (s : State) (h : AgreesIn m s) :
    errorWindow i (swapped m o s) = errorWindow i s := by
  have fd (shape tclip : Bool) : frameDecWindow shape tclip (swapped m o s) = frameDecWindow shape tclip s := by
    unfold frameDecWindow
    rw [fcParseBody_swapped m o _ _ s h]
    cases fcParseBody shape tclip s <;> rfl
  have fe : frameEncWindow (swapped m o s) = frameEncWindow s := windowIfHeaderChecks_swapped m o (.out 0 s.cfg.outCap) s
  cases i <;> simp only [errorWindow] <;> first | exact fe | rfl | exact fd _ _

theorem startOf_swapped (m o : Memory Byte) (i : Instr) (s : State) :
    startOf i (swapped m o s) = swapped m o (startOf i s) := by cases i <;> rfl

end Sys2Proof.Machine
end

