-- ==== Sys2Proof/Laws/Outcomes.lean ====
section
/-! SUPPORT. What each command leaves when its pseudocode reaches its end, from any state with legal cursors: the register
side and the memory side in one equation. -/

namespace Sys2Proof.Machine

open Sys2Proof

theorem vleDec_outcome (s : State) (hs : ReadCursorOk s.regs) (v : Word) (t : State) (h : vleDecode s = .ok (v, t)) :
    ∃ c rest, readStream s = c ++ rest ∧ t = advanceRead c.length s := by
  rcases vleDecode_cases s hs with ⟨c, rest, w, hr, -, hd⟩ | hd | hd
  · rw [h] at hd
    simp only [Except.ok.injEq, Prod.mk.injEq] at hd
    exact ⟨c, rest, hr, hd.2⟩
  · rw [h] at hd; cases hd
  · rw [h] at hd; cases hd

theorem vleEnc_outcome (v : Word) (s t : State) (hw : WriteCursorOk s.regs) (hc : s.cfg.outCap < 2 ^ 32)
    (h : vleEncode v s = .ok t) : ∃ ns, RoomFor ns s ∧ t = appendNibbles ns s := by
  obtain ⟨h₁, h₂⟩ := vleEncode_spec v s hw hc
  by_cases hr : RoomFor (vleCode v) s
  · rw [h₁ hr] at h
    cases h
    exact ⟨_, hr, rfl⟩
  · rw [h₂ hr] at h
    cases h

theorem flush_outcome (s t : State) (hw : WriteCursorOk s.regs) (h : flushWord s = .ok t) :
    ∃ ns, RoomFor ns s ∧ t = appendNibbles ns s := by
  obtain ⟨h₁, h₂⟩ := flushWord_spec s hw
  by_cases hr : RoomFor (padding [] s.regs) s
  · rw [h₁ hr] at h
    cases h
    exact ⟨_, hr, rfl⟩
  · rw [h₂ hr] at h
    cases h

theorem rdcDec_outcome (s t : State) (hs : ReadCursorOk s.regs) (h : rdcDecodeBody s = .ok t) :
    badPixelCount s = false ∧ ∃ ps c rest p, ps.length = s.regs.npix.toNat ∧ readStream s = c ++ rest ∧
      t = afterPixels ps p (advanceRead c.length (startBody s)) := by
  unfold rdcDecodeBody at h
  split at h
  · cases h
  rename_i hb
  obtain ⟨ps, rest, hp, hr, hsum, rfl⟩ := decodePairs_ok _ _ (startBody s) t hs s.regs.npix.isLt h
  refine ⟨by simpa using hb, (pairPixels 0 ps).1, ps.flatMap PairCodes.nibbles, rest, (pairPixels 0 ps).2, ?_, hr, rfl⟩
  rw [pairPixels_length _ _ hp, ← hsum]
  show _ = (0 : Word).toNat + _
  simp

theorem rdcEnc_outcome (s t : State) (hw : WriteCursorOk s.regs) (hc : s.cfg.outCap < 2 ^ 32)
    (h : rdcEncodeBody s = .ok t) :
    badPixelCount s = false ∧ ∃ ns p n, RoomFor ns s ∧ t = track p n (appendNibbles ns s) := by
  by_cases hb : badPixelCount s = true
  · rw [rdcEncodeBody, if_pos hb] at h
    cases h
  have hb : badPixelCount s = false := by simpa using hb
  obtain ⟨h1, h2⟩ := (badPixelCount_false s).1 hb
  obtain ⟨h₁, h₂⟩ := rdcEncodeBody_spec s hw hc h1 h2
  refine ⟨hb, ?_⟩
  by_cases hr : RoomFor (frameNibbles (pixels s s.regs.npix.toNat) ++
      padding (frameNibbles (pixels s s.regs.npix.toNat)) s.regs) s
  · rw [h₁ hr] at h
    cases h
    exact ⟨_, _, _, hr, rfl⟩
  · rw [h₂ hr] at h
    cases h

theorem fcParse_outcome (shape tclip : Bool) (s t : State) (h : fcParseBody shape tclip s = .ok t) :
    ∃ hd, headerOk s.cfg hd.width hd.height hd.near hd.far hd.clip = true ∧ t = setHeader hd s := by
  unfold fcParseBody at h
  split at h
  · cases h
  cases hp : parseHeader shape tclip s with
  | error e => rw [hp] at h; cases h
  | ok hd =>
    rw [hp] at h
    dsimp only at h
    split at h
    · rename_i hk
      cases h
      exact ⟨hd, hk, rfl⟩
    · cases h

theorem fcWrite_outcome (s t : State) (h : writeHeaderBody s = .ok t) :
    WritableHeader s ∧ 20 ≤ s.cfg.outCap ∧ t = writtenHeader s := by
  by_cases hw : WritableHeader s
  · by_cases h20 : 20 ≤ s.cfg.outCap
    · rw [writeHeaderBody_written s hw h20] at h
      cases h
      exact ⟨hw, h20, rfl⟩
    · rw [writeHeaderBody, writeHeaderOk_legal s hw] at h
      simp only [Bool.not_true, Bool.false_eq_true, if_false] at h
      rw [if_pos (by omega)] at h
      cases h
  · rw [writeHeaderBody, writeHeaderOk_illegal s hw] at h
    cases h

/-- The window of `WriteHeaderBody`'s checks in the terms of the header registers (60_exceptions.md R244). -/
theorem windowIfHeaderChecks_eq (win : Window) (s : State) :
    (WritableHeader s → 20 ≤ s.cfg.outCap → windowIfHeaderChecks win s = win) ∧
    (¬ (WritableHeader s ∧ 20 ≤ s.cfg.outCap) → windowIfHeaderChecks win s = .none) := by
  unfold windowIfHeaderChecks
  refine ⟨fun h h20 => by rw [writeHeaderBody_written s h h20], fun h => ?_⟩
  split
  · rfl
  · rename_i t ht
    obtain ⟨h₁, h₂, -⟩ := fcWrite_outcome _ _ ht
    exact absurd ⟨h₁, h₂⟩ h

theorem setHeader_cursorOk (hd : Header) (s : State) : ReadCursorOk (setNpixFromHeader (setHeader hd s)).regs := by
  refine ⟨by show (0 : BitVec 4).toNat ≤ 8; decide, ?_⟩
  show (0 : Word).toNat % _ = 0
  simp

theorem writtenHeader_cursorOk (s : State) : WriteCursorOk (setNpixFromHeader (writtenHeader s)).regs :=
  ⟨by show (0 : BitVec 4).toNat ≤ 7; decide, by show (0 : Word).toNat < _; simp⟩

theorem setNpixFromHeader_npix (s : State) (hm : s.cfg.maxPixels < 2 ^ 32)
    (h : s.regs.width.toNat * s.regs.height.toNat ≤ s.cfg.maxPixels) :
    (setNpixFromHeader s).regs.npix.toNat = s.regs.width.toNat * s.regs.height.toNat := by
  unfold setNpixFromHeader
  dsimp only
  rw [BitVec.toNat_ofNat, Nat.mod_eq_of_lt (by omega)]

theorem frameDec_outcome (shape tclip : Bool) (s t : State) (h : frameDecBody shape tclip s = .ok t) :
    ∃ hd ps c rest p, headerOk s.cfg hd.width hd.height hd.near hd.far hd.clip = true ∧
      badPixelCount (setNpixFromHeader (setHeader hd s)) = false ∧
      ps.length = (setNpixFromHeader (setHeader hd s)).regs.npix.toNat ∧
      readStream (setNpixFromHeader (setHeader hd s)) = c ++ rest ∧
      t = setFrameValid (afterPixels ps p (advanceRead c.length (startBody (setNpixFromHeader (setHeader hd s))))) := by
  unfold frameDecBody at h
  cases hp : fcParseBody shape tclip s with
  | error e => rw [hp] at h; cases h
  | ok w =>
    rw [hp] at h
    dsimp only at h
    obtain ⟨hd, hk, rfl⟩ := fcParse_outcome _ _ _ _ hp
    cases hb : rdcDecodeBody (setNpixFromHeader (setHeader hd s)) with
    | error e => rw [hb] at h; cases h
    | ok u =>
      rw [hb] at h
      cases h
      obtain ⟨h₁, ps, c, rest, p, h₂, h₃, rfl⟩ := rdcDec_outcome _ _ (setHeader_cursorOk hd s) hb
      exact ⟨hd, ps, c, rest, p, hk, h₁, h₂, h₃, rfl⟩

theorem frameEnc_outcome (s t : State) (hc : s.cfg.outCap < 2 ^ 32) (h : frameEncBody s = .ok t) :
    WritableHeader s ∧ 20 ≤ s.cfg.outCap ∧ ∃ ns p n, RoomFor ns (setNpixFromHeader (writtenHeader s)) ∧
      t = track p n (appendNibbles ns (setNpixFromHeader (writtenHeader s))) := by
  unfold frameEncBody at h
  cases hp : writeHeaderBody s with
  | error e => rw [hp] at h; cases h
  | ok w =>
    rw [hp] at h
    obtain ⟨h₁, h₂, rfl⟩ := fcWrite_outcome _ _ hp
    obtain ⟨-, h₃⟩ := rdcEnc_outcome _ _ (writtenHeader_cursorOk s) hc h
    exact ⟨h₁, h₂, h₃⟩

/-! ## Memory side -/

/-- Appending nibbles with room changes no byte outside WR_POS before .. WR_POS after (20_memory.md R67). -/
theorem appendNibbles_outByte_frame (ns : List Nibble) (s : State) (hc : s.cfg.outCap < 2 ^ 32) (hr : RoomFor ns s) (a : Nat)
    (h : (appendNibbles ns s).outByte a ≠ s.outByte a) :
    s.regs.wrPos.toNat ≤ a ∧ a < (appendNibbles ns s).regs.wrPos.toNat := by
  rw [appendNibbles_wrPos ns s hc hr]
  by_contra hcon
  refine h ?_
  unfold appendNibbles State.outByte
  dsimp only
  rw [lookup_storeWords, dif_neg]
  rw [wholeWords_length, List.length_append, pendingNibbles_length]
  omega

theorem appendNibbles_memory (ns : List Nibble) (s : State) (hr : RoomFor ns s)
    (hm : s.outMem.wf = true ∧ s.outMem.within s.cfg.outCap = true) :
    (appendNibbles ns s).outMem.wf = true ∧ (appendNibbles ns s).outMem.within s.cfg.outCap = true := by
  refine ⟨wf_storeWords _ _ _ hm.1, within_storeWords _ _ _ _ ?_ hm.2⟩
  rw [wholeWords_length, List.length_append, pendingNibbles_length]
  rcases hr with hr | hr
  · right
    apply List.eq_nil_of_length_eq_zero
    rw [wholeWords_length, List.length_append, pendingNibbles_length]
    exact hr
  · left
    exact hr

theorem wf_storeBytes (m : Memory Byte) (a : Nat) (bs : List Byte) (h : m.wf = true) :
    (storeBytes m a bs).wf = true := by
  induction bs generalizing m a with
  | nil => exact h
  | cons b bs ih => exact ih _ _ (wf_insert _ _ _ h)

theorem within_storeBytes (m : Memory Byte) (a : Nat) (bs : List Byte) (k : Nat) (hk : a + bs.length ≤ k)
    (h : m.within k = true) : (storeBytes m a bs).within k = true := by
  induction bs generalizing m a with
  | nil => exact h
  | cons b bs ih =>
    rw [List.length_cons] at hk
    exact ih _ _ (by omega) (within_insert _ _ _ _ (by omega) h)

theorem headerBytes_length (w h nr fr : Word) : (headerBytes w h nr fr).length = 20 := rfl

theorem writtenHeader_outByte_frame (s : State) (a : Nat) (h : 20 ≤ a) :
    (writtenHeader s).outByte a = s.outByte a := by
  unfold writtenHeader State.outByte
  dsimp only
  rw [lookup_storeBytes, dif_neg (by rw [headerBytes_length]; omega)]

theorem writtenHeader_outMem (s : State) : (writtenHeader s).outMem =
    storeBytes s.outMem 0 (headerBytes s.regs.width s.regs.height s.regs.near s.regs.far) := by
  simp only [writtenHeader]

theorem writtenHeader_memory (s : State) (h20 : 20 ≤ s.cfg.outCap)
    (hm : s.outMem.wf = true ∧ s.outMem.within s.cfg.outCap = true) :
    (writtenHeader s).outMem.wf = true ∧ (writtenHeader s).outMem.within s.cfg.outCap = true := by
  rw [writtenHeader_outMem]
  exact ⟨wf_storeBytes _ _ _ hm.1, within_storeBytes _ _ _ _ (by rw [headerBytes_length]; omega) hm.2⟩

theorem afterPixels_pixel_frame (ps : List Pixel) (p : Pixel) (s : State) (h0 : s.regs.pixcnt = 0) (j : Nat)
    (h : ps.length ≤ j) : (afterPixels ps p s).pixel j = s.pixel j := by
  unfold State.pixel
  rw [afterPixels_pixMem, lookup_storePixels, dif_neg]
  rw [h0]
  show ¬ ((0 : Word).toNat ≤ j ∧ _)
  simp
  exact h

theorem afterPixels_memory (ps : List Pixel) (p : Pixel) (s : State) (h0 : s.regs.pixcnt = 0)
    (h : ps.length ≤ s.cfg.maxPixels) (hm : s.pixMem.wf = true ∧ s.pixMem.within s.cfg.maxPixels = true) :
    (afterPixels ps p s).pixMem.wf = true ∧ (afterPixels ps p s).pixMem.within s.cfg.maxPixels = true := by
  rw [afterPixels_pixMem, h0]
  exact ⟨wf_storePixels _ _ _ hm.1, within_storePixels _ _ _ _ (by simpa using h) hm.2⟩

end Sys2Proof.Machine
end

