-- ==== Sys2Proof/Laws/Invariant.lean ====
section
/-! SUPPORT. The parts of a legal state that a command, a reset, an acceptance and an idle register write each keep. -/

namespace Sys2Proof.Machine

open Sys2Proof

/-- The parts of a legal state that do not depend on STATUS. -/
def PartsLegal (s : State) : Prop := s.cfg.Legal ∧ RegsOk s.cfg s.regs ∧ MemoriesOk s

theorem advanceRead_legal (c rest : List Nibble) (s : State) (h : PartsLegal s) (hr : readStream s = c ++ rest) :
    PartsLegal (advanceRead c.length s) := by
  obtain ⟨h1, ⟨hr1, hw, hl⟩, hm⟩ := h
  refine ⟨by rw [advanceRead_cfg]; exact h1, ⟨(readStream_advance c rest s hr1 hr).2, ?_, ?_⟩, ?_⟩
  · rw [advanceRead_regs]; exact hw
  · rw [advanceRead_regs, advanceRead_cfg]; exact hl
  · unfold MemoriesOk; rw [advanceRead_inMem, advanceRead_outMem, advanceRead_pixMem, advanceRead_cfg]; exact hm

theorem appendNibbles_legal (ns : List Nibble) (s : State) (h : PartsLegal s) (hr : RoomFor ns s) :
    PartsLegal (appendNibbles ns s) := by
  obtain ⟨h1, ⟨hr1, hw, hl⟩, hi, ho, hp⟩ := h
  exact ⟨h1, ⟨hr1, appendNibbles_cursorOk ns s, hl⟩, hi, appendNibbles_memory ns s hr ho, hp⟩

theorem headerAndNpix_legal (s : State) (h : PartsLegal s) (h20 : 20 ≤ s.cfg.outCap) :
    PartsLegal (setNpixFromHeader (writtenHeader s)) := by
  obtain ⟨h1, ⟨hr1, hw, hl⟩, hi, ho, hp⟩ := h
  have e : (setNpixFromHeader (writtenHeader s)).cfg = s.cfg := by simp only [setNpixFromHeader, writtenHeader]
  have e1 : (setNpixFromHeader (writtenHeader s)).inMem = s.inMem := by simp only [setNpixFromHeader, writtenHeader]
  have e2 : (setNpixFromHeader (writtenHeader s)).pixMem = s.pixMem := by simp only [setNpixFromHeader, writtenHeader]
  have e3 : (setNpixFromHeader (writtenHeader s)).outMem = (writtenHeader s).outMem := by simp only [setNpixFromHeader]
  have e4 : ReadCursorOk (setNpixFromHeader (writtenHeader s)).regs := by
    simp only [setNpixFromHeader, writtenHeader]; exact hr1
  have e5 : (setNpixFromHeader (writtenHeader s)).regs.inLen = s.regs.inLen := by
    simp only [setNpixFromHeader, writtenHeader]
  refine ⟨by rw [e]; exact h1, ⟨e4, writtenHeader_cursorOk s, by rw [e5, e]; exact hl⟩, ?_, ?_, ?_⟩
  · rw [e1, e]; exact hi
  · rw [e3, e]; exact writtenHeader_memory s h20 ho
  · rw [e2, e]; exact hp

theorem legal_of_npix (s : State) (h : PartsLegal (setNpixFromHeader s)) : PartsLegal s := h

theorem writtenHeader_legal (s : State) (h : PartsLegal s) (h20 : 20 ≤ s.cfg.outCap) :
    PartsLegal (writtenHeader s) := legal_of_npix _ (headerAndNpix_legal s h h20)

theorem afterPixels_legal (ps : List Pixel) (p : Pixel) (c rest : List Nibble) (s : State) (h : PartsLegal s)
    (hr : readStream s = c ++ rest) (hl : ps.length ≤ s.cfg.maxPixels) : PartsLegal (afterPixels ps p (advanceRead c.length (startBody s))) := by
  have h0 : PartsLegal (startBody s) := h
  have h1 := advanceRead_legal c rest (startBody s) h0 hr
  have hc : (advanceRead c.length (startBody s)).cfg = s.cfg := by rw [advanceRead_cfg]; rfl
  have hp : (advanceRead c.length (startBody s)).regs.pixcnt = 0 := by rw [advanceRead_pixcnt]; rfl
  generalize advanceRead c.length (startBody s) = v at *
  obtain ⟨a1, a2, a3, a4, a5⟩ := h1
  exact ⟨a1, a2, a3, a4, afterPixels_memory ps p v hp (by rw [hc]; exact hl) a5⟩

theorem setHeader_legal (hd : Header) (s : State) (h : PartsLegal s) : PartsLegal (setHeader hd s) := by
  obtain ⟨h1, ⟨hr1, hw, hl⟩, hm⟩ := h
  exact ⟨h1, ⟨setHeader_cursorOk hd s, hw, hl⟩, hm⟩

/-- Every pseudocode that ends without an error keeps them. -/
theorem bodyOf_legal (i : Instr) (s u : State) (h : PartsLegal s) (hu : bodyOf i s = .ok u) : PartsLegal u := by
  obtain ⟨h1, ⟨hr, hw, hl⟩, hm⟩ := id h
  have hc := h1.2.2.1
  cases i
  case nop => cases hu; exact h
  case zzEnc => cases hu; exact h
  case zzDec => cases hu; exact h
  case vleDec =>
    simp only [bodyOf] at hu
    split at hu
    · rename_i v w hv
      cases hu
      obtain ⟨c, rest, hrd, rfl⟩ := vleDec_outcome _ hr _ _ hv
      exact advanceRead_legal c rest s h hrd
    · cases hu
  case vleEnc =>
    obtain ⟨ns, hroom, rfl⟩ := vleEnc_outcome _ _ _ hw hc hu
    exact appendNibbles_legal ns s h hroom
  case vleFlush =>
    obtain ⟨ns, hroom, rfl⟩ := flush_outcome _ _ hw hu
    exact appendNibbles_legal ns s h hroom
  case rdcEnc =>
    obtain ⟨-, ns, p, n, hroom, rfl⟩ := rdcEnc_outcome _ _ hw hc hu
    exact appendNibbles_legal ns s h hroom
  case fcWrite =>
    obtain ⟨-, h20, rfl⟩ := fcWrite_outcome _ _ hu
    exact writtenHeader_legal s h h20
  case frameEnc =>
    obtain ⟨-, h20, ns, p, n, hroom, rfl⟩ := frameEnc_outcome _ _ hc hu
    have := headerAndNpix_legal s h h20
    generalize setNpixFromHeader (writtenHeader s) = v at *
    exact appendNibbles_legal ns v this hroom
  case rdcDec =>
    simp only [bodyOf] at hu
    obtain ⟨w, hw', rfl⟩ := markFrame_ok _ _ hu
    obtain ⟨hb, ps, c, rest, p, hl, hrd, rfl⟩ := rdcDec_outcome _ _ hr hw'
    have := (badPixelCount_false _).1 hb
    exact afterPixels_legal ps p c rest _ h hrd (by omega)
  case fcParseBin => obtain ⟨hd, -, rfl⟩ := fcParse_outcome _ _ _ _ hu; exact setHeader_legal hd s h
  case fcParseText => obtain ⟨hd, -, rfl⟩ := fcParse_outcome _ _ _ _ hu; exact setHeader_legal hd s h
  case fcParseTextClip => obtain ⟨hd, -, rfl⟩ := fcParse_outcome _ _ _ _ hu; exact setHeader_legal hd s h
  all_goals
    obtain ⟨hd, ps, c, rest, p, hk, hb, hl, hrd, rfl⟩ := frameDec_outcome _ _ _ _ hu
    have hg : PartsLegal (setNpixFromHeader (setHeader hd s)) := setHeader_legal hd s h
    generalize setNpixFromHeader (setHeader hd s) = v at *
    have := (badPixelCount_false _).1 hb
    exact afterPixels_legal ps p c rest v hg hrd (by omega)

/-- The window lies inside its memory (60_exceptions.md R244). -/
def Inside (s : State) : Window → Prop
  | .none => True
  | .out lo n => lo + n ≤ s.cfg.outCap ∨ n = 0
  | .pix n => n ≤ s.cfg.maxPixels

theorem havoc_memories (s : State) (w : Window) (hm : MemoriesOk s) (hw : Inside s w) : MemoriesOk (s.havoc w) := by
  obtain ⟨h1, h2, h3⟩ := hm
  cases w with
  | none => exact ⟨h1, h2, h3⟩
  | out lo n => exact ⟨h1, ⟨wf_fill _ _ _ _ h2.1, within_fill _ _ _ _ _ hw h2.2⟩, h3⟩
  | pix n => exact ⟨h1, h2, wf_fill _ _ _ _ h3.1, within_fill _ _ _ _ _ (.inl (by simpa [Inside] using hw)) h3.2⟩

theorem frameDecWindow_inside (shape tclip : Bool) (s : State) : Inside s (frameDecWindow shape tclip s) := by
  unfold frameDecWindow
  split
  · trivial
  · rename_i t ht
    obtain ⟨hd, hk, rfl⟩ := fcParse_outcome _ _ _ _ ht
    exact ((headerOk_iff _ _ _ _ _ _).1 hk).2.2.1

theorem errorWindow_inside (i : Instr) (s : State) : Inside s (errorWindow i s) := by
  have ofc : Inside s (outFromCursor s) := by simp only [outFromCursor, Inside]; omega
  cases i <;> simp only [errorWindow] <;> first | trivial | exact ofc | exact frameDecWindow_inside _ _ _ | skip
  · unfold rdcDecWindow
    split
    · trivial
    · rename_i hb
      exact ((badPixelCount_false s).1 (by simpa using hb)).2
  · unfold frameEncWindow windowIfHeaderChecks
    split
    · trivial
    · simp [Inside]

theorem abortWindow_inside (s : State) : Inside s (abortWindow s) := by
  unfold abortWindow
  split
  · split
    · trivial
    · unfold fcWriteResetWindow windowIfHeaderChecks
      split
      · trivial
      · rename_i t ht
        have := (fcWrite_outcome _ _ ht).2.1
        simp [Inside]; omega
    · exact errorWindow_inside _ _
  · trivial

theorem reset_legal (s : State) (ie : Bool) (hi : s.Inv) :
    (resetRegisters ie (s.havoc (abortWindow s))).Inv ∧ (resetRegisters ie (s.havoc (abortWindow s))).cfg =
      s.cfg := by
  have hm := havoc_memories s _ hi.memories (abortWindow_inside s)
  have hc : (resetRegisters ie (s.havoc (abortWindow s))).cfg = s.cfg := by simp [resetRegisters]
  refine ⟨⟨by rw [hc]; exact hi.caps, ?_, ?_, ?_, rfl, ?_⟩, hc⟩
  · rw [hc]
    refine ⟨⟨by show (0:BitVec 4).toNat ≤ 8; decide, by show (0:Word).toNat % _ = 0; simp⟩,
      ⟨by show (0:BitVec 4).toNat ≤ 7; decide, by show (0:Word).toNat < _; simp⟩,
      by show (0 : Word).toNat ≤ _; simp⟩
  · have : StatusOk Status.reset := by decide
    exact this
  · exact hm
  · intro h; cases h

theorem accept_legal (s : State) (c : Word) (hi : s.Inv) : (acceptCommand c s).Inv := by
  refine ⟨hi.caps, hi.regs, ?_, hi.memories, rfl, ?_⟩
  · exact ⟨fun _ => rfl, fun h => (by cases h), fun _ => ⟨rfl, rfl⟩⟩
  · intro _ hcl
    show (s.status.frameValid && !clearsFrame c) = false
    have : clearsFrame c = true := hcl
    rw [this]; simp

theorem idle_legal (s : State) (r : Regs) (hi : s.Inv) (hb : s.status.busy = false) (hr : RegsOk s.cfg r) :
    ({ s with regs := r } : State).Inv := by
  refine ⟨hi.caps, hr, hi.status, hi.memories, ?_, ?_⟩
  · have := hi.snapshot; rw [hb] at this ⊢; exact this
  · intro h; rw [hb] at h; cases h

theorem writeIdleReg_legal (r : RegName) (v : Word) (s : State) (hi : s.Inv) : RegsOk s.cfg (writeIdleReg r v s) := by
  obtain ⟨h1, h2, h3⟩ := hi.regs
  have hrd : (0 : BitVec 4).toNat ≤ 8 ∧ (0:Word).toNat % 2 ^ (32 - 4 * (0 : BitVec 4).toNat) = 0 := by decide
  have hwd : (0 : BitVec 4).toNat ≤ 7 ∧ (0:Word).toNat < 2 ^ (4 * (0 : BitVec 4).toNat) := by decide
  cases r <;> first | exact ⟨h1, h2, h3⟩ | exact ⟨hrd, h2, h3⟩ | exact ⟨h1, hwd, h3⟩ | skip
  refine ⟨h1, h2, ?_⟩
  show (BitVec.ofNat 32 _).toNat ≤ _
  rw [BitVec.toNat_ofNat]
  exact le_trans (Nat.mod_le _ _) (Nat.min_le_right _ _)

end Sys2Proof.Machine
end

