-- ==== Sys2Proof/Laws/Issue.lean ====
section
/-! SUPPORT. Commands issued one after the other: what a sequence of VLE commands leaves (40_vlecoder.md R135). -/

namespace Sys2Proof.Machine

open Sys2Proof

/-- The two states agree in all that a command reads or writes through the write cursor. -/
structure WriteSame (s t : State) : Prop where
  cfg    : s.cfg = t.cfg
  outMem : s.outMem = t.outMem
  wrPos  : s.regs.wrPos = t.regs.wrPos
  wrAcc  : s.regs.wrAcc = t.regs.wrAcc
  wrNib  : s.regs.wrNib = t.regs.wrNib

theorem WriteSame.refl (s : State) : WriteSame s s := ⟨rfl, rfl, rfl, rfl, rfl⟩

theorem WriteSame.symm {s t : State} (h : WriteSame s t) : WriteSame t s :=
  ⟨h.cfg.symm, h.outMem.symm, h.wrPos.symm, h.wrAcc.symm, h.wrNib.symm⟩

theorem WriteSame.trans {s t u : State} (h : WriteSame s t) (h' : WriteSame t u) : WriteSame s u :=
  ⟨h.cfg.trans h'.cfg, h.outMem.trans h'.outMem, h.wrPos.trans h'.wrPos, h.wrAcc.trans h'.wrAcc, h.wrNib.trans h'.wrNib⟩

theorem WriteSame.pending {s t : State} (h : WriteSame s t) : pendingNibbles s.regs = pendingNibbles t.regs := by
  unfold pendingNibbles
  rw [h.wrAcc, h.wrNib]

theorem WriteSame.append {s t : State} (h : WriteSame s t) (ns : List Nibble) :
    WriteSame (appendNibbles ns s) (appendNibbles ns t) := by
  have hp := h.pending
  have h₁ := h.wrPos
  have h₂ := h.outMem
  constructor <;> simp only [appendNibbles, hp, h₁, h₂, h.cfg]

theorem WriteSame.roomFor {s t : State} (h : WriteSame s t) (ns : List Nibble) : RoomFor ns s ↔ RoomFor ns t := by
  unfold RoomFor
  rw [h.wrNib, h.wrPos, h.cfg]

theorem WriteSame.cursorOk {s t : State} (h : WriteSame s t) (hs : WriteCursorOk s.regs) : WriteCursorOk t.regs := by
  unfold WriteCursorOk
  rw [← h.wrNib, ← h.wrAcc]
  exact hs

/-- The two states agree in all that a command reads or writes through the read cursor. -/
structure ReadSame (s t : State) : Prop where
  inMem : s.inMem = t.inMem
  inLen : s.regs.inLen = t.regs.inLen
  rdPos : s.regs.rdPos = t.regs.rdPos
  rdAcc : s.regs.rdAcc = t.regs.rdAcc
  rdNib : s.regs.rdNib = t.regs.rdNib

theorem ReadSame.stream {s t : State} (h : ReadSame s t) : readStream s = readStream t := by
  have hw (a : Nat) : s.inWord a = t.inWord a := by
    unfold State.inWord State.inByte
    rw [h.inMem]
  unfold readStream unreadNibbles wordsLeft
  simp only [hw]
  rw [h.rdAcc, h.rdNib, h.inLen, h.rdPos]

theorem ReadSame.cursorOk {s t : State} (h : ReadSame s t) (hs : ReadCursorOk s.regs) : ReadCursorOk t.regs := by
  unfold ReadCursorOk
  rw [← h.rdNib, ← h.rdAcc]
  exact hs

theorem acceptCommand_err (c : Word) (s : State) : (acceptCommand c s).status.err = false := rfl

/-- VAL written and VLE.ENC issued, with room (40_vlecoder.md R132). -/
theorem issue_vleEnc (v : Word) (s : State) (hw : WriteCursorOk s.regs) (hc : s.cfg.outCap < 2 ^ 32)
    (h : RoomFor (vleCode v) s) :
    ∃ t, issue .vleEnc (setVal v s) = .next t ∧ t.status.err = false ∧ WriteSame (appendNibbles (vleCode v) s) t := by
  refine ⟨completeCommand (appendNibbles (vleCode v) (acceptCommand (encode .vleEnc) (setVal v s))), ?_, rfl, ?_⟩
  · have := (vleEncode_spec v (acceptCommand (encode .vleEnc) (setVal v s)) hw hc).1 h
    unfold issue exec execVleEnc
    dsimp only
    rw [show (acceptCommand (encode .vleEnc) (setVal v s)).regs.val = v from rfl, this]
    rfl
  · exact (WriteSame.append ⟨rfl, rfl, rfl, rfl, rfl⟩ _).trans ⟨rfl, rfl, rfl, rfl, rfl⟩

/-- VLE.ENC for each value of a list (40_vlecoder.md R135). -/
theorem encodeAll_spec (vs : List Word) (s : State) (hw : WriteCursorOk s.regs) (hc : s.cfg.outCap < 2 ^ 32)
    (h : RoomFor (vs.flatMap vleCode) s) :
    ∃ e, encodeAll vs s = some e ∧ WriteSame (appendNibbles (vs.flatMap vleCode) s) e := by
  induction vs generalizing s with
  | nil => exact ⟨s, rfl, by rw [List.flatMap_nil, appendNibbles_nil s hw]; exact WriteSame.refl s⟩
  | cons v vs ih =>
    rw [List.flatMap_cons] at h ⊢
    obtain ⟨h₁, h₂⟩ := (roomFor_append _ _ s hc).1 h
    obtain ⟨t, ht, he, hs⟩ := issue_vleEnc v s hw hc h₁
    obtain ⟨e, hee, hse⟩ := ih t (hs.cursorOk (appendNibbles_cursorOk _ s)) (by rw [← hs.cfg]; exact hc)
      ((hs.roomFor _).1 h₂)
    refine ⟨e, ?_, ?_⟩
    · rw [encodeAll, ht]
      simp only [he, hee, Bool.false_eq_true, if_false]
    · rw [appendNibbles_append _ _ s hc h₁]
      exact (hs.append _).trans hse

/-- VLE.DEC issued where a code stands at the head of the read stream (40_vlecoder.md R133). -/
theorem issue_vleDec (c rest : List Nibble) (v : Word) (s : State) (hs : ReadCursorOk s.regs)
    (hr : readStream s = c ++ rest) (hc : CodeOf c v) :
    ∃ t, issue .vleDec s = .next t ∧ t.status.err = false ∧ t.regs.val = v ∧ ReadCursorOk t.regs ∧
      readStream t = rest := by
  have hr' : readStream (acceptCommand (encode .vleDec) s) = c ++ rest := hr
  obtain ⟨h₁, h₂⟩ := readStream_advance c rest (acceptCommand (encode .vleDec) s) hs hr'
  refine ⟨completeCommand (setVal v (advanceRead c.length (acceptCommand (encode .vleDec) s))), ?_, ?_, rfl, h₂, h₁⟩
  · unfold issue exec execVleDec
    dsimp only
    rw [vleDecode_code c rest v (acceptCommand (encode .vleDec) s) hs hr' hc]
    rfl
  · simp [completeCommand, setVal, Status.completed, acceptCommand, Status.accepted]

/-- VLE.DEC as often as there are codes (40_vlecoder.md R135). -/
theorem decodeAll_spec (vs : List Word) (rest : List Nibble) (s : State) (hs : ReadCursorOk s.regs)
    (hr : readStream s = vs.flatMap vleCode ++ rest) : decodeAll vs.length s = some vs := by
  induction vs generalizing s with
  | nil => rfl
  | cons v vs ih =>
    rw [List.flatMap_cons, List.append_assoc] at hr
    obtain ⟨t, ht, he, hv, hst, hrt⟩ := issue_vleDec _ _ v s hs hr (vleCode_codeOf v)
    rw [List.length_cons, decodeAll, ht]
    simp only [he, Bool.false_eq_true, if_false, ih t hst hrt, Option.map_some, hv]

end Sys2Proof.Machine
end

