-- ==== Sys2Proof/Laws/PerInstr.lean ====
section
/-! SUPPORT. Statements about every instruction as syntax, one lemma for each constructor. -/

namespace Sys2Proof.Laws.Legal

/-- The command's fields are legal (30_encoding.md R92, R93), its word lays them out as R90 says, and the word is
decoded to the command itself. -/
def Statement (i : Instr) : Prop :=
  i.wellFormed = true ∧ fieldsOf (encode i) = i.fields ∧ decodeWord (encode i) = .ok i

theorem nop : Statement .nop := ⟨rfl, rfl, rfl⟩
theorem vleDec : Statement .vleDec := ⟨rfl, rfl, rfl⟩
theorem vleEnc : Statement .vleEnc := ⟨rfl, rfl, rfl⟩
theorem vleFlush : Statement .vleFlush := ⟨rfl, rfl, rfl⟩
theorem zzEnc : Statement .zzEnc := ⟨rfl, rfl, rfl⟩
theorem zzDec : Statement .zzDec := ⟨rfl, rfl, rfl⟩
theorem rdcDec : Statement .rdcDec := ⟨rfl, rfl, rfl⟩
theorem rdcEnc : Statement .rdcEnc := ⟨rfl, rfl, rfl⟩
theorem fcParseBin : Statement .fcParseBin := ⟨rfl, rfl, rfl⟩
theorem fcParseText : Statement .fcParseText := ⟨rfl, rfl, rfl⟩
theorem fcParseTextClip : Statement .fcParseTextClip := ⟨rfl, rfl, rfl⟩
theorem fcWrite : Statement .fcWrite := ⟨rfl, rfl, rfl⟩
theorem frameDecBin : Statement .frameDecBin := ⟨rfl, rfl, rfl⟩
theorem frameDecText : Statement .frameDecText := ⟨rfl, rfl, rfl⟩
theorem frameDecTextClip : Statement .frameDecTextClip := ⟨rfl, rfl, rfl⟩
theorem frameEnc : Statement .frameEnc := ⟨rfl, rfl, rfl⟩

end Sys2Proof.Laws.Legal
end

