-- ==== Sys2Proof/Tests/Slice0.lean ====
section
/-! SUPPORT. The model's own tests: well-formedness, decoding from written-out words, single steps on the vectors of
95_test_vectors.md, and a witness for the hypotheses of every statement. -/

namespace Sys2Proof.Tests

open Sys2Proof Sys2Proof.Machine

/-! ## Well-formedness: one ill-formed term for each check -/

theorem test_all_commands_wellFormed : ∀ i : Instr, i.wellFormed = true := by intro i; cases i <;> rfl

theorem test_opKnown_refuses : CmdFields.opKnown ⟨0x04, false, false, 0⟩ = false ∧
    CmdFields.wellFormed ⟨0x04, false, false, 0⟩ = false := by decide
theorem test_reservedZero_refuses : CmdFields.reservedZero ⟨0x01, false, false, 1⟩ = false ∧
    CmdFields.wellFormed ⟨0x01, false, false, 1⟩ = false := by decide
theorem test_shapeTaken_refuses : CmdFields.shapeTaken ⟨0x21, true, false, 0⟩ = false ∧
    CmdFields.wellFormed ⟨0x21, true, false, 0⟩ = false := by decide
theorem test_clipHasShape_refuses : CmdFields.clipHasShape ⟨0x20, false, true, 0⟩ = false ∧
    CmdFields.wellFormed ⟨0x20, false, true, 0⟩ = false := by decide

/-! ## Decoding: words written out from 30_encoding.md R90 and R91, bit [31] first -/

theorem test_decode_control : decodeWord 0b00000000000000000000000000000000 = .ok .nop := by decide
theorem test_decode_vle :
    decodeWord 0b00000000000000000000000000000001 = .ok .vleDec ∧
    decodeWord 0b00000000000000000000000000000010 = .ok .vleEnc ∧
    decodeWord 0b00000000000000000000000000000011 = .ok .vleFlush := by decide
theorem test_decode_rundelta :
    decodeWord 0b00000000000000000000000000010000 = .ok .zzEnc ∧
    decodeWord 0b00000000000000000000000000010001 = .ok .zzDec ∧
    decodeWord 0b00000000000000000000000000010010 = .ok .rdcDec ∧
    decodeWord 0b00000000000000000000000000010011 = .ok .rdcEnc := by decide
theorem test_decode_container :
    decodeWord 0b00000000000000000000000000100000 = .ok .fcParseBin ∧
    decodeWord 0b00000000000000000000000100100000 = .ok .fcParseText ∧
    decodeWord 0b00000000000000000000001100100000 = .ok .fcParseTextClip ∧
    decodeWord 0b00000000000000000000000000100001 = .ok .fcWrite := by decide
theorem test_decode_frame :
    decodeWord 0b00000000000000000000000000100010 = .ok .frameDecBin ∧
    decodeWord 0b00000000000000000000000100100010 = .ok .frameDecText ∧
    decodeWord 0b00000000000000000000001100100010 = .ok .frameDecTextClip ∧
    decodeWord 0b00000000000000000000000000100011 = .ok .frameEnc := by decide

/-- The bytes of a word, the lowest first (20_memory.md R61): FRAME.DEC text, clip with two bytes after it. -/
theorem test_decode_bytes : decode [0x22, 0x03, 0x00, 0x00, 0xAA, 0xBB] = .ok (.frameDecTextClip, [0xAA, 0xBB]) := by
  decide
theorem test_decode_short : decode [0x22, 0x03, 0x00] = .error .tooShort := by decide

/-- The illegal words of 95_test_vectors.md L2.5 and 43_control.md R224. -/
theorem test_decode_rejects :
    decodeWord 0x00000004 = .error .unknownOp ∧ decodeWord 0x000000FF = .error .unknownOp ∧
    decodeWord 0x00000220 = .error .clipWithoutShape ∧ decodeWord 0x00000201 = .error .clipWithoutShape ∧
    decodeWord 0x00000121 = .error .shapeNotTaken ∧ decodeWord 0x00000223 = .error .clipWithoutShape ∧
    decodeWord 0x00000100 = .error .shapeNotTaken ∧ decodeWord 0x00000123 = .error .shapeNotTaken ∧
    decodeWord 0x00000400 = .error .reservedBits ∧ decodeWord 0x80000001 = .error .reservedBits := by decide

theorem test_encode_words :
    encode .nop = 0x000 ∧ encode .vleFlush = 0x003 ∧ encode .zzEnc = 0x010 ∧ encode .rdcEnc = 0x013 ∧
    encode .fcParseTextClip = 0x320 ∧ encode .fcWrite = 0x021 ∧ encode .frameDecText = 0x122 ∧
    encode .frameEnc = 0x023 := by decide

/-! ## Small states -/

/-- Reset, with `bs` at the start of IN_MEM and IN_LEN their count. -/
def loaded (bs : List Byte) : State :=
  { State.reset with
    inMem := (List.range bs.length).zip bs
    regs := { Regs.reset with inLen := BitVec.ofNat 32 bs.length } }

/-- Reset, with `ps` at the start of PIX_MEM and NPIX their count. -/
def drawn (ps : List Pixel) : State :=
  { State.reset with
    pixMem := (List.range ps.length).zip ps
    regs := { Regs.reset with npix := BitVec.ofNat 32 ps.length } }

/-- `s` with the header registers of a binary frame of w by h, near 0.1 and far 100.0 (95_test_vectors.md L1.7). -/
def framed (w h : Word) (s : State) : State :=
  { s with regs := { s.regs with width := w, height := h, near := 0x3DCCCCCD, far := 0x42C80000, clipValid := true } }

/-- `s` with the command `i` accepted. -/
def accepted (i : Instr) (s : State) : State := acceptCommand (encode i) s

/-- `s` with OUT_CAP = n. -/
def withOutCap (n : Nat) (s : State) : State := { s with cfg := { s.cfg with outCap := n } }

/-- The next state, if there is one. -/
def next? (o : Host.Outcome State Fault Refusal) : Option State :=
  match o with
  | .next t => some t
  | _ => none

/-- BIN(w,h) of 95_test_vectors.md L2.4, for dimensions below 256. -/
def bin (w h : Byte) : List Byte :=
  [0x52, 0x56, 0x4C, 0x0A, w, 0, 0, 0, h, 0, 0, 0, 0xCD, 0xCC, 0xCC, 0x3D, 0x00, 0x00, 0xC8, 0x42]

/-- TXT1 of L2.4: "RVL\n7 1\n". -/
def txt1 : List Byte := [0x52, 0x56, 0x4C, 0x0A, 0x37, 0x20, 0x31, 0x0A]

/-- TXT3 of L2.4: TXT1 and the clip line "0.1 100.0\n". -/
def txt3 : List Byte := txt1 ++ [0x30, 0x2E, 0x31, 0x20, 0x31, 0x30, 0x30, 0x2E, 0x30, 0x0A]

/-- The payload of the mixed runs (95_test_vectors.md L1.5). -/
def payload : List Byte := [0x20, 0x97, 0x92, 0x32]

/-- The pixels of the mixed runs. -/
def mixed : List Pixel := [0, 0, 0, 5, 65533, 0, 0]

/-! ## Single commands, results from 95_test_vectors.md -/

/-- R223: NOP clears a previous error; STATUS 0x406 becomes 0x002. -/
theorem test_nop : (next? (issue .nop { State.reset with status := { Status.reset with
    done := true, err := true, errcode := 4 } })).map (fun t => t.status.toWord) = some 0x00000002 := by decide

/-- L2.1: row 1 of the six decodes. -/
theorem test_vleDec : (next? (issue .vleDec (loaded payload))).map
    (fun t => (t.regs.val, t.regs.rdPos, t.regs.rdNib, t.regs.rdAcc, t.status.toWord)) =
    some (3, 4, 7, 0x29297200, 2) := by decide
/-- L2.1: a code of 2^32 overflows and everything is rolled back. -/
theorem test_vleDec_overflow : (next? (issue .vleDec (loaded [0x88, 0x88, 0x88, 0xC8, 0, 0, 0, 0x88]))).map
    (fun t => (t.status.toWord, t.regs.val, t.regs.rdPos, t.regs.rdNib)) = some (0x00000706, 0, 0, 0) := by decide

/-- L2.1: 0x40000000 stores the word 0x98888888 and leaves 0x880 pending. -/
theorem test_vleEnc : (next? (issue .vleEnc (setVal 0x40000000 State.reset))).map
    (fun t => (t.outMem, t.regs.wrPos, t.regs.wrAcc, t.regs.wrNib)) =
    some ([(0, 0x88), (1, 0x88), (2, 0x88), (3, 0x98)], 4, 0x880, 3) := by decide
/-- L2.1: IoError on the eighth nibble's store with OUT_CAP = 0. -/
theorem test_vleEnc_ioError : (next? (issue .vleEnc (withOutCap 0 { State.reset with
    regs := { Regs.reset with wrNib := 7, wrAcc := 0x01234567 } }))).map
    (fun t => (t.status.toWord, t.regs.wrNib, t.regs.wrAcc)) = some (0x00000106, 7, 0x01234567) := by decide

/-- L2.1: the pending code of 100 is padded and stored. -/
theorem test_vleFlush : (next? (issue .vleFlush { State.reset with
    regs := { Regs.reset with wrNib := 3, wrAcc := 0x9C4 } })).map
    (fun t => (t.outMem, t.regs.wrPos, t.regs.wrNib, t.regs.wrAcc)) =
    some ([(0, 0), (1, 0), (2, 0x40), (3, 0x9C)], 4, 0, 0) := by decide
/-- L2.1: IoError with OUT_CAP = 3. -/
theorem test_vleFlush_ioError : (next? (issue .vleFlush (withOutCap 3 { State.reset with
    regs := { Regs.reset with wrNib := 2 } }))).map (fun t => t.status.toWord) = some 0x00000106 := by decide

/-- L2.2: only VAL[15:0] is read. -/
theorem test_zzEnc : (next? (issue .zzEnc (setVal 0xFFFFFFFD State.reset))).map (fun t => t.regs.val) = some 5 := by
  decide
theorem test_zzEnc_min : (next? (issue .zzEnc (setVal 0x00008000 State.reset))).map (fun t => t.regs.val) =
    some 0x0000FFFF := by decide
/-- L2.2: all 32 bits are read. -/
theorem test_zzDec : (next? (issue .zzDec (setVal 0x00010000 State.reset))).map (fun t => t.regs.val) =
    some 0x00008000 := by decide
theorem test_zzDec_odd : (next? (issue .zzDec (setVal 0xFFFFFFFF State.reset))).map (fun t => t.regs.val) =
    some 0x80000000 := by decide

/-- L1.5: the mixed runs, decoded. -/
theorem test_rdcDec : (next? (issue .rdcDec { loaded payload with regs := { (loaded payload).regs with npix := 7 } })).map
    (fun t => (t.pixMem, t.status.toWord, t.regs.pixcnt, t.regs.prev, t.regs.rdPos, t.regs.rdNib)) =
    some ((List.range 7).zip mixed, 0x0000000A, 7, 0xFFFD, 4, 0) := by decide
/-- L1.4: with NPIX = 6 the second zero run passes the count. -/
theorem test_rdcDec_count : (next? (issue .rdcDec { loaded payload with regs := { (loaded payload).regs with npix := 6 } })).map
    (fun t => (t.status.toWord, t.regs.pixcnt, t.regs.rdPos)) = some (0x00000506, 0, 0) := by decide

/-- L1.5: the mixed runs, encoded. -/
theorem test_rdcEnc : (next? (issue .rdcEnc (drawn mixed))).map
    (fun t => (t.outMem, t.regs.wrPos, t.regs.wrNib, t.regs.pixcnt, t.regs.prev, t.status.toWord)) =
    some ([(0, 0x20), (1, 0x97), (2, 0x92), (3, 0x32)], 4, 0, 7, 0xFFFD, 2) := by decide
/-- L2.3: deltas across the 16-bit wrap, two words. -/
theorem test_rdcEnc_wrap : (next? (issue .rdcEnc (drawn [32767, 32768]))).map
    (fun t => (t.outMem.map Prod.snd, t.regs.wrPos, t.regs.prev)) =
    some ([0xF6, 0xFF, 0x9F, 0x02, 0x00, 0x00, 0x00, 0x20], 8, 0x8000) := by decide

/-- L1.7. -/
theorem test_fcParseBin : (next? (issue .fcParseBin (loaded (bin 4 2)))).map
    (fun t => (t.regs.width, t.regs.height, t.regs.near, t.regs.far, t.regs.payloadOff, t.regs.rdPos)) =
    some (4, 2, 0x3DCCCCCD, 0x42C80000, 20, 20) := by decide
/-- L2.4: 65 by 1 passes MAX_PIXELS = 64. -/
theorem test_fcParseBin_large : (next? (issue .fcParseBin (loaded (bin 65 1)))).map (fun t => t.status.toWord) =
    some 0x00000306 := by decide

/-- L2.4: TXT1. -/
theorem test_fcParseText : (next? (issue .fcParseText (loaded txt1))).map
    (fun t => (t.regs.width, t.regs.height, t.regs.near, t.regs.far, t.regs.clipValid, t.regs.payloadOff)) =
    some (7, 1, 0, 0, false, 8) := by decide
/-- L2.4: two spaces. -/
theorem test_fcParseText_spaces : (next? (issue .fcParseText (loaded
    [0x52, 0x56, 0x4C, 0x0A, 0x37, 0x20, 0x20, 0x31, 0x0A]))).map (fun t => t.status.toWord) = some 0x00000306 := by
  decide

/-- L2.4: TXT3. -/
theorem test_fcParseTextClip : (next? (issue .fcParseTextClip (loaded txt3))).map
    (fun t => (t.regs.width, t.regs.height, t.regs.near, t.regs.far, t.regs.clipValid, t.regs.payloadOff)) =
    some (7, 1, 0x3DCCCCCD, 0x42C80000, true, 18) := by decide
/-- L2.4: "RVL\n4 2\n-1.5e2 +2E+1\n". -/
theorem test_fcParseTextClip_exponents : (next? (issue .fcParseTextClip (loaded
    [0x52, 0x56, 0x4C, 0x0A, 0x34, 0x20, 0x32, 0x0A, 0x2D, 0x31, 0x2E, 0x35, 0x65, 0x32, 0x20, 0x2B, 0x32, 0x45, 0x2B,
     0x31, 0x0A]))).map (fun t => (t.regs.near, t.regs.far, t.regs.payloadOff)) =
    some (0xC3160000, 0x41A00000, 21) := by decide

/-- L1.7. -/
theorem test_fcWrite : (next? (issue .fcWrite (framed 4 2 State.reset))).map
    (fun t => (t.outMem.map Prod.snd, t.regs.wrPos, t.status.toWord)) = some (bin 4 2, 20, 2) := by decide
/-- L2.4: the validation comes before the capacity test. -/
theorem test_fcWrite_priority : (next? (issue .fcWrite (withOutCap 19 (framed 0 2 State.reset)))).map
    (fun t => t.status.toWord) = some 0x00000306 := by decide

/-- P2, step 13. -/
theorem test_frameDecBin : (next? (issue .frameDecBin (loaded (bin 7 1 ++ payload)))).map
    (fun t => (t.status.toWord, t.pixMem.map Prod.snd, t.regs.npix, t.regs.pixcnt, t.regs.rdPos)) =
    some (0x0000000A, mixed, 7, 7, 24) := by decide
/-- L2.4: BIN(6,1) P. -/
theorem test_frameDecBin_count : (next? (issue .frameDecBin (loaded (bin 6 1 ++ payload)))).map
    (fun t => (t.status.toWord, t.regs.width, t.regs.npix)) = some (0x00000506, 0, 0) := by decide
/-- L2.4: TXT1 P. -/
theorem test_frameDecText : (next? (issue .frameDecText (loaded (txt1 ++ payload)))).map
    (fun t => (t.status.toWord, t.pixMem.map Prod.snd, t.regs.clipValid, t.regs.payloadOff, t.regs.rdPos)) =
    some (0x0000000A, mixed, false, 8, 12) := by decide
/-- L2.4: TXT3 P, the payload word at the unaligned index 18. -/
theorem test_frameDecTextClip : (next? (issue .frameDecTextClip (loaded (txt3 ++ payload)))).map
    (fun t => (t.status.toWord, t.pixMem.map Prod.snd, t.regs.clipValid, t.regs.payloadOff, t.regs.rdPos)) =
    some (0x0000000A, mixed, true, 18, 22) := by decide

/-- P2, step 7. -/
theorem test_frameEnc : (next? (issue .frameEnc (framed 7 1 (drawn mixed)))).map
    (fun t => (t.outMem.map Prod.snd, t.regs.wrPos, t.regs.npix, t.regs.pixcnt, t.regs.prev)) =
    some (bin 7 1 ++ payload, 24, 7, 7, 0xFFFD) := by decide
/-- L2.4: IoError on the payload store with OUT_CAP = 23. -/
theorem test_frameEnc_ioError : (next? (issue .frameEnc (withOutCap 23 (framed 7 1 (drawn mixed))))).map
    (fun t => (t.status.toWord, t.regs.wrPos)) = some (0x00000106, 0) := by decide

/-! ## The host and the steps -/

/-- L2.5: an illegal word. -/
theorem test_illegal : (next? (step (State.reset.withFetchWord 32 4))).map
    (fun t => (t.status.toWord, t.regs.cmd)) = some (0x00000806, 4) := by decide
/-- The first step after a command is placed runs it. -/
theorem test_withFetchWord : (next? (step ((setVal 10 State.reset).withFetchWord 32 2))).map
    (fun t => (t.regs.wrAcc, t.regs.wrNib, t.agenda)) = some (0x92, 2, []) := by decide
/-- L2.5: WR CTRL, 3 is a soft reset with IE = 1. -/
theorem test_softReset : (next? (hostAccess (.regWrite 0 4 3) (loaded payload))).map
    (fun t => (t.ie, t.status.toWord, t.regs.inLen, t.inMem.map Prod.snd)) = some (true, 0, 0, payload) := by decide

/-! ## Witnesses: states and operands that meet the hypotheses of each statement -/

theorem inv_of_checks (s : State)
    (h : s.cfg.Legal ∧ RegsOk s.cfg s.regs ∧ StatusOk s.status ∧ MemoriesOk s ∧
      (s.snapshot = if s.status.busy then some s.regs else none) ∧
      (s.status.busy = true → clearsFrame s.regs.cmd = true → s.status.frameValid = false)) : s.Inv :=
  ⟨h.1, h.2.1, h.2.2.1, h.2.2.2.1, h.2.2.2.2.1, h.2.2.2.2.2⟩

theorem exists_next (o : Host.Outcome State Fault Refusal) (p : State → Bool) (h : (next? o).any p = true) :
    ∃ t, o = .next t ∧ p t = true := by
  cases o with
  | next t => exact ⟨t, rfl, by simpa [next?] using h⟩
  | fault r => simp [next?] at h
  | refused r => simp [next?] at h

theorem isCode_of (ns : List Nibble) (n : Nibble) (h₁ : ns.length ≤ 10) (h₂ : ∀ m ∈ ns, isCont m = true)
    (h₃ : isCont n = false) : IsCode (ns ++ [n]) := ⟨ns, n, rfl, h₁, h₂, h₃⟩

/-- near 0.1 is below far 100.0. -/
theorem near_lt_far : f32Value 0x3DCCCCCD < f32Value 0x42C80000 := by
  have h₁ : (0x3DCCCCCD : Word).getLsbD 31 = false := by decide
  have h₂ : (0x42C80000 : Word).getLsbD 31 = false := by decide
  have n₁ : (0x3DCCCCCD : Word).toNat = 0x3DCCCCCD := rfl
  have n₂ : (0x42C80000 : Word).toNat = 0x42C80000 := rfl
  unfold f32Value
  rw [h₁, h₂, n₁, n₂, if_neg (by simp), if_neg (by simp)]
  norm_num [f32MagValue]

theorem headerLegal_example (c : Capacities) (w h : Word) (hd : 1 ≤ w.toNat ∧ 1 ≤ h.toNat ∧ w.toNat * h.toNat ≤ c.maxPixels) :
    HeaderLegal c w h 0x3DCCCCCD 0x42C80000 true :=
  ⟨hd.1, hd.2.1, hd.2.2, fun _ => ⟨by decide, by decide, near_lt_far⟩⟩

theorem witness_DecodeAndEncodeAgree : Instr.frameDecTextClip.wellFormed = true := by decide

/-- One word for each disjunct of the statement, and no other disjunct holds of it. -/
theorem witness_IllegalWordsAreRejected :
    (0x80000001 : Word).extractLsb' 10 22 ≠ 0 ∧ (0x04 : Word).extractLsb' 0 8 ∉ knownOps ∧
    ((0x121 : Word).getLsbD 8 = true ∧ (0x121 : Word).extractLsb' 0 8 ∉ [0x20, 0x22]) ∧
    ((0x220 : Word).getLsbD 8 = false ∧ (0x220 : Word).getLsbD 9 = true) := by decide

theorem witness_CommandIsAccepted :
    let s : State := { loaded payload with agenda := [turnWr .cmd 0x122, .engine] }
    s.agenda = turnWr .cmd 0x122 :: [.engine] ∧ s.status.busy = false := by decide

theorem witness_CommandIsDroppedWhileBusy :
    let s : State := { accepted .vleDec State.reset with agenda := [turnWr .cmd 3] }
    s.agenda = turnWr .cmd 3 :: [] ∧ s.status.busy = true := by decide

theorem witness_StepRunsTheDecodedCommand :
    let s : State := accepted .frameEnc State.reset
    let u : State := { s with agenda := [.engine, turnRd .val] }
    s.status.busy = true ∧ decodeWord s.regs.cmd = .ok .frameEnc ∧ s.agenda = [] ∧
      u.status.busy = true ∧ decodeWord u.regs.cmd = .ok .frameEnc ∧ u.agenda = .engine :: [turnRd .val] := by decide

theorem witness_IdleEngineDoesNothing :
    let u : State := { State.reset with agenda := [.engine] }
    State.reset.status.busy = false ∧ State.reset.agenda = [] ∧ u.status.busy = false ∧ u.agenda = .engine :: [] := by
  decide

/-- An error with a window in OUT_MEM, and bytes on both sides of it; an error with a window in PIX_MEM. -/
theorem witness_ErrorsRollBack :
    let s := accepted .vleFlush (withOutCap 7 { State.reset with
      outMem := [(0, 1), (3, 2), (4, 3)], regs := { Regs.reset with wrNib := 2, wrPos := 4 } })
    let u := accepted .rdcDec { loaded payload with regs := { (loaded payload).regs with npix := 6 } }
    (s.cfg.Legal ∧ s.status.err = false ∧ s.snapshot = some s.regs ∧ errorWindow .vleFlush s = .out 4 3 ∧
      ∃ t, exec .vleFlush s = .next t ∧ t.status.err = true) ∧
    (u.cfg.Legal ∧ u.status.err = false ∧ u.snapshot = some u.regs ∧ errorWindow .rdcDec u = .pix 6 ∧
      ∃ t, exec .rdcDec u = .next t ∧ t.status.err = true) :=
  ⟨⟨by decide, by decide, by decide, by decide, exists_next _ (fun t => t.status.err) (by decide)⟩,
   ⟨by decide, by decide, by decide, by decide, exists_next _ (fun t => t.status.err) (by decide)⟩⟩

theorem witness_IllegalCommandIsReported :
    let s := acceptCommand 0x80000001 State.reset
    s.status.busy = true ∧ s.snapshot = some s.regs ∧ s.agenda = [] ∧
      decodeWord s.regs.cmd = .error .reservedBits ∧
      ({ s with agenda := [.engine, turnRd .status] } : State).agenda = .engine :: [turnRd .status] := by decide

theorem witness_CommandsKeepOtherRegisters :
    let s := accepted .vleDec (loaded payload)
    s.snapshot = some s.regs ∧ (∃ t, exec .vleDec s = .next t ∧ t.status.err = false) ∧ RegName.npix ∉ writtenRegs .vleDec :=
  ⟨by decide, by
    obtain ⟨t, h₁, h₂⟩ := exists_next (exec .vleDec (accepted .vleDec (loaded payload))) (fun t => !t.status.err) (by decide)
    exact ⟨t, h₁, by simpa using h₂⟩, by decide⟩

theorem witness_CommandsKeepTheRest : ∃ t, exec .rdcEnc (accepted .rdcEnc (drawn mixed)) = .next t ∧ t.status.done = true :=
  exists_next _ (fun t => t.status.done) (by decide)

/-- Each clause: a byte from WR_POS on, a header byte, a byte of a frame, and an element of a frame do change. -/
theorem witness_CommandsStoreOnlyTheirOutput :
    let old := (List.range 24).zip (List.replicate 24 (0xEE : Byte))
    let s := accepted .vleFlush { State.reset with outMem := old, regs := { Regs.reset with wrNib := 3, wrAcc := 0x9C4 } }
    let h := accepted .fcWrite (framed 4 2 { State.reset with outMem := old })
    let f := accepted .frameEnc (framed 7 1 { drawn mixed with outMem := old })
    let d := accepted .rdcDec { loaded payload with
      regs := { (loaded payload).regs with npix := 7 }, pixMem := [(6, 0x1234), (7, 0x5678)] }
    (s.Inv ∧ s.status.err = false ∧
      ∃ t, exec .vleFlush s = .next t ∧ (!t.status.err && decide (t.outByte 3 ≠ s.outByte 3)) = true) ∧
    (h.Inv ∧ h.status.err = false ∧
      ∃ t, exec .fcWrite h = .next t ∧ (!t.status.err && decide (t.outByte 19 ≠ h.outByte 19)) = true) ∧
    (f.Inv ∧ f.status.err = false ∧
      ∃ t, exec .frameEnc f = .next t ∧ (!t.status.err && decide (t.outByte 23 ≠ f.outByte 23)) = true) ∧
    (d.Inv ∧ d.status.err = false ∧
      ∃ t, exec .rdcDec d = .next t ∧ (!t.status.err && decide (t.pixel 6 ≠ d.pixel 6)) = true) :=
  ⟨⟨inv_of_checks _ (by decide), by decide, exists_next _ _ (by decide)⟩,
   ⟨inv_of_checks _ (by decide), by decide, exists_next _ _ (by decide)⟩,
   ⟨inv_of_checks _ (by decide), by decide, exists_next _ _ (by decide)⟩,
   ⟨inv_of_checks _ (by decide), by decide, exists_next _ _ (by decide)⟩⟩

theorem witness_WordsAreLittleEndian : (3 : Nat) < 4 ∧ ((0 : Nat) < 1 ∨ (1 : Nat) + 4 ≤ 0) := by decide

/-- Two runs that agree below IN_LEN = 4 and differ at index 4. -/
theorem witness_CommandsReadOnlyValidInput :
    let s := accepted .vleDec (loaded payload)
    ∀ a, a < s.regs.inLen.toNat → Memory.lookup (s.inMem ++ [(4, 0xFF)]) a = Memory.lookup s.inMem a := by decide

/-- The code of 0x40000000 completes one word: it fits OUT_CAP = 4 exactly and does not fit OUT_CAP = 3. -/
theorem witness_VleEncAppendsTheCode :
    let s := fun n => accepted .vleEnc (setVal 0x40000000 (withOutCap n State.reset))
    ((s 4).Inv ∧ RoomFor (vleCode (s 4).regs.val) (s 4)) ∧ ((s 3).Inv ∧ ¬ RoomFor (vleCode (s 3).regs.val) (s 3)) := by
  refine ⟨⟨inv_of_checks _ (by decide), ?_⟩, ⟨inv_of_checks _ (by decide), ?_⟩⟩ <;> unfold RoomFor <;> decide

/-- The non-minimal code 8 5 of 5. -/
theorem witness_VleDecReadsTheCode :
    let s := accepted .vleDec (loaded [0x00, 0x00, 0x00, 0x85])
    s.Inv ∧ readStream s = [8, 5] ++ [0, 0, 0, 0, 0, 0] ∧ CodeOf [8, 5] 5 :=
  ⟨inv_of_checks _ (by decide), by decide, isCode_of [8] 5 (by decide) (by decide) (by decide), by decide⟩

/-- A stream of eight continuation nibbles; eleven of them; the code of 2^32 itself. -/
theorem witness_VleDecReportsBadStreams :
    let a := accepted .vleDec (loaded [0x88, 0x88, 0x88, 0x88])
    let b := accepted .vleDec (loaded [0x88, 0x88, 0x88, 0x88, 0x00, 0x00, 0x80, 0x88])
    let c := accepted .vleDec (loaded [0x88, 0x88, 0x88, 0xC8, 0x00, 0x00, 0x00, 0x88])
    let ones : List Nibble := List.replicate 11 8
    let big : List Nibble := [12, 8, 8, 8, 8, 8, 8, 8, 8, 8, 0]
    (a.Inv ∧ (∀ n ∈ readStream a, isCont n = true) ∧ (readStream a).length < 11) ∧
    (b.Inv ∧ readStream b = ones ++ [0, 0, 0, 0, 0] ∧ ones.length = 11 ∧ ∀ n ∈ ones, isCont n = true) ∧
    (c.Inv ∧ readStream c = big ++ [0, 0, 0, 0, 0] ∧ IsCode big ∧ 2 ^ 32 ≤ codeValue big) :=
  ⟨⟨inv_of_checks _ (by decide), by decide, by decide⟩, ⟨inv_of_checks _ (by decide), by decide, by decide, by decide⟩,
   ⟨inv_of_checks _ (by decide), by decide,
    isCode_of [12, 8, 8, 8, 8, 8, 8, 8, 8, 8] 0 (by decide) (by decide) (by decide), by decide⟩⟩

/-- OUT_CAP = 4 is the least that takes the word, 3 the greatest that does not. -/
theorem witness_VleFlushStoresTheWord :
    let s := fun n k => accepted .vleFlush (withOutCap n { State.reset with regs := { Regs.reset with wrNib := k } })
    ((s 0 0).Inv ∧ (s 0 0).regs.wrNib = 0) ∧
    ((s 4 7).Inv ∧ (s 4 7).regs.wrNib ≠ 0 ∧ (s 4 7).regs.wrPos.toNat + 4 ≤ (s 4 7).cfg.outCap) ∧
    ((s 3 1).Inv ∧ (s 3 1).regs.wrNib ≠ 0 ∧ (s 3 1).cfg.outCap < (s 3 1).regs.wrPos.toNat + 4) :=
  ⟨⟨inv_of_checks _ (by decide), by decide⟩, ⟨inv_of_checks _ (by decide), by decide⟩,
   ⟨inv_of_checks _ (by decide), by decide⟩⟩

theorem witness_NibblePacking :
    let ns : List Nibble := [1, 2, 3, 4, 5, 6, 7, 8, 9]
    7 < ns.length ∧ State.reset.regs.wrNib = 0 ∧ 7 < 8 * (ns.length / 8) := by decide

/-- The codes of 10 and 100 fill a word of OUT_CAP = 4 exactly, and the copy is in IN_MEM. -/
theorem witness_VleRoundTrip :
    let s := withOutCap 4 State.reset
    let u := loaded [0x00, 0x40, 0x9C, 0x92]
    s.Inv ∧ s.status.busy = false ∧ s.regs.wrNib = 0 ∧
    s.regs.wrPos.toNat + 4 * (((([10, 100] : List Word).flatMap vleCode).length + 7) / 8) ≤ s.cfg.outCap ∧
    u.Inv ∧ u.status.busy = false ∧ u.regs.rdPos = s.regs.wrPos ∧ u.regs.rdNib = 0 ∧
    ∃ t, ((encodeAll [10, 100] s).map (issue .vleFlush)).getD (.refused .badRegisterAccess) = .next t ∧
      (decide (t.regs.wrPos.toNat ≤ u.regs.inLen.toNat) &&
        decide (∀ a, a < t.regs.wrPos.toNat → u.inByte a = t.outByte a)) = true :=
  ⟨inv_of_checks _ (by decide), by decide, by decide, by decide, inv_of_checks _ (by decide), by decide, by decide,
   by decide, exists_next _ _ (by decide)⟩

/-- The two pairs of the mixed runs. -/
def mixedPairs : List PairCodes := [⟨[3], [2], [[9, 2], [9, 7]]⟩, ⟨[2], [0], []⟩]

theorem isCode_one (n : Nibble) (h : isCont n = false) : IsCode [n] := isCode_of [] n (by simp) (by simp) h

theorem isCode_two (m n : Nibble) (h₁ : isCont m = true) (h₂ : isCont n = false) : IsCode [m, n] :=
  isCode_of [m] n (by simp) (by simpa using h₁) h₂

theorem mixedPairs_legal : ∀ p ∈ mixedPairs, p.Legal := by
  intro p hp
  simp only [mixedPairs, List.mem_cons, List.not_mem_nil, or_false] at hp
  rcases hp with rfl | rfl
  · refine ⟨⟨isCode_one 3 (by decide), by decide⟩, ⟨isCode_one 2 (by decide), by decide⟩, ?_, by decide⟩
    intro d hd
    simp only [List.mem_cons, List.not_mem_nil, or_false] at hd
    rcases hd with rfl | rfl
    · exact ⟨isCode_two 9 2 (by decide) (by decide), by decide⟩
    · exact ⟨isCode_two 9 7 (by decide) (by decide), by decide⟩
  · exact ⟨⟨isCode_one 2 (by decide), by decide⟩, ⟨isCode_one 0 (by decide), by decide⟩, by simp, by decide⟩

theorem mixedPairs_ends : EndsFrame 7 mixedPairs :=
  ⟨[⟨[3], [2], [[9, 2], [9, 7]]⟩], ⟨[2], [0], []⟩, rfl, by decide, by decide⟩

/-- `loaded payload` with NPIX = n and RDC.DEC accepted. -/
def decoding (n : Word) : State :=
  accepted .rdcDec { loaded payload with regs := { (loaded payload).regs with npix := n } }

theorem witness_RdcDecDecodesFrames :
    (decoding 7).Inv ∧ 1 ≤ (decoding 7).regs.npix.toNat ∧ (decoding 7).regs.npix.toNat ≤ (decoding 7).cfg.maxPixels ∧
    (∀ p ∈ mixedPairs, p.Legal) ∧ EndsFrame (decoding 7).regs.npix.toNat mixedPairs ∧
    readStream (decoding 7) = mixedPairs.flatMap PairCodes.nibbles ++ [] :=
  ⟨inv_of_checks _ (by decide), by decide, by decide, mixedPairs_legal, mixedPairs_ends, by decide⟩

/-- NPIX = 0 and NPIX = MAX_PIXELS + 1; a zero run that passes NPIX = 6 after the first pair; a nonzero run that passes
NPIX = 4 in it. -/
theorem witness_RdcDecReportsBadCounts :
    ((decoding 0).Inv ∧ (decoding 0).regs.npix.toNat = 0) ∧
    ((decoding 65).Inv ∧ (decoding 65).cfg.maxPixels < (decoding 65).regs.npix.toNat) ∧
    (let ps := mixedPairs.take 1;
      (decoding 6).Inv ∧ 1 ≤ (decoding 6).regs.npix.toNat ∧ (decoding 6).regs.npix.toNat ≤ (decoding 6).cfg.maxPixels ∧
      (∀ p ∈ ps, p.Legal) ∧
      (∀ k, k ≤ ps.length → ((ps.take k).map PairCodes.length).sum < (decoding 6).regs.npix.toNat) ∧
      IsCode [2] ∧ codeValue [2] < 2 ^ 32 ∧ readStream (decoding 6) = ps.flatMap PairCodes.nibbles ++ [2] ++ [0] ∧
      (decoding 6).regs.npix.toNat < (ps.map PairCodes.length).sum + codeValue [2]) ∧
    ((decoding 4).Inv ∧ 1 ≤ (decoding 4).regs.npix.toNat ∧ (decoding 4).regs.npix.toNat ≤ (decoding 4).cfg.maxPixels ∧
      IsCode [3] ∧ codeValue [3] < 2 ^ 32 ∧
      readStream (decoding 4) = [] ++ [3] ++ [2] ++ [9, 2, 9, 7, 2, 0] ∧ IsCode [2] ∧ codeValue [2] < 2 ^ 32 ∧
      0 + codeValue [3] ≤ (decoding 4).regs.npix.toNat ∧
      (decoding 4).regs.npix.toNat < 0 + codeValue [3] + codeValue [2]) :=
  ⟨⟨inv_of_checks _ (by decide), by decide⟩, ⟨inv_of_checks _ (by decide), by decide⟩,
   ⟨inv_of_checks _ (by decide), by decide, by decide, fun p hp => mixedPairs_legal p (List.mem_of_mem_take hp), by decide,
    isCode_one 2 (by decide), by decide, by decide, by decide⟩,
   ⟨inv_of_checks _ (by decide), by decide, by decide, isCode_one 3 (by decide), by decide, by decide,
    isCode_one 2 (by decide), by decide, by decide, by decide⟩⟩

/-- The mixed runs with NPIX = 8 end after the pair (2, 0) (95_test_vectors.md L2.3); a delta of 2^32 in place of the first one. -/
theorem witness_RdcDecReportsBadCodes :
    let big : List Nibble := [12, 8, 8, 8, 8, 8, 8, 8, 8, 8, 0]
    let d := accepted .rdcDec { loaded [0x88, 0x88, 0xC8, 0x32, 0x00, 0x00, 0x88, 0x88] with
      regs := { Regs.reset with inLen := 8, npix := 5 } }
    ((decoding 8).Inv ∧ 1 ≤ (decoding 8).regs.npix.toNat ∧ (decoding 8).regs.npix.toNat ≤ (decoding 8).cfg.maxPixels ∧
      (∀ p ∈ mixedPairs, p.Legal) ∧
      (∀ k, k ≤ mixedPairs.length → ((mixedPairs.take k).map PairCodes.length).sum < (decoding 8).regs.npix.toNat) ∧
      PairBegun 1 [] ∧ readStream (decoding 8) = mixedPairs.flatMap PairCodes.nibbles ++ [].flatten ++ []) ∧
    (d.Inv ∧ 1 ≤ d.regs.npix.toNat ∧ d.regs.npix.toNat ≤ d.cfg.maxPixels ∧ PairBegun (5 - 0) [[3], [2]] ∧
      readStream d = [] ++ [[3], [2]].flatten ++ (big ++ [0, 0, 0]) ∧ IsCode big ∧ 2 ^ 32 ≤ codeValue big) :=
  ⟨⟨inv_of_checks _ (by decide), by decide, by decide, mixedPairs_legal, by decide, ⟨by simp, by decide, trivial⟩, by decide⟩,
   ⟨inv_of_checks _ (by decide), by decide, by decide,
    ⟨by
      intro c hc
      simp only [List.mem_cons, List.not_mem_nil, or_false] at hc
      rcases hc with rfl | rfl
      · exact ⟨isCode_one 3 (by decide), by decide⟩
      · exact ⟨isCode_one 2 (by decide), by decide⟩, by decide, by decide⟩,
    by decide, isCode_of [12, 8, 8, 8, 8, 8, 8, 8, 8, 8] 0 (by decide) (by decide) (by decide), by decide⟩⟩

/-- The nibbles and padding of `s`'s frame fit. -/
def bodyFits (s : State) : Prop :=
  RoomFor (frameNibbles (pixels s s.regs.npix.toNat) ++
    padding (frameNibbles (pixels s s.regs.npix.toNat)) s.regs) s

/-- The frame of the mixed runs fits OUT_CAP = 4 exactly and not OUT_CAP = 3; NPIX = 0 and NPIX = MAX_PIXELS + 1; with the
nibble 7 pending it takes two words, 7 3 2 9 2 9 7 2 and 0 with padding (R158, log 22). -/
theorem witness_RdcEncEncodesFrames :
    let s := fun n => accepted .rdcEnc (withOutCap n (drawn mixed))
    let z := fun k => accepted .rdcEnc { State.reset with regs := { Regs.reset with npix := k } }
    let d := withOutCap 8 (drawn mixed)
    let p := accepted .rdcEnc { d with regs := { d.regs with wrAcc := 7, wrNib := 1 } }
    ((z 0).Inv ∧ (z 0).regs.npix.toNat = 0) ∧ ((z 65).Inv ∧ (z 65).cfg.maxPixels < (z 65).regs.npix.toNat) ∧
    ((s 4).Inv ∧ 1 ≤ (s 4).regs.npix.toNat ∧ (s 4).regs.npix.toNat ≤ (s 4).cfg.maxPixels ∧ bodyFits (s 4)) ∧
    ((s 3).Inv ∧ 1 ≤ (s 3).regs.npix.toNat ∧ (s 3).regs.npix.toNat ≤ (s 3).cfg.maxPixels ∧ ¬ bodyFits (s 3)) ∧
    (p.Inv ∧ 1 ≤ p.regs.npix.toNat ∧ p.regs.npix.toNat ≤ p.cfg.maxPixels ∧ bodyFits p ∧
      ∃ t, exec .rdcEnc p = .next t ∧
        decide (t.outMem.map Prod.snd = [0x72, 0x29, 0x29, 0x73, 0, 0, 0, 0] ∧ t.regs.wrPos = 8) = true) := by
  refine ⟨⟨inv_of_checks _ (by decide), by decide⟩, ⟨inv_of_checks _ (by decide), by decide⟩,
    ⟨inv_of_checks _ (by decide), by decide, by decide, ?_⟩, ⟨inv_of_checks _ (by decide), by decide, by decide, ?_⟩,
    ⟨inv_of_checks _ (by decide), by decide, by decide, ?_, exists_next _ _ (by decide)⟩⟩ <;>
    unfold bodyFits RoomFor <;> decide

theorem witness_FrameBodyRoundTrip :
    let s := withOutCap 4 (drawn mixed)
    let u : State := { loaded payload with cfg := s.cfg, regs := { (loaded payload).regs with npix := 7 } }
    s.Inv ∧ s.status.busy = false ∧ s.regs.wrNib = 0 ∧ 1 ≤ s.regs.npix.toNat ∧ s.regs.npix.toNat ≤ s.cfg.maxPixels ∧
    bodyFits s ∧
    u.Inv ∧ u.status.busy = false ∧ u.cfg = s.cfg ∧ u.regs.npix = s.regs.npix ∧ u.regs.rdPos = s.regs.wrPos ∧
    u.regs.rdNib = 0 ∧
    ∃ t, issue .rdcEnc s = .next t ∧ (decide (t.regs.wrPos.toNat ≤ u.regs.inLen.toNat) &&
      decide (∀ a, a < t.regs.wrPos.toNat → u.inByte a = t.outByte a)) = true := by
  refine ⟨inv_of_checks _ (by decide), by decide, by decide, by decide, by decide, ?_, inv_of_checks _ (by decide),
    by decide, by decide, by decide, by decide, by decide, exists_next _ _ (by decide)⟩
  unfold bodyFits RoomFor
  decide

theorem witness_BodyLoopsHaveNoCap : decodeFuel (decoding 7) ≤ 100 ∧ (7 : Nat) ≤ 100 := by decide

/-- BIN(4,2) as a header; MAX_PIXELS = 8 is the least that takes it. -/
def binHeader : Header := ⟨4, 2, 0x3DCCCCCD, 0x42C80000, true, 20⟩

/-- TXT1 as a header, and TXT3. -/
def txtHeader : Header := ⟨7, 1, 0, 0, false, 8⟩
def clipHeader : Header := ⟨7, 1, 0x3DCCCCCD, 0x42C80000, true, 18⟩

theorem isDec_seven : IsDec [0x37] 7 := ⟨⟨by decide, by decide⟩, by decide⟩
theorem isDec_one : IsDec [0x31] 1 := ⟨⟨by decide, by decide⟩, by decide⟩

/-- "0.1" and "100.0" (95_test_vectors.md TXT3). -/
theorem isF32Field_near : IsF32Field [0x30, 0x2E, 0x31] 0x3DCCCCCD :=
  ⟨⟨false, 1, -1⟩, ⟨[], [0x30, 0x2E, 0x31], [0x30], [0x31], [], 0, rfl, .inl ⟨rfl, rfl⟩,
    ⟨by decide, .inr (.inl ⟨rfl, by decide⟩)⟩, .inl ⟨rfl, rfl⟩, by decide, by decide⟩, by decide⟩
theorem isF32Field_far : IsF32Field [0x31, 0x30, 0x30, 0x2E, 0x30] 0x42C80000 :=
  ⟨⟨false, 1000, -1⟩, ⟨[], [0x31, 0x30, 0x30, 0x2E, 0x30], [0x31, 0x30, 0x30], [0x30], [], 0, rfl, .inl ⟨rfl, rfl⟩,
    ⟨by decide, .inr (.inl ⟨rfl, by decide⟩)⟩, .inl ⟨rfl, rfl⟩, by decide, by decide⟩, by decide⟩

theorem txtHeader_legal (c : Capacities) (h : 7 ≤ c.maxPixels) :
    HeaderLegal c txtHeader.width txtHeader.height txtHeader.near txtHeader.far txtHeader.clip :=
  ⟨by decide, by decide, h, by decide⟩

theorem txtHeader_at (s : State) (h : BytesAt s 0 txt1) : TextHeaderAt s txtHeader :=
  ⟨[0x37], [0x31], h, isDec_seven, isDec_one, rfl, rfl, rfl, rfl⟩

theorem clipHeader_at (s : State) (h : BytesAt s 0 txt3) : ClipHeaderAt s clipHeader :=
  ⟨[0x37], [0x31], [0x30, 0x2E, 0x31], [0x31, 0x30, 0x30, 0x2E, 0x30], h, isDec_seven, isDec_one, isF32Field_near,
    isF32Field_far, rfl, rfl⟩

theorem witness_FcParseReadsTheHeader :
    let b := accepted .fcParseBin (loaded (bin 4 2))
    let x := accepted .fcParseText (loaded txt1)
    let c := accepted .fcParseTextClip (loaded txt3)
    (b.Inv ∧ HeaderLegal b.cfg 4 2 0x3DCCCCCD 0x42C80000 true ∧ HeaderAt false false b binHeader) ∧
    (x.Inv ∧ HeaderLegal x.cfg 7 1 0 0 false ∧ HeaderAt true false x txtHeader) ∧
    (c.Inv ∧ HeaderLegal c.cfg 7 1 0x3DCCCCCD 0x42C80000 true ∧ HeaderAt true true c clipHeader) :=
  ⟨⟨inv_of_checks _ (by decide), headerLegal_example _ 4 2 (by decide), by decide, by unfold BytesAt; decide, by decide⟩,
   ⟨inv_of_checks _ (by decide), txtHeader_legal _ (by decide), txtHeader_at _ (by unfold BytesAt; decide)⟩,
   ⟨inv_of_checks _ (by decide), headerLegal_example _ 7 1 (by decide), clipHeader_at _ (by unfold BytesAt; decide)⟩⟩

/-- Three bytes are no magic; 19 bytes are no binary header, and one of 65 by 1 pixels breaks the invariants. -/
theorem witness_FcParseReportsBadHeaders :
    let m := accepted .fcParseText (loaded [0x52, 0x56, 0x4C])
    let b := accepted .fcParseBin (loaded ((bin 4 2).take 19))
    let c := accepted .fcParseBin (loaded (bin 65 1))
    (m.Inv ∧ ¬ BytesAt m 0 magicBytes) ∧
    (b.Inv ∧ BytesAt b 0 magicBytes ∧
      ∀ hd, HeaderAt false false b hd → ¬ HeaderLegal b.cfg hd.width hd.height hd.near hd.far hd.clip) ∧
    (c.Inv ∧ BytesAt c 0 magicBytes ∧
      ∀ hd, HeaderAt false false c hd → ¬ HeaderLegal c.cfg hd.width hd.height hd.near hd.far hd.clip) := by
  refine ⟨⟨inv_of_checks _ (by decide), by unfold BytesAt; decide⟩,
    ⟨inv_of_checks _ (by decide), by unfold BytesAt; decide, ?_⟩,
    ⟨inv_of_checks _ (by decide), by unfold BytesAt; decide, ?_⟩⟩
  · rintro hd ⟨h, -⟩
    exact absurd h (by decide)
  · rintro hd ⟨-, -, rfl⟩ ⟨-, -, h, -⟩
    exact absurd h (by decide)

/-- OUT_CAP = 20 takes the header, 19 does not; CLIP_VALID = 0 is not legal. -/
theorem witness_FcWriteStoresTheHeader :
    let s := fun n => accepted .fcWrite (withOutCap n (framed 4 2 State.reset))
    let z := accepted .fcWrite State.reset
    ((s 20).Inv ∧ (s 20).regs.clipValid = true ∧
      HeaderLegal (s 20).cfg (s 20).regs.width (s 20).regs.height (s 20).regs.near (s 20).regs.far true ∧
      20 ≤ (s 20).cfg.outCap) ∧
    ((s 19).Inv ∧ (s 19).regs.clipValid = true ∧
      HeaderLegal (s 19).cfg (s 19).regs.width (s 19).regs.height (s 19).regs.near (s 19).regs.far true ∧
      (s 19).cfg.outCap < 20) ∧
    (z.Inv ∧ ¬ (z.regs.clipValid = true ∧ HeaderLegal z.cfg z.regs.width z.regs.height z.regs.near z.regs.far true)) :=
  ⟨⟨inv_of_checks _ (by decide), by decide, headerLegal_example _ 4 2 (by decide), by decide⟩,
   ⟨inv_of_checks _ (by decide), by decide, headerLegal_example _ 4 2 (by decide), by decide⟩,
   ⟨inv_of_checks _ (by decide), fun h => absurd h.1 (by decide)⟩⟩

theorem witness_HeaderRoundTrip :
    let s := withOutCap 20 (framed 4 2 State.reset)
    let u : State := { loaded (bin 4 2) with cfg := s.cfg }
    s.Inv ∧ s.status.busy = false ∧ s.regs.clipValid = true ∧ 20 ≤ s.cfg.outCap ∧
    HeaderLegal s.cfg s.regs.width s.regs.height s.regs.near s.regs.far true ∧
    u.Inv ∧ u.status.busy = false ∧ u.cfg = s.cfg ∧ 20 ≤ u.regs.inLen.toNat ∧
    ∃ t, issue .fcWrite s = .next t ∧ (List.range 20).all (fun a => decide (u.inByte a = t.outByte a)) = true :=
  ⟨inv_of_checks _ (by decide), by decide, by decide, by decide, headerLegal_example _ 4 2 (by decide),
   inv_of_checks _ (by decide), by decide, by decide, by decide, exists_next _ _ (by decide)⟩

theorem witness_FrameDecDecodesFrames :
    let b := accepted .frameDecBin (loaded (bin 7 1 ++ payload))
    let x := accepted .frameDecText (loaded (txt1 ++ payload))
    let c := accepted .frameDecTextClip (loaded (txt3 ++ payload))
    let hb : Header := ⟨7, 1, 0x3DCCCCCD, 0x42C80000, true, 20⟩
    (b.Inv ∧ HeaderAt false false b hb ∧ HeaderLegal b.cfg 7 1 0x3DCCCCCD 0x42C80000 true ∧
      readStream (setHeader hb b) = mixedPairs.flatMap PairCodes.nibbles ++ []) ∧
    (x.Inv ∧ HeaderAt true false x txtHeader ∧ HeaderLegal x.cfg 7 1 0 0 false ∧
      readStream (setHeader txtHeader x) = mixedPairs.flatMap PairCodes.nibbles ++ []) ∧
    (c.Inv ∧ HeaderAt true true c clipHeader ∧ HeaderLegal c.cfg 7 1 0x3DCCCCCD 0x42C80000 true ∧
      readStream (setHeader clipHeader c) = mixedPairs.flatMap PairCodes.nibbles ++ []) ∧
    (∀ p ∈ mixedPairs, p.Legal) ∧ EndsFrame ((7 : Word).toNat * (1 : Word).toNat) mixedPairs :=
  ⟨⟨inv_of_checks _ (by decide), ⟨by decide, by unfold BytesAt; decide, by decide⟩, headerLegal_example _ 7 1 (by decide),
    by decide⟩,
   ⟨inv_of_checks _ (by decide), txtHeader_at _ (by unfold BytesAt; decide), txtHeader_legal _ (by decide),
    by decide⟩,
   ⟨inv_of_checks _ (by decide), clipHeader_at _ (by unfold BytesAt; decide), headerLegal_example _ 7 1 (by decide),
    by decide⟩,
   mixedPairs_legal, mixedPairs_ends⟩

/-- No magic; 65 by 1 pixels; a legal header with one pixel too many in its payload (95_test_vectors.md, BIN(6,1) P). -/
theorem witness_FrameDecReportsErrors :
    let m := accepted .frameDecBin (loaded (0x58 :: (bin 7 1).drop 1 ++ payload))
    let c := accepted .frameDecBin (loaded (bin 65 1 ++ payload))
    let b := accepted .frameDecBin (loaded (bin 6 1 ++ payload))
    let hb : Header := ⟨6, 1, 0x3DCCCCCD, 0x42C80000, true, 20⟩
    (m.Inv ∧ ¬ BytesAt m 0 magicBytes) ∧
    (c.Inv ∧ BytesAt c 0 magicBytes ∧
      ∀ hd, HeaderAt false false c hd → ¬ HeaderLegal c.cfg hd.width hd.height hd.near hd.far hd.clip) ∧
    (b.Inv ∧ HeaderAt false false b hb ∧ HeaderLegal b.cfg 6 1 0x3DCCCCCD 0x42C80000 true ∧
      rdcDecodeBody (setNpixFromHeader (setHeader hb b)) = .error .pixelCountMismatch) := by
  refine ⟨⟨inv_of_checks _ (by decide), by unfold BytesAt; decide⟩,
    ⟨inv_of_checks _ (by decide), by unfold BytesAt; decide, ?_⟩,
    ⟨inv_of_checks _ (by decide), ⟨by decide, by unfold BytesAt; decide, by decide⟩, headerLegal_example _ 6 1 (by decide),
      rfl⟩⟩
  rintro hd ⟨-, -, rfl⟩ ⟨-, -, h, -⟩
  exact absurd h (by decide)

/-- The payload of `s`'s frame fits behind the header. -/
def frameFits (s : State) : Prop :=
  let t := setNpixFromHeader (writtenHeader s)
  let ns := frameNibbles (pixels s (s.regs.width.toNat * s.regs.height.toNat))
  20 ≤ s.cfg.outCap ∧ RoomFor (ns ++ padding ns t.regs) t

/-- OUT_CAP = 24 takes the frame, 23 and 20 do not take its payload, 19 does not take its header; CLIP_VALID = 0 is not
legal. -/
theorem witness_FrameEncEncodesFrames :
    let s := fun n => accepted .frameEnc (withOutCap n (framed 7 1 (drawn mixed)))
    let z := accepted .frameEnc (drawn mixed)
    ((s 24).Inv ∧ (s 24).regs.clipValid = true ∧ 20 ≤ (s 24).cfg.outCap ∧ frameFits (s 24) ∧
      HeaderLegal (s 24).cfg (s 24).regs.width (s 24).regs.height (s 24).regs.near (s 24).regs.far true) ∧
    ((s 23).Inv ∧ (s 23).regs.clipValid = true ∧ 20 ≤ (s 23).cfg.outCap ∧ ¬ frameFits (s 23) ∧
      HeaderLegal (s 23).cfg (s 23).regs.width (s 23).regs.height (s 23).regs.near (s 23).regs.far true) ∧
    ((s 20).Inv ∧ (s 20).regs.clipValid = true ∧ 20 ≤ (s 20).cfg.outCap ∧ ¬ frameFits (s 20) ∧
      HeaderLegal (s 20).cfg (s 20).regs.width (s 20).regs.height (s 20).regs.near (s 20).regs.far true) ∧
    ((s 19).Inv ∧ (s 19).regs.clipValid = true ∧ (s 19).cfg.outCap < 20 ∧
      HeaderLegal (s 19).cfg (s 19).regs.width (s 19).regs.height (s 19).regs.near (s 19).regs.far true) ∧
    (z.Inv ∧ ¬ (z.regs.clipValid = true ∧ HeaderLegal z.cfg z.regs.width z.regs.height z.regs.near z.regs.far true)) := by
  refine ⟨⟨inv_of_checks _ (by decide), by decide, by decide, ?_, headerLegal_example _ 7 1 (by decide)⟩,
    ⟨inv_of_checks _ (by decide), by decide, by decide, ?_, headerLegal_example _ 7 1 (by decide)⟩,
    ⟨inv_of_checks _ (by decide), by decide, by decide, ?_, headerLegal_example _ 7 1 (by decide)⟩,
    ⟨inv_of_checks _ (by decide), by decide, by decide, headerLegal_example _ 7 1 (by decide)⟩,
    ⟨inv_of_checks _ (by decide), fun h => absurd h.1 (by decide)⟩⟩ <;> unfold frameFits RoomFor <;> decide

theorem witness_FrameRoundTrip :
    let s := withOutCap 24 (framed 7 1 (drawn mixed))
    let u : State := { loaded (bin 7 1 ++ payload) with cfg := s.cfg }
    s.Inv ∧ s.status.busy = false ∧ s.regs.clipValid = true ∧ 20 ≤ s.cfg.outCap ∧
    HeaderLegal s.cfg s.regs.width s.regs.height s.regs.near s.regs.far true ∧
    20 + 4 * (((frameNibbles (pixels s (s.regs.width.toNat * s.regs.height.toNat))).length + 7) / 8) ≤ s.cfg.outCap ∧
    u.Inv ∧ u.status.busy = false ∧ u.cfg = s.cfg ∧
    ∃ t, issue .frameEnc s = .next t ∧ (decide (u.regs.inLen = t.regs.wrPos) &&
      decide (∀ a, a < t.regs.wrPos.toNat → u.inByte a = t.outByte a)) = true :=
  ⟨inv_of_checks _ (by decide), by decide, by decide, by decide, headerLegal_example _ 7 1 (by decide), by decide,
   inv_of_checks _ (by decide), by decide, by decide, exists_next _ _ (by decide)⟩

/-- The value 0xFFFFFFFD has every bit but SRST. -/
theorem witness_CtrlAndStatusWrites : (0xFFFFFFFD : Word).getLsbD 1 = false := by decide

theorem witness_IdleWrites : State.reset.status.busy = false ∧ State.reset.Inv ∧
    State.reset.cfg.inCap < (0xFFFFFFFF : Word).toNat :=
  ⟨by decide, inv_of_checks _ (by decide), by decide⟩

/-- The statements about writes while idle have one hypothesis between them, met by `witness_IdleWrites`. -/
theorem witness_CursorWritesEmptyTheCursor : State.reset.status.busy = false := witness_IdleWrites.1
theorem witness_InLenClamps : State.reset.Inv ∧ State.reset.status.busy = false :=
  ⟨witness_IdleWrites.2.1, witness_IdleWrites.1⟩
theorem witness_IdleRegisterWrites : State.reset.status.busy = false := witness_IdleWrites.1

theorem witness_ReservedAndReadOnlyOffsets :
    (0x4C % 4 = 0 ∧ 0x4C ∈ [0x14, 0x18, 0x20, 0x24, 0x2C, 0x30, 0x4C]) ∧ (0x50 % 4 = 0 ∧ 0x50 ≤ 0x50 ∧ 0x50 ≤ 0xFC) ∧
    (0xFC % 4 = 0 ∧ 0x50 ≤ 0xFC ∧ 0xFC ≤ 0xFC) := by decide

theorem witness_BusyRegisterWrites :
    (accepted .vleDec State.reset).status.busy = true ∧ 0x0C % 4 = 0 ∧ 0x0C ≤ 0x0C ∧ 0x0C ≤ 0xFC ∧
    0xFC % 4 = 0 ∧ 0x0C ≤ 0xFC := by decide

theorem witness_RegisterReads :
    State.reset.status.busy = false ∧ (accepted .nop State.reset).status.busy = true ∧
    RegName.inLen ∈ [RegName.ctrl, .status, .cmd, .inLen] ∧ RegName.val ∉ [RegName.ctrl, .status, .cmd, .inLen] := by
  decide

theorem witness_InterruptIsALevel :
    let s : State := { accepted .nop State.reset with ie := true }
    let d : State := { State.reset with ie := true, status := { Status.reset with done := true } }
    (∃ t, exec .nop s = .next t ∧ t.irq = true) ∧
    (d.irq = true ∧ d.status.busy = false ∧ (∃ t, hostAccess (.regWrite 0x04 4 2) d = .next t ∧ decide (t.irq = false) = true) ∧
      (∃ t, hostAccess (.regWrite 0x08 4 3) d = .next t ∧ decide (t.irq = false) = true) ∧
      (∃ t, hostAccess .hwReset d = .next t ∧ decide (t.irq = false) = true)) :=
  ⟨exists_next _ (fun t => t.irq) (by decide),
   ⟨by decide, by decide, exists_next _ _ (by decide), exists_next _ _ (by decide), exists_next _ _ (by decide)⟩⟩

/-- A soft reset of a running FRAME.ENC, whose window is all of OUT_MEM; an idle one has none. -/
theorem witness_SoftReset :
    let s := accepted .frameEnc (framed 7 1 (drawn mixed))
    (3 : Word).getLsbD 1 = true ∧ abortWindow s = .out 0 64 ∧ State.reset.status.busy = false ∧
    abortWindow State.reset = .none := by decide

/-- Each clause: a command without a window; one with the cursor's; RDC.DEC at the ends of NPIX's range; FC.WRITE with
OUT_CAP = 20 and 19; FRAME.DEC with a legal header and with no magic; FRAME.ENC with a legal header at
OUT_CAP = 20 and 19, and without. -/
theorem witness_AbortWindows :
    let b := fun i => accepted i State.reset
    let w := fun n => accepted .fcWrite (withOutCap n (framed 4 2 State.reset))
    let f := accepted .frameDecText (loaded (txt1 ++ payload))
    let e := fun n => accepted .frameEnc (withOutCap n (framed 7 1 State.reset))
    ((b .zzDec).status.busy = true ∧ decodeWord (b .zzDec).regs.cmd = .ok .zzDec ∧ abortWindow (b .zzDec) = .none) ∧
    (decodeWord (b .vleEnc).regs.cmd = .ok .vleEnc ∧ abortWindow (b .vleEnc) = .out 0 64) ∧
    (abortWindow (decoding 0) = .none ∧ abortWindow (decoding 1) = .pix 1 ∧ abortWindow (decoding 64) = .pix 64 ∧
      abortWindow (decoding 65) = .none) ∧
    ((w 20).regs.clipValid = true ∧ abortWindow (w 20) = .out 0 20 ∧ abortWindow (w 19) = .none) ∧
    (HeaderAt true false f txtHeader ∧ HeaderLegal f.cfg 7 1 0 0 false ∧ abortWindow f = .pix 7) ∧
    (¬ BytesAt (accepted .frameDecText (loaded [0x52])) 0 magicBytes ∧
      abortWindow (accepted .frameDecText (loaded [0x52])) = .none) ∧
    ((e 20).regs.clipValid = true ∧
      HeaderLegal (e 20).cfg (e 20).regs.width (e 20).regs.height (e 20).regs.near (e 20).regs.far true ∧
      abortWindow (e 20) = .out 0 20 ∧ abortWindow (e 19) = .none) ∧
    ((b .frameEnc).regs.clipValid = false ∧ abortWindow (b .frameEnc) = .none) :=
  ⟨by decide, by decide, by decide, by decide,
   ⟨txtHeader_at _ (by unfold BytesAt; decide), txtHeader_legal _ (by decide), by decide⟩,
   ⟨by unfold BytesAt; decide, by decide⟩, ⟨by decide, headerLegal_example _ 7 1 (by decide), by decide, by decide⟩, by decide⟩

/-- A legal turn and each broken one: a halfword access, an odd offset, an offset past the window, a write while BUSY. -/
theorem witness_StepStopsOnlyOnBrokenContract :
    let s := accepted .vleDec State.reset
    ({ s with agenda := [turnRd .status] } : State).nextTurnLegal = true ∧
    ({ s with agenda := [.host (.pixWrite 63 0)] } : State).nextTurnLegal = false ∧
    ({ State.reset with agenda := [.host (.inRead 64)] } : State).nextTurnLegal = false ∧
    ¬ (2 = 4 ∧ 0 % 4 = 0 ∧ 0 < 256) ∧ ¬ (4 = 4 ∧ 2 % 4 = 0 ∧ 2 < 256) ∧ ¬ (4 = 4 ∧ 256 % 4 = 0 ∧ 256 < 256) ∧
    s.status.busy = true ∧ 63 < s.cfg.inCap ∧ 63 < s.cfg.outCap ∧ 63 < s.cfg.maxPixels := by decide

theorem witness_HostMemoryAccesses :
    let s := accepted .vleDec State.reset
    (State.reset.status.busy = false ∧ 63 < State.reset.cfg.inCap ∧ 63 < State.reset.cfg.outCap ∧
      63 < State.reset.cfg.maxPixels) ∧
    (s.status.busy = true ∧ 63 < s.cfg.inCap ∧ 63 < s.cfg.outCap ∧ 63 < s.cfg.maxPixels) := by decide

/-- The least and the greatest capacities of 00_scope.md R7. -/
theorem witness_ResetIsLegal :
    Capacities.Legal ⟨4, 0, 1⟩ ∧ Capacities.Legal ⟨2 ^ 32 - 1, 2 ^ 32 - 1, 2 ^ 32 - 1⟩ := by decide

theorem witness_StepKeepsStatesLegal :
    let s : State := { accepted .rdcDec { loaded payload with regs := { (loaded payload).regs with npix := 7 } } with
      agenda := [.engine] }
    s.Inv ∧ ∃ t, step s = .next t ∧ t.status.frameValid = true :=
  ⟨inv_of_checks _ (by decide), exists_next _ (fun t => t.status.frameValid) (by decide)⟩

theorem test_reset_memories_wf : MemoriesOk State.reset := by decide

end Sys2Proof.Tests
end

section
/-! SUPPORT. Every turn keeps a legal state legal (10_state.md): the lemmas of O60, one for each kind of turn. -/

namespace Sys2Proof.Machine

open Sys2Proof

/-- With no command running, a state is legal as soon as its parts and its STATUS are. -/
theorem inv_of_idle (s : State) (h : PartsLegal s) (hs : StatusOk s.status) (hb : s.status.busy = false)
    (hn : s.snapshot = none) : s.Inv := by
  obtain ⟨hcaps, hregs, hmem⟩ := h
  exact ⟨hcaps, hregs, hs, hmem, by rw [hb, hn]; rfl, fun h => nomatch hb.symm.trans h⟩

/-- Legality does not depend on the model's own fields (logs 3, 5, 11). -/
theorem inv_of_ownFields (s : State) (l : List Turn) (d : Option Word) (n : Nat) (h : s.Inv) :
    ({ s with agenda := l, readData := d, freeCtr := n } : State).Inv :=
  ⟨h.caps, h.regs, h.status, h.memories, h.snapshot, h.frame⟩

/-- A roll back in a legal state leaves the registers as they are. -/
theorem snapshot_getD_of_inv (s : State) (h : s.Inv) : s.snapshot.getD s.regs = s.regs := by
  rw [h.snapshot]
  split <;> rfl

/-! ## The engine's turn -/

theorem code_legal (e : CmdError) (h : e ≠ .rangeError) : 1 ≤ e.code.toNat ∧ e.code.toNat ≤ 8 ∧ e.code ≠ 6 := by
  cases e
  case rangeError => exact absurd rfl h
  all_goals decide

theorem rangeError_notMem_mayRaise (i : Instr) : CmdError.rangeError ∉ mayRaise i := by
  cases i <;> decide

theorem statusOk_completed (t : Status) (h : StatusOk t) : StatusOk t.completed := by
  obtain ⟨h₀, h₁, -⟩ := h
  exact ⟨h₀, h₁, fun hb => Bool.noConfusion hb⟩

theorem statusOk_failed (e : CmdError) (t : Status) (h : e ≠ .rangeError) : StatusOk (t.failed e) :=
  ⟨fun he => Bool.noConfusion he, fun _ => code_legal e h, fun hb => Bool.noConfusion hb⟩

/-- An error in a legal state, with a window inside its memory, leaves a legal state. -/
theorem raiseError_legal (e : CmdError) (win : Window) (s : State) (h : PartsLegal s)
    (hs : s.snapshot.getD s.regs = s.regs) (he : e ≠ .rangeError) (hw : Inside s win) : (raiseError e win s).Inv := by
  obtain ⟨hcaps, hregs, hmem⟩ := h
  refine inv_of_idle _ ⟨?_, ?_, ?_⟩ ?_ ?_ ?_
  · rw [raiseError_cfg]; exact hcaps
  · rw [raiseError_cfg, raiseError_regs, hs]; exact hregs
  · exact havoc_memories _ win hmem (by cases win <;> exact hw)
  · rw [raiseError_status]; exact statusOk_failed e _ he
  · simp
  · simp

/-- Every command ends in a legal state (43_control.md R222, 60_exceptions.md R243). -/
theorem exec_legal (i : Instr) (s t : State) (hi : s.Inv) (h : exec i s = .next t) : t.Inv ∧ t.cfg = s.cfg := by
  have hp : PartsLegal (startOf i s) := by
    rw [startOf_eq]; exact ⟨hi.caps, hi.regs, hi.memories⟩
  obtain ⟨-, -, -, -, hmax⟩ := hp.1
  rcases exec_cases i s t h with ⟨u, hu, rfl⟩ | ⟨e, he, rfl⟩
  · obtain ⟨-, _, _, _, _, hk⟩ := bodyOf_footprint _ _ _ hu
    have hst : StatusOk u.status := by
      rw [hk, startOf_status]; exact hi.status
    refine ⟨inv_of_idle _ (bodyOf_legal i _ u hp hu) (statusOk_completed _ hst) rfl rfl, ?_⟩
    rw [completeCommand_cfg, hk]
    exact startOf_cfg i s
  · have hr : e ≠ .rangeError := fun hr =>
      rangeError_notMem_mayRaise i (hr ▸ bodyOf_raises i _ hmax e he)
    refine ⟨raiseError_legal e _ _ hp ?_ hr ?_, ?_⟩
    · rw [startOf_snapshot, startOf_regs, snapshot_getD_of_inv s hi]
    · rw [startOf_eq]; exact errorWindow_inside i s
    · rw [raiseError_cfg, startOf_cfg]

theorem engineTurn_legal (s t : State) (hi : s.Inv) (h : engineTurn s = .next t) : t.Inv ∧ t.cfg = s.cfg := by
  unfold engineTurn at h
  split at h
  · split at h
    · exact exec_legal _ s t hi h
    · cases h
      exact ⟨raiseError_legal _ _ s ⟨hi.caps, hi.regs, hi.memories⟩ (snapshot_getD_of_inv s hi) (by decide) trivial,
        raiseError_cfg _ _ s⟩
  · cases h; exact ⟨hi, rfl⟩

/-! ## The host's turn -/

theorem writeStatus_legal (v : Word) (s : State) (hi : s.Inv) : (writeStatus v s).Inv := by
  obtain ⟨h₀, h₁, hb⟩ := hi.status
  refine ⟨hi.caps, hi.regs, ⟨h₀, h₁, fun h => ?_⟩, hi.memories, hi.snapshot, hi.frame⟩
  obtain ⟨hd, he⟩ := hb h
  exact ⟨by rw [writeStatus_status, w1c_done, hd]; rfl, he⟩

theorem writeReg_legal (r : RegName) (v : Word) (s : State) (hi : s.Inv) :
    (writeReg r v s).Inv ∧ (writeReg r v s).cfg = s.cfg := by
  unfold writeReg
  split
  · unfold writeCtrl
    split
    · exact reset_legal s _ hi
    · exact ⟨⟨hi.caps, hi.regs, hi.status, hi.memories, hi.snapshot, hi.frame⟩, rfl⟩
  · exact ⟨writeStatus_legal v s hi, rfl⟩
  · unfold writeCmd
    split
    · exact ⟨⟨hi.caps, hi.regs, hi.status, hi.memories, hi.snapshot, hi.frame⟩, rfl⟩
    · exact ⟨accept_legal s v hi, rfl⟩
  · split
    · exact ⟨hi, rfl⟩
    · rename_i hb
      exact ⟨idle_legal s _ hi (by simpa using hb) (writeIdleReg_legal r v s hi), rfl⟩

theorem writeWindow_legal (off : Nat) (v : Word) (s : State) (hi : s.Inv) :
    (writeWindow off v s).Inv ∧ (writeWindow off v s).cfg = s.cfg := by
  unfold writeWindow
  split
  · exact writeReg_legal _ v s hi
  · exact ⟨hi, rfl⟩

/-- A register read changes the model's read port and its counter only. -/
theorem readWindow_legal (off : Nat) (s : State) (hi : s.Inv) :
    (readWindow off s).Inv ∧ (readWindow off s).cfg = s.cfg := by
  unfold readWindow
  split
  · unfold readReg
    split <;> exact ⟨inv_of_ownFields s _ _ _ hi, rfl⟩
  · exact ⟨inv_of_ownFields s _ _ _ hi, rfl⟩

theorem memoryRead_legal (cap a : Nat) (v : Word) (free : Option Word) (s t : State) (hi : s.Inv)
    (h : memoryRead cap a v free s = .next t) : t.Inv ∧ t.cfg = s.cfg := by
  unfold memoryRead at h
  split at h
  · cases h
  · split at h <;> cases h <;> exact ⟨inv_of_ownFields s _ _ _ hi, rfl⟩

theorem memoryWrite_next (cap a : Nat) (s t u : State) (h : memoryWrite cap a s t = .next u) :
    a < cap ∧ s.status.busy = false ∧ u = t := by
  unfold memoryWrite at h
  split at h
  · cases h
  · split at h
    · cases h
    · rename_i ha hb
      cases h
      exact ⟨by omega, by simpa using hb, rfl⟩

/-- Replacing the memories of a legal state by canonical ones within their capacities leaves it legal. -/
theorem inv_of_memories (s : State) (i o : Memory Byte) (p : Memory Pixel) (hi : s.Inv)
    (hm : MemoriesOk { s with inMem := i, outMem := o, pixMem := p }) :
    ({ s with inMem := i, outMem := o, pixMem := p } : State).Inv :=
  ⟨hi.caps, hi.regs, hi.status, hm, hi.snapshot, hi.frame⟩

theorem insert_legal {α : Type} (m : Memory α) (cap a : Nat) (x : α) (ha : a < cap)
    (h : m.wf = true ∧ m.within cap = true) : (m.insert a x).wf = true ∧ (m.insert a x).within cap = true :=
  ⟨wf_insert m a x h.1, within_insert m a cap x ha h.2⟩

theorem hostAccess_legal (a : HostAccess) (s t : State) (hi : s.Inv) (h : hostAccess a s = .next t) :
    t.Inv ∧ t.cfg = s.cfg := by
  obtain ⟨hin, hout, hpix⟩ := hi.memories
  cases a with
  | regWrite off bytes v =>
    simp only [hostAccess] at h
    split at h <;> cases h
    exact writeWindow_legal off v s hi
  | regRead off bytes =>
    simp only [hostAccess] at h
    split at h <;> cases h
    exact readWindow_legal off s hi
  | inWrite k b =>
    obtain ⟨hk, -, rfl⟩ := memoryWrite_next _ _ _ _ _ h
    exact ⟨inv_of_memories s _ _ _ hi ⟨insert_legal _ _ k b hk hin, hout, hpix⟩, rfl⟩
  | outWrite k b =>
    obtain ⟨hk, -, rfl⟩ := memoryWrite_next _ _ _ _ _ h
    exact ⟨inv_of_memories s _ _ _ hi ⟨hin, insert_legal _ _ k b hk hout, hpix⟩, rfl⟩
  | pixWrite k p =>
    obtain ⟨hk, -, rfl⟩ := memoryWrite_next _ _ _ _ _ h
    exact ⟨inv_of_memories s _ _ _ hi ⟨hin, hout, insert_legal _ _ k p hk hpix⟩, rfl⟩
  | inRead k => exact memoryRead_legal _ _ _ _ s t hi h
  | outRead k => exact memoryRead_legal _ _ _ _ s t hi h
  | pixRead k => exact memoryRead_legal _ _ _ _ s t hi h
  | hwReset => cases h; exact reset_legal s false hi

/-! ## One step -/

theorem takeTurn_legal (a : Turn) (s t : State) (hi : s.Inv) (h : takeTurn a s = .next t) : t.Inv ∧ t.cfg = s.cfg := by
  cases a with
  | engine => exact engineTurn_legal s t hi h
  | host a => exact hostAccess_legal a s t hi h

/-- Settles O60: whoever moves, the engine or the host, a legal state stays legal. -/
theorem stepKeepsStatesLegal : Obligations.StepKeepsStatesLegal := by
  intro s t hi h
  unfold step at h
  cases hag : s.agenda with
  | nil =>
    rw [hag] at h
    exact engineTurn_legal s t hi h
  | cons a rest =>
    rw [hag] at h
    exact takeTurn_legal a { s with agenda := rest } t (inv_of_ownFields s rest _ _ hi) h

end Sys2Proof.Machine
end

section
/-! SUPPORT. What a command leaves unchanged, stores and depends on (10_state.md R34, R42 to R44): O12, O13, O14. -/

namespace Sys2Proof.Machine

open Sys2Proof

/-! ## What no command changes -/

/-- Settles O12: by the footprint of the pseudocode at completion, by the roll back at an error. -/
theorem commandsKeepTheRest : Obligations.CommandsKeepTheRest := by
  intro i s t h
  have hdrop : (startOf i s).status.drop = s.status.drop := by rw [startOf_status]
  rcases exec_cases i s t h with ⟨u, hu, rfl⟩ | ⟨e, -, rfl⟩
  · obtain ⟨-, _, _, _, _, rfl⟩ := bodyOf_footprint _ _ _ hu
    simp [hdrop]
  · simp [hdrop]

/-! ## What a successful command stores -/

/-- From `s` to `t` only bytes of OUT_MEM that satisfy `out` and elements of PIX_MEM that satisfy `pix` change. -/
def StoresOnly (out pix : Nat → Prop) (s t : State) : Prop :=
  (∀ a, t.outByte a ≠ s.outByte a → out a) ∧ ∀ j, t.pixel j ≠ s.pixel j → pix j

theorem StoresOnly.of_decodes {pix : Nat → Prop} {s t : State} (h : Decodes s t)
    (hp : ∀ j, t.pixel j ≠ s.pixel j → pix j) : StoresOnly (fun _ => False) pix s t := by
  obtain ⟨_, _, _, _, _, _, rfl⟩ := h
  exact ⟨fun _ ha => ha rfl, hp⟩

theorem StoresOnly.of_encodes {out : Nat → Prop} {s t : State} (h : Encodes s t)
    (ho : ∀ a, t.outByte a ≠ s.outByte a → out a) : StoresOnly out (fun _ => False) s t := by
  obtain ⟨_, _, _, _, _, _, rfl⟩ := h
  exact ⟨ho, fun _ hj => hj rfl⟩

theorem storesOnly_nothing {s t : State} (ho : t.outMem = s.outMem) (hp : t.pixMem = s.pixMem) :
    StoresOnly (fun _ => False) (fun _ => False) s t := by
  constructor
  · intro a ha
    exact ha (by rw [State.outByte, ho]; rfl)
  · intro j hj
    exact hj (by rw [State.pixel, hp]; rfl)

theorem vleDec_storesOnly (s u : State) (h : bodyOf .vleDec s = .ok u) :
    StoresOnly (fun _ => False) (fun _ => False) s u := by
  simp only [bodyOf] at h
  split at h
  · rename_i v t ht
    cases h
    obtain ⟨_, _, _, rfl⟩ := vleDecode_reads _ _ _ ht
    exact storesOnly_nothing rfl rfl
  · cases h

theorem fcParseBody_storesOnly (shape tclip : Bool) (s u : State) (h : fcParseBody shape tclip s = .ok u) :
    StoresOnly (fun _ => False) (fun _ => False) s u := by
  obtain ⟨hd, -, rfl⟩ := fcParseBody_ok _ _ _ _ h
  exact storesOnly_nothing rfl rfl

/-- Nibbles appended with room are stored from WR_POS before to WR_POS after (20_memory.md R67, R68). -/
theorem appendNibbles_storesOnly (ns : List Nibble) (s : State) (hc : s.cfg.outCap < 2 ^ 32) (hr : RoomFor ns s) :
    StoresOnly (fun a => s.regs.wrPos.toNat ≤ a ∧ a < (appendNibbles ns s).regs.wrPos.toNat) (fun _ => False)
      s (appendNibbles ns s) :=
  .of_encodes ⟨_, _, _, _, _, _, rfl⟩ (appendNibbles_outByte_frame ns s hc hr)

theorem rdcEncodeBody_storesOnly (s u : State) (hw : WriteCursorOk s.regs) (hc : s.cfg.outCap < 2 ^ 32)
    (h : rdcEncodeBody s = .ok u) :
    StoresOnly (fun a => s.regs.wrPos.toNat ≤ a ∧ a < u.regs.wrPos.toNat) (fun _ => False) s u := by
  obtain ⟨-, ns, p, n, hr, rfl⟩ := rdcEnc_outcome _ _ hw hc h
  exact appendNibbles_storesOnly ns s hc hr

theorem rdcEncodeBody_wrPos_le (s u : State) (hw : WriteCursorOk s.regs) (hc : s.cfg.outCap < 2 ^ 32)
    (h : rdcEncodeBody s = .ok u) : s.regs.wrPos.toNat ≤ u.regs.wrPos.toNat := by
  obtain ⟨-, ns, p, n, hr, rfl⟩ := rdcEnc_outcome _ _ hw hc h
  show _ ≤ (appendNibbles ns s).regs.wrPos.toNat
  rw [appendNibbles_wrPos ns s hc hr]
  exact Nat.le_add_right _ _

/-- FC.WRITE stores the 20 header bytes (42_frame.md R191). -/
theorem writeHeaderBody_storesOnly (s u : State) (h : writeHeaderBody s = .ok u) :
    StoresOnly (fun a => a < 20) (fun _ => False) s u := by
  refine .of_encodes (writeHeaderBody_writes _ _ h).encodes fun a ha => ?_
  obtain ⟨-, -, rfl⟩ := fcWrite_outcome _ _ h
  by_contra hge
  exact ha (writtenHeader_outByte_frame s a (by omega))

/-- FRAME.ENC stores the header, and its codes from there on (42_frame.md R196). -/
theorem frameEncBody_storesOnly (s u : State) (hc : s.cfg.outCap < 2 ^ 32) (h : frameEncBody s = .ok u) :
    StoresOnly (fun a => a < u.regs.wrPos.toNat) (fun _ => False) s u := by
  obtain ⟨w, hw, hu⟩ := frameEncBody_ok _ _ h
  have hhead := writeHeaderBody_storesOnly _ _ hw
  obtain ⟨hpos, hcfg, hcursor⟩ : w.regs.wrPos = 20 ∧ w.cfg = s.cfg ∧ WriteCursorOk (setNpixFromHeader w).regs := by
    obtain ⟨-, -, rfl⟩ := fcWrite_outcome _ _ hw
    exact ⟨rfl, rfl, writtenHeader_cursorOk s⟩
  have hc' : (setNpixFromHeader w).cfg.outCap < 2 ^ 32 := by rw [setNpixFromHeader_cfg, hcfg]; exact hc
  have hbody := rdcEncodeBody_storesOnly _ _ hcursor hc' hu
  have hle : 20 ≤ u.regs.wrPos.toNat := by
    have := rdcEncodeBody_wrPos_le _ _ hcursor hc' hu
    rw [setNpixFromHeader_regs, hpos] at this
    exact this
  refine ⟨fun a ha => ?_, fun j hj => ?_⟩
  · by_cases hsame : u.outByte a = w.outByte a
    · have : a < 20 := hhead.1 a fun he => ha (hsame.trans he)
      exact lt_of_lt_of_le this hle
    · exact (hbody.1 a hsame).2
  · by_cases hsame : u.pixel j = w.pixel j
    · exact hhead.2 j fun he => hj (hsame.trans he)
    · exact hbody.2 j hsame

/-- A decoded frame fills elements below NPIX (41_rundelta.md R155). -/
theorem rdcDecodeBody_storesOnly (s u : State) (hr : ReadCursorOk s.regs) (h : rdcDecodeBody s = .ok u) :
    StoresOnly (fun _ => False) (fun j => j < u.regs.npix.toNat) s u := by
  refine .of_decodes (rdcDecodeBody_decodes _ _ h) fun j hj => ?_
  have hnpix : u.regs.npix = s.regs.npix := by
    obtain ⟨_, _, _, _, _, _, rfl⟩ := rdcDecodeBody_decodes _ _ h
    rfl
  obtain ⟨-, ps, c, rest, p, hlen, -, rfl⟩ := rdcDec_outcome _ _ hr h
  by_contra hge
  refine hj ?_
  rw [afterPixels_pixel_frame ps p _ (by rw [advanceRead_pixcnt]; rfl) j (by rw [hlen, ← hnpix]; omega), State.pixel,
    advanceRead_pixMem]
  rfl

theorem frameDecBody_storesOnly (shape tclip : Bool) (s u : State) (h : frameDecBody shape tclip s = .ok u) :
    StoresOnly (fun _ => False) (fun j => j < u.regs.npix.toNat) s u := by
  obtain ⟨hd, w, -, hw, rfl⟩ := frameDecBody_ok _ _ _ _ h
  exact rdcDecodeBody_storesOnly (setNpixFromHeader (setHeader hd s)) w (setHeader_cursorOk hd s) hw

/-- Settles O13: an error is excluded, so the command's pseudocode reached its end, and each stores as its rule says. -/
theorem commandsStoreOnlyTheirOutput : Obligations.CommandsStoreOnlyTheirOutput := by
  intro i s t hi _ h hok
  obtain ⟨hr, hw, -⟩ := hi.regs
  obtain ⟨-, -, hc, -⟩ := hi.caps
  rcases exec_cases i s t h with ⟨u, hu, rfl⟩ | ⟨e, -, rfl⟩
  · cases i with
    | nop => cases hu; exact storesOnly_nothing rfl rfl
    | vleDec => exact vleDec_storesOnly s u hu
    | vleEnc =>
      obtain ⟨ns, hroom, rfl⟩ := vleEnc_outcome _ s u hw hc hu
      exact appendNibbles_storesOnly ns s hc hroom
    | vleFlush =>
      obtain ⟨ns, hroom, rfl⟩ := flush_outcome s u hw hu
      exact appendNibbles_storesOnly ns s hc hroom
    | zzEnc => cases hu; exact storesOnly_nothing rfl rfl
    | zzDec => cases hu; exact storesOnly_nothing rfl rfl
    | rdcDec =>
      obtain ⟨w, hw', rfl⟩ := markFrame_ok _ _ hu
      exact rdcDecodeBody_storesOnly (clearFrameValid s) w hr hw'
    | rdcEnc => exact rdcEncodeBody_storesOnly s u hw hc hu
    | fcParseBin => exact fcParseBody_storesOnly _ _ s u hu
    | fcParseText => exact fcParseBody_storesOnly _ _ s u hu
    | fcParseTextClip => exact fcParseBody_storesOnly _ _ s u hu
    | fcWrite => exact writeHeaderBody_storesOnly s u hu
    | frameDecBin => exact frameDecBody_storesOnly _ _ (clearFrameValid s) u hu
    | frameDecText => exact frameDecBody_storesOnly _ _ (clearFrameValid s) u hu
    | frameDecTextClip => exact frameDecBody_storesOnly _ _ (clearFrameValid s) u hu
    | frameEnc => exact frameEncBody_storesOnly s u hc hu
  · rw [raiseError_status] at hok
    cases hok

/-! ## What a command depends on -/

/-- `g` stores the same bytes into whatever memory it is given: after it a byte is the same in both, or untouched in both. -/
def SameStores (g : Memory Byte → Memory Byte) : Prop :=
  ∀ (o o' : Memory Byte) (a : Nat), (g o).lookup a = (g o').lookup a ∨
    ((g o).lookup a = o.lookup a ∧ (g o').lookup a = o'.lookup a)

theorem sameStores_id : SameStores id := fun _ _ _ => .inr ⟨rfl, rfl⟩

theorem sameStores_storeAll (ws : List (Nat × Byte)) : SameStores (storeAll ws) := lookup_storeAll ws

theorem sameStores_fill (lo n : Nat) (f : Nat → Byte) : SameStores (fun o => o.fill lo n f) := by
  intro o o' a
  rw [lookup_fill, lookup_fill]
  by_cases ha : lo ≤ a ∧ a < lo + n
  · exact .inl (by rw [if_pos ha, if_pos ha])
  · exact .inr ⟨if_neg ha, if_neg ha⟩

theorem raiseError_swapped (m o : Memory Byte) (e : CmdError) (win : Window) (s : State) :
    ∃ g, SameStores g ∧ (raiseError e win s).outMem = g s.outMem ∧
      raiseError e win (swapped m o s) = swapped m (g o) (raiseError e win s) := by
  cases win with
  | none => exact ⟨id, sameStores_id, rfl, rfl⟩
  | pix n => exact ⟨id, sameStores_id, rfl, rfl⟩
  | out lo n => exact ⟨_, sameStores_fill lo n (Config.freeByte s.freeCtr), rfl, rfl⟩

/-- With another OUT_MEM, and an IN_MEM that agrees below IN_LEN, a command ends in the same state but for these two
memories: IN_MEM unchanged, and the same stores into OUT_MEM. -/
theorem exec_swapped (i : Instr) (s : State) (m o : Memory Byte) (h : AgreesIn m s) :
    ∃ t g, exec i s = .next t ∧ SameStores g ∧ t.outMem = g s.outMem ∧
      exec i (swapped m o s) = .next (swapped m (g o) t) := by
  have hs : AgreesIn m (startOf i s) := by rw [startOf_eq]; exact h
  have key : exec i (swapped m o s) = finishCommand (errorWindow i s) (swapped m o (startOf i s))
      (bodyOf i (swapped m o (startOf i s))) := by
    rw [exec_eq, errorWindow_swapped m o i s h, startOf_swapped]
  rw [exec_eq i s, key, ← startOf_outMem i s]
  rcases bodyOf_twin m o i (startOf i s) hs with ⟨e, h₁, h₂⟩ | ⟨u, ws, h₁, h₂, hst⟩
  · rw [h₁, h₂]
    obtain ⟨g, hg, hout, hraise⟩ := raiseError_swapped m o e (errorWindow i s) (startOf i s)
    exact ⟨_, g, rfl, hg, hout, congrArg _ hraise⟩
  · rw [h₁, h₂]
    exact ⟨_, storeAll ws, rfl, sameStores_storeAll ws, hst, rfl⟩

theorem exec_inMem (i : Instr) (s t : State) (h : exec i s = .next t) : t.inMem = s.inMem :=
  (commandsKeepTheRest i s t h).1

/-- Settles O14: both runs make the same stores, by `exec_swapped` with one of the two memories left as it is. -/
theorem commandsReadOnlyValidInput : Obligations.CommandsReadOnlyValidInput := by
  constructor
  · intro i s m
    obtain ⟨t, g, ht, hg, hout, hm⟩ := exec_swapped i s s.inMem m fun _ _ => rfl
    refine ⟨t, g m, ht, ?_, fun a => ?_⟩
    · have hsame : swapped s.inMem (g m) t = { t with outMem := g m } := by rw [← exec_inMem i s t ht]; rfl
      exact hm.trans (congrArg _ hsame)
    · rw [hout]
      exact hg s.outMem m a
  · intro i s m h
    obtain ⟨t, g, ht, -, hout, hm⟩ := exec_swapped i s m s.outMem h
    refine ⟨t, ht, ?_⟩
    rw [← hout] at hm
    exact hm

end Sys2Proof.Machine
end

section
/-! SUPPORT. Host accesses to the register window and to the memories (10_state.md R20 to R44): O44 to O49, O57. -/

namespace Sys2Proof.Machine

open Sys2Proof

/-! ## The layout of STATUS -/

theorem toWord_toNat (t : Status) : t.toWord.toNat = t.busy.toNat + 2 * t.done.toNat + 4 * t.err.toNat +
    8 * t.frameValid.toNat + 16 * t.drop.toNat + 256 * t.errcode.toNat := by
  have hb := t.busy.toNat_le
  have hd := t.done.toNat_le
  have he := t.err.toNat_le
  have hf := t.frameValid.toNat_le
  have hp := t.drop.toNat_le
  have hc := t.errcode.isLt
  rw [Status.toWord, BitVec.toNat_ofNat, Nat.mod_eq_of_lt (by omega)]

theorem getLsbD_of_digit (w : Word) (k : Nat) (b : Bool) (h : w.toNat / 2 ^ k % 2 = b.toNat) : w.getLsbD k = b := by
  rw [BitVec.getLsbD, Nat.testBit_eq_decide_div_mod_eq, h]
  cases b <;> rfl

theorem extractLsb'_of_digits {n : Nat} (w : Word) (k : Nat) (x : BitVec n) (h : w.toNat / 2 ^ k % 2 ^ n = x.toNat) :
    w.extractLsb' k n = x := by
  apply BitVec.eq_of_toNat_eq
  rw [BitVec.extractLsb'_toNat, Nat.shiftRight_eq_div_pow, h]

/-- Settles O44: each field is the digits of STATUS, read as a number, at the field's place. -/
theorem statusLayout : Obligations.StatusLayout := by
  intro t
  have hw := toWord_toNat t
  have hb := t.busy.toNat_le
  have hd := t.done.toNat_le
  have he := t.err.toNat_le
  have hf := t.frameValid.toNat_le
  have hp := t.drop.toNat_le
  have hc := t.errcode.isLt
  refine ⟨⟨?_, ?_, ?_, ?_, ?_⟩, ?_, ?_, ?_⟩
  · exact getLsbD_of_digit _ _ _ (by rw [hw]; omega)
  · exact getLsbD_of_digit _ _ _ (by rw [hw]; omega)
  · exact getLsbD_of_digit _ _ _ (by rw [hw]; omega)
  · exact getLsbD_of_digit _ _ _ (by rw [hw]; omega)
  · exact getLsbD_of_digit _ _ _ (by rw [hw]; omega)
  · exact extractLsb'_of_digits _ _ _ (by rw [hw]; omega)
  · exact extractLsb'_of_digits _ _ _ (by rw [hw]; show _ = 0; omega)
  · exact extractLsb'_of_digits _ _ _ (by rw [hw]; show _ = 0; omega)

/-! ## Register writes -/

/-- A host write at a register's offset is the write of that register (10_state.md R20). -/
theorem hostAccess_regWrite (r : RegName) (v : Word) (s : State) :
    hostAccess (.regWrite r.offset 4 v) s = .next (writeReg r v s) := by
  cases r <;> rfl

/-- A host write of a register other than CTRL, STATUS and CMD while idle (43_control.md R226). -/
theorem hostAccess_idleWrite (r : RegName) (v : Word) (s : State) (hr : r ∉ [RegName.ctrl, .status, .cmd])
    (hb : s.status.busy = false) :
    hostAccess (.regWrite r.offset 4 v) s = .next { s with regs := writeIdleReg r v s } := by
  have hw : writeReg r v s = if s.status.busy then s else { s with regs := writeIdleReg r v s } := by
    cases r
    case ctrl | status | cmd => exact absurd (by decide) hr
    all_goals rfl
  rw [hostAccess_regWrite, hw, hb]
  rfl

/-- Settles O45: neither write looks at BUSY. -/
theorem ctrlAndStatusWrites : Obligations.CtrlAndStatusWrites := by
  intro s v
  refine ⟨fun hv => ?_, hostAccess_regWrite .status v s⟩
  have hctrl : writeReg .ctrl v s = { s with ie := v.getLsbD 0 } := by
    rw [writeReg, writeCtrl, hv]
    rfl
  exact (hostAccess_regWrite .ctrl v s).trans (congrArg _ hctrl)

/-- Settles O46. -/
theorem cursorWritesEmptyTheCursor : Obligations.CursorWritesEmptyTheCursor := fun s v hb =>
  ⟨hostAccess_idleWrite .rdPos v s (by decide) hb, hostAccess_idleWrite .wrPos v s (by decide) hb⟩

/-- Settles O47: IN_CAP is below 2^32, so the clamped value is a word. -/
theorem inLenClamps : Obligations.InLenClamps := by
  intro s v hi hb
  refine ⟨_, hostAccess_idleWrite .inLen v s (by decide) hb, ?_⟩
  have hmin : min v.toNat s.cfg.inCap ≤ v.toNat := Nat.min_le_left _ _
  rw [BitVec.toNat_ofNat, Nat.mod_eq_of_lt (lt_of_le_of_lt hmin v.isLt)]

/-- Settles O48. -/
theorem idleRegisterWrites : Obligations.IdleRegisterWrites := fun s v hb =>
  ⟨hostAccess_idleWrite .val v s (by decide) hb, hostAccess_idleWrite .npix v s (by decide) hb,
    hostAccess_idleWrite .width v s (by decide) hb, hostAccess_idleWrite .height v s (by decide) hb,
    hostAccess_idleWrite .near v s (by decide) hb, hostAccess_idleWrite .far v s (by decide) hb,
    hostAccess_idleWrite .hdr v s (by decide) hb⟩

/-! ## Offsets without effect -/

/-- A host write of a read-only register changes nothing, busy or not (10_state.md R20). -/
theorem hostAccess_readOnlyWrite (r : RegName) (v : Word) (s : State)
    (hr : r ∈ [RegName.pixcnt, .prev, .rdAcc, .rdNib, .wrAcc, .wrNib, .payloadOff]) :
    hostAccess (.regWrite r.offset 4 v) s = .next s := by
  have hw : writeReg r v s = if s.status.busy then s else s := by
    simp only [List.mem_cons, List.not_mem_nil, or_false] at hr
    rcases hr with rfl | rfl | rfl | rfl | rfl | rfl | rfl <;> rfl
  rw [hostAccess_regWrite, hw, ite_self]

theorem offset_le (r : RegName) : r.offset ≤ 0x4C := by cases r <;> decide

/-- No register stands past PAYLOAD_OFF (10_state.md R20). -/
theorem regAt_reserved (off : Nat) (h : 0x50 ≤ off) : regAt off = none := by
  rw [regAt, List.find?_eq_none]
  intro r _
  have := offset_le r
  simp only [beq_iff_eq]
  omega

theorem goodAccess_aligned (off : Nat) (h4 : off % 4 = 0) (h : off ≤ 0xFC) : goodAccess off 4 = true := by
  rw [goodAccess, decide_eq_true_eq]
  omega

/-- Settles O49: a read-only register stays, and no register stands at a reserved offset. -/
theorem reservedAndReadOnlyOffsets : Obligations.ReservedAndReadOnlyOffsets := by
  intro s v off h4
  refine ⟨?_, fun hlo hhi => ?_⟩
  · rintro (hro | ⟨hlo, hhi⟩)
    · obtain ⟨r, hr, rfl⟩ :
          ∃ r ∈ [RegName.pixcnt, .prev, .rdAcc, .rdNib, .wrAcc, .wrNib, .payloadOff], r.offset = off :=
        List.mem_map.1 hro
      exact hostAccess_readOnlyWrite r v s hr
    · rw [hostAccess, goodAccess_aligned off h4 hhi, writeWindow, regAt_reserved off hlo]
      rfl
  · rw [hostAccess, goodAccess_aligned off h4 hhi, readWindow, regAt_reserved off hlo]
    rfl

/-! ## The memory port -/

theorem memoryWrite_idle (cap a : Nat) (s t : State) (ha : a < cap) (hb : s.status.busy = false) :
    memoryWrite cap a s t = .next t := by
  rw [memoryWrite, if_neg (by omega), hb]
  rfl

/-- A memory read that returns the place read: the block is idle, or the memory is IN_MEM (43_control.md R229 (d)). -/
theorem memoryRead_place (cap a : Nat) (v : Word) (free : Option Word) (s : State) (ha : a < cap)
    (h : s.status.busy = false ∨ free = none) : memoryRead cap a v free s = .next { s with readData := some v } := by
  unfold memoryRead
  rw [if_neg (by omega)]
  rcases h with hb | rfl
  · rw [hb]; rfl
  · cases s.status.busy <;> rfl

/-- A memory read while BUSY that returns a fresh free value (43_control.md R229 (b)). -/
theorem memoryRead_free (cap a : Nat) (v u : Word) (s : State) (ha : a < cap) (hb : s.status.busy = true) :
    memoryRead cap a v (some u) s = .next { s with readData := some u, freeCtr := s.freeCtr + 1 } := by
  unfold memoryRead
  rw [if_neg (by omega), hb]

/-- What a place reads as, `d` being what power-on left there, after one write. -/
theorem getD_lookup_insert {α : Type} (m : Memory α) (a c : Nat) (x d : α) :
    ((m.insert a x).lookup c).getD d = if c = a then x else (m.lookup c).getD d := by
  rw [lookup_insert]
  split <;> rfl

/-- Settles O57: by the memory port's two rules for a write and for a read. -/
theorem hostMemoryAccesses : Obligations.HostMemoryAccesses := by
  constructor
  · intro s a b p hb
    exact ⟨fun ha => ⟨_, memoryWrite_idle _ _ _ _ ha hb, fun c => getD_lookup_insert s.inMem a c b _⟩,
      fun ha => ⟨_, memoryWrite_idle _ _ _ _ ha hb, fun c => getD_lookup_insert s.outMem a c b _⟩,
      fun ha => ⟨_, memoryWrite_idle _ _ _ _ ha hb, fun c => getD_lookup_insert s.pixMem a c p _⟩⟩
  · intro s a
    exact ⟨fun ha => memoryRead_place _ _ _ _ s ha (.inr rfl), fun ha hb => memoryRead_place _ _ _ _ s ha (.inl hb),
      fun ha hb => memoryRead_place _ _ _ _ s ha (.inl hb), fun ha hb => memoryRead_free _ _ _ _ s ha hb,
      fun ha hb => memoryRead_free _ _ _ _ s ha hb⟩

end Sys2Proof.Machine
end

section
/-! SUPPORT. Words in the byte memories, the flush of the write cursor and the turns a step refuses (20_memory.md R61, R68,
R75; 43_control.md R229): O16, O21, O56. -/

namespace Sys2Proof.Machine

open Sys2Proof

/-! ## VLE.FLUSH -/

/-- On a write cursor that is not empty the padding is what its word lacks (20_memory.md R68). -/
theorem padding_nil_of_pending (r : Regs) (hw : WriteCursorOk r) (h0 : r.wrNib ≠ 0) :
    padding [] r = List.replicate (8 - r.wrNib.toNat) 0 := by
  have h7 := hw.1
  have hz : r.wrNib.toNat ≠ 0 := fun h => h0 (BitVec.eq_of_toNat_eq h)
  rw [padding, List.length_nil, Nat.add_zero, Nat.mod_eq_of_lt (by omega), Nat.mod_eq_of_lt (by omega)]

/-- Nibbles that complete exactly one word need the room of one word (20_memory.md R65). -/
theorem roomFor_of_oneWord (ns : List Nibble) (s : State) (h8 : s.regs.wrNib.toNat + ns.length = 8) :
    RoomFor ns s ↔ s.regs.wrPos.toNat + 4 ≤ s.cfg.outCap := by
  simp [RoomFor, h8]

/-- Settles O21: the empty cursor by the first line of FlushWord, the other two cases by `flushWord_spec`. -/
theorem vleFlushStoresTheWord : Obligations.VleFlushStoresTheWord := by
  intro s hi
  obtain ⟨-, hw, -⟩ := hi.regs
  have h7 := hw.1
  have hexec : exec .vleFlush s = finishCommand (outFromCursor s) s (flushWord s) := rfl
  obtain ⟨hfits, hfull⟩ := flushWord_spec s hw
  have hroom (h0 : s.regs.wrNib ≠ 0) : RoomFor (padding [] s.regs) s ↔ s.regs.wrPos.toNat + 4 ≤ s.cfg.outCap := by
    rw [padding_nil_of_pending s.regs hw h0]
    exact roomFor_of_oneWord _ s (by rw [List.length_replicate]; omega)
  rw [hexec]
  refine ⟨fun h0 => ?_, fun h0 hr => ?_, fun h0 hr => ?_⟩
  · rw [flushWord, if_pos h0]
    rfl
  · rw [hfits ((hroom h0).2 hr), padding_nil_of_pending s.regs hw h0]
    rfl
  · rw [hfull fun h => Nat.not_lt.2 ((hroom h0).1 h) hr]
    rfl

/-! ## The turns a step answers -/

/-- A command always comes to its end (43_control.md R222). -/
theorem exec_next (i : Instr) (s : State) : ∃ t, exec i s = .next t := by
  obtain ⟨t, ht, -⟩ := finishCommand_next (errorWindow i s) (startOf i s) (bodyOf i (startOf i s))
  exact ⟨t, (exec_eq i s).trans ht⟩

theorem engineTurn_next (s : State) : ∃ t, engineTurn s = .next t := by
  unfold engineTurn
  split
  · split
    · exact exec_next _ s
    · exact ⟨_, rfl⟩
  · exact ⟨s, rfl⟩

theorem memoryWrite_next_iff (cap a : Nat) (s t : State) :
    (∃ u, memoryWrite cap a s t = .next u) ↔ (decide (a < cap) && !s.status.busy) = true := by
  rw [Bool.and_eq_true, decide_eq_true_eq, Bool.not_eq_true']
  constructor
  · rintro ⟨u, hu⟩
    obtain ⟨ha, hb, -⟩ := memoryWrite_next cap a s t u hu
    exact ⟨ha, hb⟩
  · rintro ⟨ha, hb⟩
    exact ⟨t, memoryWrite_idle cap a s t ha hb⟩

theorem memoryRead_next_iff (cap a : Nat) (v : Word) (free : Option Word) (s : State) :
    (∃ t, memoryRead cap a v free s = .next t) ↔ decide (a < cap) = true := by
  rw [decide_eq_true_eq]
  unfold memoryRead
  by_cases ha : cap ≤ a
  · rw [if_pos ha]
    exact iff_of_false (fun ⟨_, h⟩ => nomatch h) (by omega)
  · rw [if_neg ha]
    refine iff_of_true ?_ (by omega)
    split
    · exact ⟨_, rfl⟩
    · exact ⟨_, rfl⟩

/-- An answer guarded by a check is a next state exactly when the check holds. -/
theorem next_or_refused_iff (c : Bool) (t : State) (r : Refusal) :
    (∃ u, (if c then Host.Outcome.next t else .refused r : Host.Outcome State Fault Refusal) = .next u) ↔ c = true := by
  cases c
  · exact iff_of_false (fun ⟨_, h⟩ => nomatch h) Bool.false_ne_true
  · exact iff_of_true ⟨t, rfl⟩ rfl

theorem hostAccess_next_iff (a : HostAccess) (s : State) :
    (∃ t, hostAccess a s = .next t) ↔ a.keepsContract s = true := by
  cases a with
  | regWrite off bytes v => exact next_or_refused_iff _ _ _
  | regRead off bytes => exact next_or_refused_iff _ _ _
  | inWrite k b => exact memoryWrite_next_iff _ _ _ _
  | outWrite k b => exact memoryWrite_next_iff _ _ _ _
  | pixWrite k p => exact memoryWrite_next_iff _ _ _ _
  | inRead k => exact memoryRead_next_iff _ _ _ _ _
  | outRead k => exact memoryRead_next_iff _ _ _ _ _
  | pixRead k => exact memoryRead_next_iff _ _ _ _ _
  | hwReset => exact iff_of_true ⟨_, rfl⟩ rfl

/-- The contract of an access does not look at the turns to come. -/
theorem keepsContract_agenda (a : HostAccess) (s : State) (l : List Turn) :
    a.keepsContract { s with agenda := l } = a.keepsContract s := by
  cases a <;> rfl

theorem step_next_iff (s : State) : (∃ t, step s = .next t) ↔ s.nextTurnLegal = true := by
  unfold step State.nextTurnLegal
  match s.agenda with
  | [] => exact iff_of_true (engineTurn_next s) rfl
  | .engine :: rest => exact iff_of_true (engineTurn_next _) rfl
  | .host a :: rest =>
    exact (hostAccess_next_iff a { s with agenda := rest }).trans (by rw [keepsContract_agenda])

theorem goodAccess_eq_false (off bytes : Nat) (h : ¬ (bytes = 4 ∧ off % 4 = 0 ∧ off < 256)) :
    goodAccess off bytes = false := decide_eq_false h

/-- A host write at an existing index while BUSY is refused (43_control.md R229 (a), (c)). -/
theorem memoryWrite_busy (cap a : Nat) (s t : State) (ha : a < cap) (hb : s.status.busy = true) :
    memoryWrite cap a s t = .refused .memoryWriteWhileBusy := by
  rw [memoryWrite, if_neg (Nat.not_le.2 ha), if_pos hb]

/-- Settles O56: the engine always answers, and the host as `hostAccess_next_iff` says. -/
theorem stepStopsOnlyOnBrokenContract : Obligations.StepStopsOnlyOnBrokenContract := by
  refine ⟨step_next_iff, fun s off bytes v h => ?_, fun s a b p hb => ?_⟩
  · rw [hostAccess, hostAccess, goodAccess_eq_false off bytes h]
    exact ⟨rfl, rfl⟩
  · exact ⟨fun ha => memoryWrite_busy _ _ _ _ ha hb, fun ha => memoryWrite_busy _ _ _ _ ha hb,
      fun ha => memoryWrite_busy _ _ _ _ ha hb⟩

/-! ## Words in the byte memories -/

/-- Settles O16: a word read by `inWord_toNat`, a word written by `outByte_putOutWord`. -/
theorem wordsAreLittleEndian : Obligations.WordsAreLittleEndian := by
  intro s a w
  refine ⟨inWord_toNat s a, fun i hi => ?_, fun c hc => ?_⟩
  · rw [outByte_putOutWord, if_pos (by omega), Nat.add_sub_cancel_left, BitVec.toNat_ofNat]
  · rw [outByte_putOutWord, if_neg (by omega)]

end Sys2Proof.Machine
end

section
/-! SUPPORT. The decoder against the encoder, and the words it rejects (30_encoding.md R90 to R93): O1, O2, O3. -/

namespace Sys2Proof.Machine

open Sys2Proof

/-- Settles O1: the words are the rows of the table the decoder compares with. -/
theorem commandWordsDecode : Obligations.CommandWordsDecode := by
  unfold Obligations.CommandWordsDecode
  decide

/-! ## Decode and encode -/

/-- Each row of the opcode map holds the word that the fields of its command make (30_encoding.md R90, R91). -/
theorem opcodeMap_word : ∀ row ∈ opcodeMap, row.1 = encode row.2 := by decide

/-- What `Laws.Legal` says of each constructor, for every command. -/
theorem legal_statement (i : Instr) : Laws.Legal.Statement i := by
  cases i
  exacts [Laws.Legal.nop, Laws.Legal.vleDec, Laws.Legal.vleEnc, Laws.Legal.vleFlush, Laws.Legal.zzEnc, Laws.Legal.zzDec,
    Laws.Legal.rdcDec, Laws.Legal.rdcEnc, Laws.Legal.fcParseBin, Laws.Legal.fcParseText, Laws.Legal.fcParseTextClip,
    Laws.Legal.fcWrite, Laws.Legal.frameDecBin, Laws.Legal.frameDecText, Laws.Legal.frameDecTextClip,
    Laws.Legal.frameEnc]

theorem decodeWord_encode (i : Instr) : decodeWord (encode i) = .ok i :=
  let ⟨_, _, h⟩ := legal_statement i
  h

theorem fieldsOf_encode (i : Instr) : fieldsOf (encode i) = i.fields :=
  let ⟨_, h, _⟩ := legal_statement i
  h

theorem decodeWord_ok_iff (w : Word) (i : Instr) : decodeWord w = .ok i ↔ w = encode i := by
  constructor
  · intro h
    unfold decodeWord at h
    split at h
    · rename_i row hrow
      cases h
      have hw : row.1 = w := by simpa using List.find?_some hrow
      rw [← hw]
      exact opcodeMap_word row (List.mem_of_find?_eq_some hrow)
    · cases h
  · rintro rfl
    exact decodeWord_encode i

/-- A field of a word and the one below it make one field. -/
theorem adjacent_fields (w : Word) (k m n : Nat) :
    w.extractLsb' (k + n) m ++ w.extractLsb' k n = w.extractLsb' k (m + n) :=
  BitVec.extractLsb'_append_extractLsb'_eq_extractLsb' rfl

/-- A word is put together again from its four bytes (20_memory.md R61). -/
theorem wordOfBytes_of_word (w : Word) :
    wordOfBytes (w.extractLsb' 0 8) (w.extractLsb' 8 8) (w.extractLsb' 16 8) (w.extractLsb' 24 8) = w := by
  rw [wordOfBytes, adjacent_fields w 16 8 8, adjacent_fields w 8 16 8, adjacent_fields w 0 24 8,
    BitVec.extractLsb'_eq_self]

theorem decode_bytesOfWord (w : Word) (i : Instr) (rest : List Byte) (h : decodeWord w = .ok i) :
    decode (bytesOfWord w ++ rest) = .ok (i, rest) := by
  rw [bytesOfWord, List.cons_append, List.cons_append, List.cons_append, List.cons_append, List.nil_append, decode,
    wordOfBytes_of_word, h]

/-- Settles O2: by word through the rows of the opcode map, by bytes through the word they make. -/
theorem decodeAndEncodeAgree : Obligations.DecodeAndEncodeAgree := fun i _ =>
  ⟨fun w => decodeWord_ok_iff w i, fun rest => decode_bytesOfWord (encode i) i rest (decodeWord_encode i)⟩

/-! ## Illegal words -/

/-- A word is made of its fields (30_encoding.md R90). -/
theorem toWord_fieldsOf (w : Word) : (fieldsOf w).toWord = w := by
  have bit (k : Nat) : BitVec.ofBool (w.getLsbD k) = w.extractLsb' k 1 := by
    apply BitVec.eq_of_getLsbD_eq
    intro i hi
    obtain rfl : i = 0 := by omega
    simp
  rw [CmdFields.toWord, fieldsOf, bit, bit]
  dsimp only
  rw [adjacent_fields w 0 1 8, adjacent_fields w 0 1 9, adjacent_fields w 0 22 10, BitVec.extractLsb'_eq_self]

/-- With an OP of the table and no reserved bit, legal SHAPE and TCLIP bits pick a row (30_encoding.md R91, R92). -/
theorem row_of_known_op : ∀ op ∈ knownOps, ∀ shape tclip, (CmdFields.mk op shape tclip 0).wellFormed = true →
    ∃ row ∈ opcodeMap, row.2.fields = CmdFields.mk op shape tclip 0 := by decide

theorem wellFormed_iff (f : CmdFields) : f.wellFormed = true ↔
    f.opKnown = true ∧ f.reservedZero = true ∧ f.shapeTaken = true ∧ f.clipHasShape = true := by
  simp only [CmdFields.wellFormed, Bool.and_eq_true, and_assoc]

theorem opKnown_iff (f : CmdFields) : f.opKnown = true ↔ f.op ∈ knownOps := List.contains_iff_mem

theorem reservedZero_iff (f : CmdFields) : f.reservedZero = true ↔ f.reserved = 0 := beq_iff_eq

/-- The third case of 30_encoding.md R93 is the failing of `shapeTaken`. -/
theorem shapeTaken_iff (f : CmdFields) : f.shapeTaken = true ↔
    ¬ ((f.shape = true ∨ f.tclip = true) ∧ f.op ∉ [0x20, 0x22]) := by
  rw [not_and_or, not_or, not_not]
  simp [CmdFields.shapeTaken, or_assoc]

/-- The fourth case of 30_encoding.md R93 is the failing of `clipHasShape`. -/
theorem clipHasShape_iff (f : CmdFields) : f.clipHasShape = true ↔ ¬ (f.shape = false ∧ f.tclip = true) := by
  obtain ⟨op, shape, tclip, reserved⟩ := f
  cases shape <;> cases tclip <;> simp [CmdFields.clipHasShape]

/-- Legal fields are exactly those of a command (30_encoding.md R91 to R93). -/
theorem wellFormed_iff_fields (f : CmdFields) : f.wellFormed = true ↔ ∃ i : Instr, i.fields = f := by
  constructor
  · intro h
    obtain ⟨hop, hres, -, -⟩ := (wellFormed_iff f).1 h
    obtain ⟨op, shape, tclip, reserved⟩ := f
    obtain rfl : reserved = 0 := (reservedZero_iff _).1 hres
    obtain ⟨row, -, hrow⟩ := row_of_known_op op ((opKnown_iff _).1 hop) shape tclip h
    exact ⟨row.2, hrow⟩
  · rintro ⟨i, rfl⟩
    exact (legal_statement i).1

/-- A word is a command's exactly when its fields are legal (30_encoding.md R93). -/
theorem wellFormed_iff_encode (w : Word) : (fieldsOf w).wellFormed = true ↔ ∃ i, w = encode i := by
  rw [wellFormed_iff_fields]
  constructor
  · rintro ⟨i, hi⟩
    exact ⟨i, by rw [encode, hi, toWord_fieldsOf]⟩
  · rintro ⟨i, rfl⟩
    exact ⟨i, (fieldsOf_encode i).symm⟩

theorem decodeWord_error_iff (w : Word) : (∃ e, decodeWord w = .error e) ↔ ¬ (fieldsOf w).wellFormed = true := by
  rw [wellFormed_iff_encode]
  cases hd : decodeWord w with
  | error e => exact iff_of_true ⟨e, rfl⟩ fun ⟨i, hi⟩ => nomatch hd.symm.trans ((decodeWord_ok_iff w i).2 hi)
  | ok i => exact iff_of_false (fun ⟨_, h⟩ => nomatch h) fun h => h ⟨i, (decodeWord_ok_iff w i).1 hd⟩

/-- Settles O3: each disjunct is one of the four checks of `CmdFields.wellFormed`, failing. -/
theorem illegalWordsAreRejected : Obligations.IllegalWordsAreRejected := by
  intro w
  rw [decodeWord_error_iff, wellFormed_iff, opKnown_iff, reservedZero_iff, shapeTaken_iff, clipHasShape_iff,
    not_and_or, not_and_or, not_and_or, not_not, not_not, or_left_comm]
  rfl

end Sys2Proof.Machine
end

section
/-! SUPPORT. The VLE commands on codes and the place of a nibble in OUT_MEM (30_encoding.md R98 to R102; 40_vlecoder.md
R130 to R133): O18, O19, O20, O22. -/

namespace Sys2Proof.Machine

open Sys2Proof

/-! ## VLE.ENC and VLE.DEC -/

/-- Settles O18: VLE.ENC ends as `vleEncode_spec` says. -/
theorem vleEncAppendsTheCode : Obligations.VleEncAppendsTheCode := by
  intro s hi
  obtain ⟨-, hw, -⟩ := hi.regs
  obtain ⟨-, -, hc, -⟩ := hi.caps
  have hexec : exec .vleEnc s = finishCommand (outFromCursor s) s (vleEncode s.regs.val s) := rfl
  obtain ⟨hfits, hfull⟩ := vleEncode_spec s.regs.val s hw hc
  rw [hexec]
  refine ⟨fun hr => ?_, fun hr => ?_⟩
  · rw [hfits hr]
    rfl
  · rw [hfull hr]
    rfl

/-- VLE.DEC of a stream that `VleDecode` cannot read (40_vlecoder.md R133). -/
theorem exec_vleDec_error (s : State) (e : CmdError) (h : vleDecode s = .error e) :
    exec .vleDec s = .next (raiseError e .none s) := by
  change execVleDec s = _
  rw [execVleDec, h]
  rfl

/-- Settles O19: by `vleDecode_code`. -/
theorem vleDecReadsTheCode : Obligations.VleDecReadsTheCode := by
  intro s c rest v hi hr hc
  obtain ⟨hs, -, -⟩ := hi.regs
  change execVleDec s = _
  rw [execVleDec, vleDecode_code c rest v s hs hr hc]
  rfl

/-- Settles O20: by `vleDecode_truncated` and `vleDecode_overflow`. -/
theorem vleDecReportsBadStreams : Obligations.VleDecReportsBadStreams := by
  intro s hi
  obtain ⟨hs, -, -⟩ := hi.regs
  exact ⟨fun hns hl => exec_vleDec_error s _ (vleDecode_truncated s hs hns hl),
    fun c rest hr hc => exec_vleDec_error s _ (vleDecode_overflow c rest s hs hr hc)⟩

/-! ## Nibbles in bytes -/

/-- Bits [7:4] of byte `i` of a word are its nibble 2i + 1 from the right (20_memory.md R61, R63). -/
theorem byteOfWord_high (w : Word) (i : Nat) :
    ((byteOfWord w i).extractLsb' 4 4).toNat = w.toNat / 16 ^ (2 * i + 1) % 16 := by
  have h16 : 16 ^ (2 * i + 1) = 2 ^ (8 * i) * 16 := by
    rw [pow_succ, pow_mul, pow_mul]
    norm_num
  rw [BitVec.extractLsb'_toNat, byteOfWord, BitVec.toNat_ofNat, Nat.shiftRight_eq_div_pow, h16,
    ← Nat.div_div_eq_div_mul]
  omega

/-- Bits [3:0] of byte `i` of a word are its nibble 2i from the right (20_memory.md R61, R63). -/
theorem byteOfWord_low (w : Word) (i : Nat) :
    ((byteOfWord w i).extractLsb' 0 4).toNat = w.toNat / 16 ^ (2 * i) % 16 := by
  have h16 : 16 ^ (2 * i) = 2 ^ (8 * i) := by
    rw [pow_mul, pow_mul]
    norm_num
  rw [BitVec.extractLsb'_toNat, byteOfWord, BitVec.toNat_ofNat, Nat.shiftRight_eq_div_pow, h16]
  omega

/-- Nibble `j` of a list stands in the whole word j div 8, as nibble j mod 8 from the left (30_encoding.md R102). -/
theorem wholeWords_digit (ns : List Nibble) (j : Nat) (h : j < ns.length) (hq : j / 8 < (wholeWords ns).length) :
    (wholeWords ns)[j / 8].toNat / 16 ^ (7 - j % 8) % 16 = ns[j].toNat := by
  have hlen : ((ns.drop (8 * (j / 8))).take 8).length = 8 := by
    rw [wholeWords_length] at hq
    rw [List.length_take, List.length_drop]
    omega
  have hword : (wholeWords ns)[j / 8] = nibblesWord ((ns.drop (8 * (j / 8))).take 8) := by
    simp only [wholeWords, List.getElem_map, List.getElem_range]
  have hj : 8 * (j / 8) + j % 8 = j := by omega
  rw [hword, nibblesWord_digit _ hlen (j % 8) (by omega), List.getElem_take, List.getElem_drop]
  simp only [hj]

/-- Settles O22: the byte is byte 3 - (j mod 8) div 2 of the word j div 8, by `appendNibbles_outByte`. -/
theorem nibblePacking : Obligations.NibblePacking := by
  intro s ns j h h0 hj
  have hq : j / 8 < (wholeWords ns).length := by rw [wholeWords_length]; omega
  have hdigit := wholeWords_digit ns j h hq
  have hbyte : (appendNibbles ns s).outByte (s.regs.wrPos.toNat + 4 * (j / 8) + 3 - j % 8 / 2) =
      byteOfWord (wholeWords ns)[j / 8] (3 - j % 8 / 2) := by
    have hdiv : (s.regs.wrPos.toNat + 4 * (j / 8) + 3 - j % 8 / 2 - s.regs.wrPos.toNat) / 4 = j / 8 := by omega
    have hmod : (s.regs.wrPos.toNat + 4 * (j / 8) + 3 - j % 8 / 2 - s.regs.wrPos.toNat) % 4 = 3 - j % 8 / 2 := by omega
    rw [appendNibbles_outByte s ns h0, dif_pos ⟨by omega, by omega⟩]
    simp only [hdiv, hmod]
  dsimp only
  rw [hbyte]
  apply BitVec.eq_of_toNat_eq
  by_cases hp : j % 2 = 0
  · rw [if_pos hp, byteOfWord_high, show 2 * (3 - j % 8 / 2) + 1 = 7 - j % 8 by omega, hdigit]
  · rw [if_neg hp, byteOfWord_low, show 2 * (3 - j % 8 / 2) = 7 - j % 8 by omega, hdigit]

end Sys2Proof.Machine
end

section
/-! SUPPORT. Float fields: their grammar and their rounding (30_encoding.md R109, 42_frame.md R183): O35, O36. -/

namespace Sys2Proof.Machine

open Sys2Proof

/-! ## The production flt -/

/-- What is read as a float is spelled by the production. -/
theorem isFlt_of_parseFlt (tok : List Byte) (d : Decimal) (h : parseFlt tok = some d) : IsFlt tok d := by
  rw [parseFlt_eq] at h
  dsimp only at h
  split at h
  · cases h
  · rename_i hdigits
    obtain ⟨e, he, rfl⟩ := Option.map_eq_some_iff.1 h
    obtain ⟨sg, htok, hsg⟩ := takeSign_spelled tok
    obtain ⟨man, hbody, hman⟩ := splitMantissa_spelled _ hdigits
    exact ⟨sg, man, _, _, _, e, by rw [List.append_assoc, ← hbody, ← htok], hsg, hman, (takeExponent_iff _ e).1 he,
      rfl, rfl⟩

/-- What the production spells is read as it is spelled: sign, mantissa and exponent are each taken whole. -/
theorem parseFlt_of_isFlt (tok : List Byte) (d : Decimal) (h : IsFlt tok d) : parseFlt tok = some d := by
  obtain ⟨sg, man, ints, fracs, ex, e, rfl, hsg, hman, hex, hmant, hexp⟩ := h
  obtain ⟨hdig, hpoint⟩ := isExponent_head ex e hex
  obtain ⟨hsplit, hne⟩ := splitMantissa_of man ints fracs ex hman hdig hpoint
  have hsign : takeSign (sg ++ (man ++ ex)) = (d.neg, man ++ ex) := by
    refine takeSign_of_sign sg _ _ hsg ?_
    obtain ⟨b, bs, rfl, hb⟩ := isMantissa_head man ints fracs hman
    rintro c cs hc
    cases hc
    exact hb
  rw [List.append_assoc, parseFlt_eq, hsign, hsplit]
  dsimp only
  rw [if_neg hne, (takeExponent_iff ex e).2 hex, Option.map_some, ← hmant, ← hexp]

/-- Settles O35: both directions of the reading. -/
theorem floatGrammar : Obligations.FloatGrammar := fun tok d =>
  ⟨isFlt_of_parseFlt tok d, parseFlt_of_isFlt tok d⟩

/-! ## Rounding -/

/-- Settles O36: the two early answers by `rounded_large` and `rounded_small`, the rest by `f32OfRatio_rounds`. -/
theorem decimalIsRoundedToEven : Obligations.DecimalIsRoundedToEven := by
  intro m e
  unfold f32OfDecimal
  by_cases h0 : m = 0
  · rw [if_pos h0, h0, Nat.cast_zero, zero_mul]
    exact rounded_zero
  rw [if_neg h0]
  by_cases hbig : 39 ≤ e
  · rw [if_pos hbig]
    exact rounded_large m e h0 hbig
  rw [if_neg hbig]
  by_cases hsmall : e + Nat.log2 m + 1 ≤ -46
  · rw [if_pos hsmall]
    exact rounded_small m e hsmall
  rw [if_neg hsmall, ratio_of_decimal m e]
  by_cases hpos : 0 ≤ e
  · rw [if_pos hpos, if_pos hpos]
    exact (f32OfRatio_rounds _ 1 Nat.one_pos).isRounded
  · rw [if_neg hpos, if_neg hpos]
    exact (f32OfRatio_rounds m _ (Nat.pow_pos (by norm_num))).isRounded

end Sys2Proof.Machine
end

section
/-! SUPPORT. The registers a command leaves, and a list of values written by VLE.ENC and read back by VLE.DEC
(40_vlecoder.md R132 to R135): O11, O23. -/

namespace Sys2Proof.Machine

open Sys2Proof

/-! ## The registers a command leaves -/

/-- STATUS aside, the window shows CTRL.IE and the registers, and nothing else of the state (10_state.md R20). -/
theorem regValue_congr {s t : State} {r : RegName} (hr : r ≠ .status) (hie : t.ie = s.ie) (hregs : t.regs = s.regs) :
    regValue r t = regValue r s := by
  cases r with
  | status => exact absurd rfl hr
  | ctrl => simp only [regValue, hie]
  | _ => simp only [regValue, hregs]

/-- Settles O11: by the footprint of the pseudocode at completion, by the roll back to the snapshot at an error. -/
theorem commandsKeepOtherRegisters : Obligations.CommandsKeepOtherRegisters := by
  intro i s t r hsnap h hw hr
  rcases exec_cases i s t h with ⟨u, hu, rfl⟩ | ⟨e, -, rfl⟩
  · obtain ⟨hkeeps, -⟩ := bodyOf_footprint _ _ _ hu
    calc regValue r (completeCommand u)
      _ = regValue r u := regValue_congr hr rfl rfl
      _ = regValue r (startOf i s) := hkeeps r hw hr
      _ = regValue r s := regValue_congr hr (startOf_ie i s) (startOf_regs i s)
  · exact regValue_congr hr (by simp) (by simp [hsnap])

/-! ## The VLE round trip -/

theorem WriteSame.outByte {s t : State} (h : WriteSame s t) (a : Nat) : s.outByte a = t.outByte a := by
  rw [State.outByte, State.outByte, h.outMem]

theorem WriteSame.padding_eq {s t : State} (h : WriteSame s t) (ns : List Nibble) :
    padding ns s.regs = padding ns t.regs := by
  rw [padding, padding, h.wrNib]

/-- Padding completes the last word of nibbles that start a word (20_memory.md R68). -/
theorem length_append_padding (ns : List Nibble) (r : Regs) (h0 : r.wrNib.toNat = 0) :
    (ns ++ padding ns r).length = 8 * ((ns.length + 7) / 8) := by
  rw [List.length_append, padding, List.length_replicate, h0]
  omega

/-- VLE.FLUSH issued, with room for the padding (40_vlecoder.md R134). -/
theorem issue_vleFlush (s : State) (hw : WriteCursorOk s.regs) (h : RoomFor (padding [] s.regs) s) :
    ∃ t, issue .vleFlush s = .next t ∧ t.status.err = false ∧
      WriteSame (appendNibbles (padding [] s.regs) s) t := by
  refine ⟨completeCommand (appendNibbles (padding [] s.regs) (acceptCommand (encode .vleFlush) s)), ?_, rfl, ?_⟩
  · have hflush := (flushWord_spec (acceptCommand (encode .vleFlush) s) hw).1 h
    change execVleFlush (acceptCommand (encode .vleFlush) s) = _
    rw [execVleFlush, hflush]
    rfl
  · exact (WriteSame.append ⟨rfl, rfl, rfl, rfl, rfl⟩ _).trans ⟨rfl, rfl, rfl, rfl, rfl⟩

/-- VLE.ENC for each value of a list and VLE.FLUSH append the codes and their padding (40_vlecoder.md R135). -/
theorem encodeAll_flush (vs : List Word) {ns : List Nibble} (hns : vs.flatMap vleCode = ns) (s : State)
    (hw : WriteCursorOk s.regs) (hc : s.cfg.outCap < 2 ^ 32) (h : RoomFor (ns ++ padding ns s.regs) s) :
    ∃ e t, encodeAll vs s = some e ∧ issue .vleFlush e = .next t ∧ t.status.err = false ∧
      WriteSame (appendNibbles (ns ++ padding ns s.regs) s) t := by
  obtain ⟨hcodes, hpad⟩ := (roomFor_append ns (padding ns s.regs) s hc).1 h
  obtain ⟨e, he, hse⟩ := encodeAll_spec vs s hw hc (by rwa [hns])
  rw [hns] at hse
  have hpadding : padding [] e.regs = padding ns s.regs := by rw [← hse.padding_eq, padding_append]
  obtain ⟨t, ht, herr, het⟩ := issue_vleFlush e (hse.cursorOk (appendNibbles_cursorOk ns s))
    (by rw [hpadding]; exact (hse.roomFor _).1 hpad)
  refine ⟨e, t, he, ht, herr, ?_⟩
  rw [hpadding] at het
  rw [appendNibbles_append ns (padding ns s.regs) s hc hcodes]
  exact (hse.append _).trans het

/-- Settles O23: encoding appends the codes and their padding; a read cursor at a copy of these whole words gives them
back. -/
theorem vleRoundTrip : Obligations.VleRoundTrip := by
  intro vs s hi _ h0 hroom
  obtain ⟨-, hw, -⟩ := hi.regs
  obtain ⟨-, -, hc, -⟩ := hi.caps
  generalize hns : vs.flatMap vleCode = ns at hroom
  have hempty : s.regs.wrNib.toNat = 0 := by rw [h0]; rfl
  have hlen := length_append_padding ns s.regs hempty
  have hfits : RoomFor (ns ++ padding ns s.regs) s := by
    refine .inr ?_
    rw [hlen, hempty]
    omega
  obtain ⟨e, t, he, ht, herr, hst⟩ := encodeAll_flush vs hns s hw hc hfits
  refine ⟨e, t, he, ht, herr, fun u hu _ hp hz hin hcopy => ?_⟩
  have hend : t.regs.wrPos.toNat = s.regs.wrPos.toNat + (ns ++ padding ns s.regs).length / 2 := by
    rw [← hst.wrPos, appendNibbles_wrPos _ s hc hfits, hempty]
    omega
  rw [hend] at hin hcopy
  obtain ⟨rest, hrest⟩ := readStream_of_copy s u (ns ++ padding ns s.regs) h0 (by omega) hz hp hin
    fun a h₁ h₂ => (hcopy a h₁ h₂).trans (hst.outByte a).symm
  obtain ⟨hread, -, -⟩ := hu.regs
  exact decodeAll_spec vs (padding ns s.regs ++ rest) u hread (by rw [hrest, hns, List.append_assoc])

end Sys2Proof.Machine
end

section
/-! SUPPORT. The zigzag and run-delta commands (41_rundelta.md): O24 to O32. -/

namespace Sys2Proof.Machine

open Sys2Proof

/-! ## How a command ends, from what its pseudocode does -/

theorem exec_of_body_ok (i : Instr) (s t : State) (h : bodyOf i (startOf i s) = .ok t) :
    exec i s = .next (completeCommand t) := by
  rw [exec_eq, h]
  rfl

theorem exec_of_body_error (i : Instr) (s : State) (e : CmdError) (h : bodyOf i (startOf i s) = .error e) :
    exec i s = .next (raiseError e (errorWindow i s) (startOf i s)) := by
  rw [exec_eq, h]
  rfl

/-- RDC.DEC whose body reaches its end (41_rundelta.md R156). -/
theorem exec_rdcDec_ok (s t : State) (h : rdcDecodeBody (clearFrameValid s) = .ok t) :
    exec .rdcDec s = .next (completeCommand (setFrameValid t)) :=
  exec_of_body_ok .rdcDec s (setFrameValid t) (congrArg markFrame h)

/-- RDC.DEC whose body raises (41_rundelta.md R156, 60_exceptions.md R244). -/
theorem exec_rdcDec_error (s : State) (e : CmdError) (h : rdcDecodeBody (clearFrameValid s) = .error e) :
    exec .rdcDec s = .next (raiseError e (rdcDecWindow s) (clearFrameValid s)) :=
  exec_of_body_error .rdcDec s e (congrArg markFrame h)

theorem badPixelCount_true (s : State) : badPixelCount s = true ↔
    s.regs.npix.toNat = 0 ∨ s.cfg.maxPixels < s.regs.npix.toNat := decide_eq_true_iff

/-- RDC.DEC with a good pixel count whose body raises: the window is the frame (60_exceptions.md R244). -/
theorem exec_rdcDec_frameError (s : State) (e : CmdError) (h1 : 1 ≤ s.regs.npix.toNat)
    (h2 : s.regs.npix.toNat ≤ s.cfg.maxPixels) (h : rdcDecodeBody (clearFrameValid s) = .error e) :
    exec .rdcDec s = .next (raiseError e (.pix s.regs.npix.toNat) (clearFrameValid s)) := by
  have hwin : rdcDecWindow s = .pix s.regs.npix.toNat := by
    rw [rdcDecWindow, (badPixelCount_false s).2 ⟨h1, h2⟩]
    rfl
  rw [exec_rdcDec_error s e h, hwin]

/-! ## The round trip -/

/-- RDC.ENC issued with room: its frame and padding are appended (41_rundelta.md R158). -/
theorem issue_rdcEnc (s : State) (hw : WriteCursorOk s.regs) (hc : s.cfg.outCap < 2 ^ 32)
    (h1 : 1 ≤ s.regs.npix.toNat) (h2 : s.regs.npix.toNat ≤ s.cfg.maxPixels) {ns : List Nibble}
    (hns : frameNibbles (pixels s s.regs.npix.toNat) = ns) (h : RoomFor (ns ++ padding ns s.regs) s) :
    ∃ t, issue .rdcEnc s = .next t ∧ t.status.err = false ∧
      WriteSame (appendNibbles (ns ++ padding ns s.regs) s) t := by
  subst hns
  have hbody := (rdcEncodeBody_spec (acceptCommand (encode .rdcEnc) s) hw hc h1 h2).1 h
  refine ⟨_, exec_of_body_ok .rdcEnc _ _ hbody, rfl, ?_⟩
  exact (WriteSame.append ⟨rfl, rfl, rfl, rfl, rfl⟩ _).trans ⟨rfl, rfl, rfl, rfl, rfl⟩

theorem pixels_length (s : State) (n : Nat) : (pixels s n).length = n := by
  rw [pixels, List.length_map, List.length_range]

/-- Settles O31: RDC.ENC appends the frame and its padding; the body of RDC.DEC on a copy of these words gives the frame
back, by `rdcDecodeBody_copy`. -/
theorem frameBodyRoundTrip : Obligations.FrameBodyRoundTrip := by
  intro s hi _ h0 h1 h2 hroom
  obtain ⟨-, hw, -⟩ := hi.regs
  obtain ⟨-, -, hc, -⟩ := hi.caps
  have hn := s.regs.npix.isLt
  have hlen := pixels_length s s.regs.npix.toNat
  obtain ⟨t, ht, herr, hst⟩ := issue_rdcEnc s hw hc h1 h2 rfl hroom
  refine ⟨t, ht, herr, fun u hu _ hcfg hnpix hp hz hin hcopy => ?_⟩
  obtain ⟨hread, -, -⟩ := hu.regs
  rw [← hst.wrPos] at hin hcopy ⊢
  obtain ⟨v, hv, hpos, hpix, hstatus, -, -⟩ := rdcDecodeBody_copy (pixels s s.regs.npix.toNat) s
    (clearFrameValid (acceptCommand (encode .rdcDec) u)) h0 (List.ne_nil_of_length_pos (by omega)) (by omega) hc hroom
    (by rw [hlen, ← hnpix]; rfl) (by rw [hlen, clearFrameValid_cfg, acceptCommand_cfg, hcfg]; exact h2) hread hp hz hin
    fun a ha ha' => (hcopy a ha ha').trans (hst.outByte a).symm
  refine ⟨_, exec_rdcDec_ok _ v hv, ?_, rfl, hpos, fun j hj => ?_⟩
  · change v.status.err = false
    rw [hstatus]
    rfl
  · change v.pixel j = _
    rw [hpix j (by omega)]
    simp only [pixels, List.getElem_map, List.getElem_range]

/-! ## Zigzag -/

/-- Settles O24: the low half of VAL is VAL at width 16; by `zigzagEncode16_ofInt`. -/
theorem zzEncMapsTheLowHalf : Obligations.ZzEncMapsTheLowHalf := by
  intro s
  refine exec_of_body_ok .zzEnc s _ ?_
  change Except.ok (setVal ((zigzagEncode16 (s.regs.val.setWidth 16)).setWidth 32) s) = _
  rw [zigzagEncode16_ofInt]
  rfl

/-- Settles O25: by `zigzagDecode32_ofInt`. -/
theorem zzDecMapsVal : Obligations.ZzDecMapsVal := by
  intro s
  refine exec_of_body_ok .zzDec s _ ?_
  change Except.ok (setVal (zigzagDecode32 s.regs.val) s) = _
  rw [zigzagDecode32_ofInt]
  rfl

/-- Settles O26: the code of a `d` below 2^15 is even and its half is `d`; that of a negative `d` is odd. -/
theorem zigzagRoundTrip : Obligations.ZigzagRoundTrip := by
  intro d
  have hd := d.isLt
  apply BitVec.eq_of_toNat_eq
  rw [zigzagDecode32_toNat, BitVec.toNat_setWidth_of_le (by decide), zigzagEncode16_toNat, BitVec.toNat_signExtend,
    BitVec.toNat_setWidth_of_le (by decide)]
  by_cases h : d.toNat < 2 ^ 15
  · have hmsb : ¬ d.msb = true := by rw [BitVec.msb_eq_decide, decide_eq_true_eq]; omega
    rw [if_pos h, if_pos (by omega), if_neg hmsb]
    omega
  · have hmsb : d.msb = true := by rw [BitVec.msb_eq_decide, decide_eq_true_eq]; omega
    rw [if_neg h, if_neg (by omega), if_pos hmsb]
    omega

/-! ## RDC.DEC -/

/-- Settles O27: by `rdcDecodeBody_decoded`; FRAME_VALID plays no part in the decode. -/
theorem rdcDecDecodesFrames : Obligations.RdcDecDecodesFrames := by
  intro s ps rest hi h1 h2 hp he hr
  obtain ⟨hs, -, -⟩ := hi.regs
  obtain ⟨t, ht, hd⟩ := rdcDecodeBody_decoded ps rest (clearFrameValid s) hs h1 h2 hp he hr
  rw [exec_rdcDec_ok s t ht, hd, decodedFrame_clear]

/-- Settles O28: a bad NPIX is found before anything is read; in a good frame, the pass after the pairs read finds the
length that does not fit. -/
theorem rdcDecReportsBadCounts : Obligations.RdcDecReportsBadCounts := by
  intro s hi
  obtain ⟨hs, -, -⟩ := hi.regs
  have hn := s.regs.npix.isLt
  refine ⟨fun hbad => ?_, fun h1 h2 ps z nz rest hp hsum hz hzlt hlong => ?_⟩
  · have hb : badPixelCount s = true := (badPixelCount_true s).2 hbad
    have hwin : rdcDecWindow s = .none := if_pos hb
    have hbody : rdcDecodeBody (clearFrameValid s) = .error .pixelCountMismatch := if_pos hb
    rw [exec_rdcDec_error s _ hbody, hwin]
  · refine exec_rdcDec_frameError s _ h1 h2 ?_
    rcases hlong with ⟨hr, hgt⟩ | ⟨hr, hnz, hnzlt, hle, hgt⟩
    · refine rdcDecodeBody_begun ps (z ++ rest) (clearFrameValid s) hs h1 h2 hp (hr.trans (List.append_assoc ..)) hsum _
        fun t ht hrt hct => ?_
      exact decodePair_zero_tooLong _ z rest t ht ⟨hz, hzlt⟩ hrt (by rw [hct]; exact hgt)
    · refine rdcDecodeBody_begun ps (z ++ (nz ++ rest)) (clearFrameValid s) hs h1 h2 hp
        (hr.trans (by simp only [List.append_assoc])) hsum _ fun t ht hrt hct => ?_
      exact decodePair_nonzero_tooLong _ z nz rest t ht ⟨hz, hzlt⟩ ⟨hnz, hnzlt⟩ hn hrt (by rw [hct]; exact hle)
        (by rw [hct]; exact hgt)

/-- RDC.DEC at a code that cannot be decoded, after pairs that leave pixels missing and the first codes of a pair
(41_rundelta.md R155, R156). -/
theorem exec_rdcDec_badCode (s : State) (ps : List PairCodes) (cs : List (List Nibble)) (bad : List Nibble) (e : CmdError)
    (hs : ReadCursorOk s.regs) (h1 : 1 ≤ s.regs.npix.toNat) (h2 : s.regs.npix.toNat ≤ s.cfg.maxPixels)
    (hp : ∀ p ∈ ps, p.Legal) (hsum : ∀ k, k ≤ ps.length → ((ps.take k).map PairCodes.length).sum < s.regs.npix.toNat)
    (hb : PairBegun (s.regs.npix.toNat - (ps.map PairCodes.length).sum) cs)
    (hr : readStream s = ps.flatMap PairCodes.nibbles ++ cs.flatten ++ bad) (he : BadCode bad e) :
    exec .rdcDec s = .next (raiseError e (.pix s.regs.npix.toNat) (clearFrameValid s)) := by
  have hmissing := hsum ps.length le_rfl
  rw [List.take_length] at hmissing
  refine exec_rdcDec_frameError s e h1 h2 (rdcDecodeBody_begun ps (cs.flatten ++ bad) (clearFrameValid s) hs h1 h2 hp
    (hr.trans (List.append_assoc ..)) hsum e fun t ht hrt hct => ?_)
  exact decodePair_badCode _ cs bad e t ht s.regs.npix.isLt (hct.trans_le hmissing.le) (by rw [hct]; exact hb) hrt he

/-- Settles O29: the stream that ends inside a code and the code outside the domain are both codes that cannot be
decoded. -/
theorem rdcDecReportsBadCodes : Obligations.RdcDecReportsBadCodes := by
  intro s ps cs bad hi h1 h2 hp hsum hb hr
  obtain ⟨hs, -, -⟩ := hi.regs
  have hbad (e : CmdError) := exec_rdcDec_badCode s ps cs bad e hs h1 h2 hp hsum hb hr
  refine ⟨fun hcont hlen => hbad _ (badCode_truncated bad hcont hlen), fun c rest hsplit hc => hbad _ ?_⟩
  rw [hsplit]
  exact badCode_overflow c rest hc

/-! ## RDC.ENC -/

/-- Settles O30: a bad NPIX is found first; else by `rdcEncodeBody_spec`. -/
theorem rdcEncEncodesFrames : Obligations.RdcEncEncodesFrames := by
  intro s hi
  obtain ⟨-, hw, -⟩ := hi.regs
  obtain ⟨-, -, hc, -⟩ := hi.caps
  refine ⟨fun hbad => ?_, fun h1 h2 hfits => ?_, fun h1 h2 hfull => ?_⟩
  · exact exec_of_body_error .rdcEnc s _ (if_pos ((badPixelCount_true s).2 hbad))
  · exact exec_of_body_ok .rdcEnc s _ ((rdcEncodeBody_spec s hw hc h1 h2).1 hfits)
  · exact exec_of_body_error .rdcEnc s _ ((rdcEncodeBody_spec s hw hc h1 h2).2 hfull)

/-! ## The loops -/

/-- Settles O32: `decodeFuel` is more than half the nibbles left, each pass of the decode takes two; each pass of the
encode moves on by a pixel. -/
theorem bodyLoopsHaveNoCap : Obligations.BodyLoopsHaveNoCap := by
  intro s n k
  have hleft := nibblesLeft_lt_fuel s
  exact ⟨fun hk => decodePairs_fuel n k (decodeFuel s) s (by omega) hleft,
    fun hk => encodePairs_fuel n k n 0 s hk le_rfl⟩

end Sys2Proof.Machine
end

section
/-! SUPPORT. The header commands FC.PARSE and FC.WRITE, and F32Lt (42_frame.md R180 to R192, R197): O33, O34, O37 to
O39. -/

namespace Sys2Proof.Machine

open Sys2Proof

/-! ## F32Lt -/

/-- Settles O37: the order of places is the order of values, by `f32Rank_lt_iff`. -/
theorem f32LtComparesReals : Obligations.F32LtComparesReals := by
  intro a b
  simp only [f32Lt, Bool.and_eq_true, Bool.not_eq_true', decide_eq_true_iff, f32Rank_lt_iff, and_assoc]

/-! ## FC.PARSE -/

/-- The forms of FC.PARSE with their (SHAPE, TCLIP) (30_encoding.md R91). -/
def parseForms : List (Instr × Bool × Bool) :=
  [(.fcParseBin, false, false), (.fcParseText, true, false), (.fcParseTextClip, true, true)]

/-- Every form of FC.PARSE runs FcParseBody with its shape, and has an empty window (42_frame.md R188 to R190). -/
theorem exec_fcParse (i : Instr) (shape tclip : Bool) (hi : (i, shape, tclip) ∈ parseForms) (s : State) :
    exec i s = finishCommand .none s (fcParseBody shape tclip s) := by
  simp only [parseForms, List.mem_cons, Prod.mk.injEq, List.not_mem_nil, or_false] at hi
  rcases hi with ⟨rfl, rfl, rfl⟩ | ⟨rfl, rfl, rfl⟩ | ⟨rfl, rfl, rfl⟩ <;> rfl

/-- FC.PARSE where a legal header of its shape stands (42_frame.md R187). -/
theorem exec_fcParse_header (i : Instr) (shape tclip : Bool) (hi : (i, shape, tclip) ∈ parseForms) (s : State)
    (hd : Header) (h : HeaderAt shape tclip s hd)
    (hl : HeaderLegal s.cfg hd.width hd.height hd.near hd.far hd.clip) :
    exec i s = .next (completeCommand (setHeader hd s)) := by
  rw [exec_fcParse i shape tclip hi, fcParseBody_header floatGrammar shape tclip s hd h hl]
  rfl

/-- Settles O33: the three forms by `exec_fcParse_header`. -/
theorem fcParseReadsTheHeader : Obligations.FcParseReadsTheHeader := fun s hd _ hl =>
  ⟨fun h => exec_fcParse_header .fcParseBin false false (by decide) s hd h hl,
    fun h => exec_fcParse_header .fcParseText true false (by decide) s hd h hl,
    fun h => exec_fcParse_header .fcParseTextClip true true (by decide) s hd h hl⟩

/-- Settles O34: FcParseBody checks the magic first, then the header. -/
theorem fcParseReportsBadHeaders : Obligations.FcParseReportsBadHeaders := by
  intro s i shape tclip _ hform
  rw [exec_fcParse i shape tclip hform]
  refine ⟨fun hmagic => ?_, fun hmagic hbad => ?_⟩
  · rw [fcParseBody_badMagic shape tclip s hmagic]
    rfl
  · rw [fcParseBody_badHeader floatGrammar shape tclip s hmagic hbad]
    rfl

/-! ## FC.WRITE -/

/-- WriteHeaderBody on a legal header without room (42_frame.md R191). -/
theorem writeHeaderBody_noRoom (s : State) (h : WritableHeader s) (h20 : s.cfg.outCap < 20) :
    writeHeaderBody s = .error .ioError := by
  rw [writeHeaderBody, writeHeaderOk_legal s h, if_neg (by decide), if_pos h20]

/-- WriteHeaderBody without a legal header (42_frame.md R191). -/
theorem writeHeaderBody_illegal (s : State) (h : ¬ WritableHeader s) :
    writeHeaderBody s = .error .malformedHeader := by
  rw [writeHeaderBody, writeHeaderOk_illegal s h, if_pos (by decide)]

/-- Settles O38: the three ends of WriteHeaderBody. -/
theorem fcWriteStoresTheHeader : Obligations.FcWriteStoresTheHeader := fun s _ =>
  ⟨fun hok h20 => exec_of_body_ok .fcWrite s _ (writeHeaderBody_written s hok h20),
    fun hok h20 => exec_of_body_error .fcWrite s _ (writeHeaderBody_noRoom s hok h20),
    fun hbad => exec_of_body_error .fcWrite s _ (writeHeaderBody_illegal s hbad)⟩

/-! ## The round trip -/

/-- The header that FC.WRITE writes, as FC.PARSE bin gives it back (42_frame.md R181, R197). -/
def writtenFields (r : Regs) : Header :=
  { width := r.width, height := r.height, near := r.near, far := r.far, clip := true, off := 20 }

theorem writtenHeader_acceptCommand_outMem (c : Word) (s : State) :
    (writtenHeader (acceptCommand c s)).outMem = (writtenHeader s).outMem := by
  rw [writtenHeader_outMem, writtenHeader_outMem]
  rfl

/-- FC.WRITE issued with a legal header and room: its bytes are those of `writtenHeader` (42_frame.md R192). -/
theorem issue_fcWrite (s : State) (h : WritableHeader s) (h20 : 20 ≤ s.cfg.outCap) :
    ∃ t, issue .fcWrite s = .next t ∧ t.status.err = false ∧ ∀ a, t.outByte a = (writtenHeader s).outByte a := by
  have hbody := writeHeaderBody_written (acceptCommand (encode .fcWrite) s) h h20
  refine ⟨_, exec_of_body_ok .fcWrite _ _ hbody, rfl, fun a => ?_⟩
  rw [State.outByte, State.outByte, completeCommand_outMem, writtenHeader_acceptCommand_outMem]

/-- Settles O39: the 20 bytes are a binary header with the fields written, by `header_copied`. -/
theorem headerRoundTrip : Obligations.HeaderRoundTrip := by
  intro s _ _ hclip h20 hlegal
  obtain ⟨t, ht, herr, hout⟩ := issue_fcWrite s ⟨hclip, hlegal⟩ h20
  refine ⟨t, ht, herr, fun u _ _ hcfg hlen hcopy => ?_⟩
  have hheader : BinHeaderAt (acceptCommand (encode .fcParseBin) u) (writtenFields s.regs) :=
    header_copied s _ hlen fun a ha => (hcopy a ha).trans (hout a)
  refine ⟨_, exec_fcParse_header .fcParseBin false false (by decide) _ _ hheader ?_, rfl, rfl, rfl, rfl, rfl, rfl, rfl⟩
  rw [acceptCommand_cfg, hcfg]
  exact hlegal

end Sys2Proof.Machine
end

section
/-! SUPPORT. The frame commands FRAME.DEC and FRAME.ENC (42_frame.md R193 to R199): O40 to O43. -/

namespace Sys2Proof.Machine

open Sys2Proof

/-- A legal header stands for at least one pixel, and no more than PIX_MEM holds (42_frame.md R185). -/
theorem HeaderLegal.pixelCount {c : Capacities} {w h nr fr : Word} {clip : Bool} (hl : HeaderLegal c w h nr fr clip) :
    1 ≤ w.toNat * h.toNat ∧ w.toNat * h.toNat ≤ c.maxPixels := by
  obtain ⟨hw, hh, hfits, -⟩ := hl
  exact ⟨Nat.mul_pos hw hh, hfits⟩

/-! ## FRAME.DEC -/

/-- The forms of FRAME.DEC with their (SHAPE, TCLIP) (30_encoding.md R91). -/
def frameDecForms : List (Instr × Bool × Bool) :=
  [(.frameDecBin, false, false), (.frameDecText, true, false), (.frameDecTextClip, true, true)]

/-- Every form of FRAME.DEC runs its pseudocode with its shape (42_frame.md R193 to R195). -/
theorem exec_frameDec (i : Instr) (shape tclip : Bool) (hi : (i, shape, tclip) ∈ frameDecForms) (s : State) :
    exec i s = finishCommand (frameDecWindow shape tclip s) (clearFrameValid s)
      (frameDecBody shape tclip (clearFrameValid s)) := by
  simp only [frameDecForms, List.mem_cons, Prod.mk.injEq, List.not_mem_nil, or_false] at hi
  rcases hi with ⟨rfl, rfl, rfl⟩ | ⟨rfl, rfl, rfl⟩ | ⟨rfl, rfl, rfl⟩ <;> rfl

/-- The state in which FRAME.DEC's frame body starts, after the header `hd` (42_frame.md R193). -/
abbrev frameDecStart (hd : Header) (s : State) : State := setNpixFromHeader (setHeader hd s)

/-- FRAME.DEC whose header is bad: its window is empty (42_frame.md R199, 60_exceptions.md R244). -/
theorem exec_frameDec_headerError (i : Instr) (shape tclip : Bool) (hi : (i, shape, tclip) ∈ frameDecForms)
    (s : State) (e : CmdError) (h : fcParseBody shape tclip s = .error e)
    (h' : fcParseBody shape tclip (clearFrameValid s) = .error e) :
    exec i s = .next (raiseError e .none (clearFrameValid s)) := by
  rw [exec_frameDec i shape tclip hi, frameDecWindow, frameDecBody, h, h']
  rfl

/-- FRAME.DEC's pseudocode where a legal header of its shape stands: the frame body decides its end
(42_frame.md R193 to R195). -/
theorem frameDecBody_header (shape tclip : Bool) (s : State) (hd : Header) (h : HeaderAt shape tclip s hd)
    (hl : HeaderLegal s.cfg hd.width hd.height hd.near hd.far hd.clip) :
    frameDecBody shape tclip s = markFrame (rdcDecodeBody (frameDecStart hd s)) := by
  rw [frameDecBody, fcParseBody_header floatGrammar shape tclip s hd h hl]
  dsimp only
  cases rdcDecodeBody (frameDecStart hd s) <;> rfl

/-- FRAME.DEC where a legal header of its shape stands: its window is the frame (60_exceptions.md R244). -/
theorem exec_frameDec_header (i : Instr) (shape tclip : Bool) (hi : (i, shape, tclip) ∈ frameDecForms) (s : State)
    (hd : Header) (h : HeaderAt shape tclip s hd)
    (hl : HeaderLegal s.cfg hd.width hd.height hd.near hd.far hd.clip) :
    exec i s = finishCommand (.pix (hd.width.toNat * hd.height.toNat)) (clearFrameValid s)
      (markFrame (rdcDecodeBody (frameDecStart hd (clearFrameValid s)))) := by
  rw [exec_frameDec i shape tclip hi, frameDecWindow, fcParseBody_header floatGrammar shape tclip s hd h hl,
    frameDecBody_header shape tclip (clearFrameValid s) hd h hl]
  rfl

/-- NPIX counts the pixels of a legal header (42_frame.md R185, R193). -/
theorem frameDecStart_npix (s : State) (hd : Header) (hm : s.cfg.maxPixels < 2 ^ 32)
    (hl : HeaderLegal s.cfg hd.width hd.height hd.near hd.far hd.clip) :
    (frameDecStart hd s).regs.npix.toNat = hd.width.toNat * hd.height.toNat :=
  setNpixFromHeader_npix (setHeader hd s) hm hl.pixelCount.2

/-- Settles O40: the frame body decodes the pairs from an empty read cursor, by `rdcDecodeBody_decoded`. -/
theorem frameDecDecodesFrames : Obligations.FrameDecDecodesFrames := by
  intro s i shape tclip hd ps rest hinv hform hat hl hp he hr
  obtain ⟨-, -, -, -, hmax⟩ := hinv.caps
  obtain ⟨hpos, hfits⟩ := hl.pixelCount
  rw [← frameDecStart_npix s hd hmax hl] at he hpos hfits
  obtain ⟨t, ht, hdec⟩ := rdcDecodeBody_decoded ps rest (frameDecStart hd (clearFrameValid s))
    (setHeader_cursorOk hd (clearFrameValid s)) hpos hfits hp he hr
  calc exec i s
    _ = .next (completeCommand (setFrameValid t)) := by
      rw [exec_frameDec_header i shape tclip hform s hd hat hl, ht]
      rfl
    _ = .next (completeCommand (decodedFrame ps (clearFrameValid (frameDecStart hd s)))) := by
      rw [hdec]
      rfl
    _ = .next (completeCommand (decodedFrame ps (frameDecStart hd s))) := by rw [decodedFrame_clear]

/-- Settles O41: the header errors by `exec_frameDec_headerError`, the body's own error after `exec_frameDec_header`. -/
theorem frameDecReportsErrors : Obligations.FrameDecReportsErrors := by
  intro s i shape tclip _ hform
  refine ⟨fun hmagic => ?_, fun hmagic hbad => ?_, fun hd e hat hl he => ?_⟩
  · exact exec_frameDec_headerError i shape tclip hform s .badMagic (fcParseBody_badMagic shape tclip s hmagic)
      (fcParseBody_badMagic shape tclip (clearFrameValid s) hmagic)
  · exact exec_frameDec_headerError i shape tclip hform s .malformedHeader
      (fcParseBody_badHeader floatGrammar shape tclip s hmagic hbad)
      (fcParseBody_badHeader floatGrammar shape tclip (clearFrameValid s) hmagic hbad)
  · rw [exec_frameDec_header i shape tclip hform s hd hat hl, he]
    rfl

/-! ## FRAME.ENC -/

/-- The state in which FRAME.ENC's frame body starts, after the header (42_frame.md R196). -/
abbrev frameEncStart (s : State) : State := setNpixFromHeader (writtenHeader s)

/-- FRAME.ENC whose header cannot be written: its window is empty (60_exceptions.md R244). -/
theorem exec_frameEnc_headerError (s : State) (e : CmdError) (h : writeHeaderBody s = .error e) :
    exec .frameEnc s = .next (raiseError e .none s) := by
  change finishCommand (frameEncWindow s) s (frameEncBody s) = _
  rw [frameEncWindow, windowIfHeaderChecks, frameEncBody, h]
  rfl

/-- FRAME.ENC whose header is written: the frame body decides its end (42_frame.md R196). -/
theorem exec_frameEnc_header (s : State) (h : WritableHeader s) (h20 : 20 ≤ s.cfg.outCap) :
    exec .frameEnc s = finishCommand (.out 0 s.cfg.outCap) s (rdcEncodeBody (frameEncStart s)) := by
  change finishCommand (frameEncWindow s) s (frameEncBody s) = _
  rw [frameEncWindow, windowIfHeaderChecks, frameEncBody, writeHeaderBody_written s h h20]

/-- NPIX counts the pixels of a legal header (42_frame.md R185, R196). -/
theorem frameEncStart_npix (s : State) (hm : s.cfg.maxPixels < 2 ^ 32) (h : WritableHeader s) :
    (frameEncStart s).regs.npix.toNat = s.regs.width.toNat * s.regs.height.toNat :=
  setNpixFromHeader_npix (writtenHeader s) hm h.2.pixelCount.2

/-- The codes of the frame of NPIX pixels, with the padding after them (41_rundelta.md R157). -/
abbrev bodyNibbles (s : State) : List Nibble :=
  frameNibbles (pixels s s.regs.npix.toNat) ++ padding (frameNibbles (pixels s s.regs.npix.toNat)) s.regs

theorem frameEncStart_nibbles (s : State) (hm : s.cfg.maxPixels < 2 ^ 32) (h : WritableHeader s) {ns : List Nibble}
    (hns : frameNibbles (pixels s (s.regs.width.toNat * s.regs.height.toNat)) = ns) :
    bodyNibbles (frameEncStart s) = ns ++ padding ns (frameEncStart s).regs := by
  subst hns
  rw [bodyNibbles, frameEncStart_npix s hm h]
  rfl

/-- The frame body of FRAME.ENC, by `rdcEncodeBody_spec` (42_frame.md R196). -/
theorem frameEncStart_body (s : State) (hc : s.cfg.Legal) (h : WritableHeader s) :
    (RoomFor (bodyNibbles (frameEncStart s)) (frameEncStart s) →
      rdcEncodeBody (frameEncStart s) = .ok (encodedFrame (frameEncStart s))) ∧
    (¬ RoomFor (bodyNibbles (frameEncStart s)) (frameEncStart s) →
      rdcEncodeBody (frameEncStart s) = .error .ioError) := by
  obtain ⟨-, -, hout, -, hmax⟩ := hc
  obtain ⟨hpos, hfits⟩ := h.2.pixelCount
  rw [← frameEncStart_npix s hmax h] at hpos hfits
  exact rdcEncodeBody_spec (frameEncStart s) (writtenHeader_cursorOk s) hout hpos hfits

/-- FRAME.ENC with a legal header and room (42_frame.md R196). -/
theorem exec_frameEnc_frame (s : State) (hc : s.cfg.Legal) (h : WritableHeader s) (h20 : 20 ≤ s.cfg.outCap)
    (hroom : RoomFor (bodyNibbles (frameEncStart s)) (frameEncStart s)) :
    exec .frameEnc s = .next (completeCommand (encodedFrame (frameEncStart s))) := by
  rw [exec_frameEnc_header s h h20, (frameEncStart_body s hc h).1 hroom]
  rfl

/-- Settles O42: the two ends of the frame body, then the two errors of the header. -/
theorem frameEncEncodesFrames : Obligations.FrameEncEncodesFrames := by
  intro s hi
  obtain ⟨-, -, -, -, hmax⟩ := hi.caps
  refine ⟨fun hok h20 hroom => ?_, fun hok h20 hfull => ?_, fun hok h20 => ?_, fun hbad => ?_⟩
  · exact exec_frameEnc_frame s hi.caps hok h20 (by rwa [frameEncStart_nibbles s hmax hok rfl])
  · rw [exec_frameEnc_header s hok h20,
      (frameEncStart_body s hi.caps hok).2 (by rwa [frameEncStart_nibbles s hmax hok rfl])]
    rfl
  · exact exec_frameEnc_headerError s _ (writeHeaderBody_noRoom s hok h20)
  · exact exec_frameEnc_headerError s _ (writeHeaderBody_illegal s hbad)

/-! ## The round trip -/

theorem encodedFrame_wrPos (s : State) :
    (encodedFrame s).regs.wrPos = (appendNibbles (bodyNibbles s) s).regs.wrPos := rfl

theorem encodedFrame_outByte (s : State) (a : Nat) :
    (encodedFrame s).outByte a = (appendNibbles (bodyNibbles s) s).outByte a := rfl

/-- A frame body is stored from WR_POS on (41_rundelta.md R158). -/
theorem encodedFrame_below (s : State) (hc : s.cfg.outCap < 2 ^ 32) (hroom : RoomFor (bodyNibbles s) s) :
    s.regs.wrPos.toNat ≤ (encodedFrame s).regs.wrPos.toNat ∧
      ∀ a, a < s.regs.wrPos.toNat → (encodedFrame s).outByte a = s.outByte a := by
  refine ⟨?_, fun a ha => ?_⟩
  · rw [encodedFrame_wrPos, appendNibbles_wrPos _ s hc hroom]
    exact Nat.le_add_right _ _
  · rw [encodedFrame_outByte]
    by_contra hchanged
    exact absurd (appendNibbles_outByte_frame _ s hc hroom a hchanged).1 (by omega)

/-- RdcDecodeBody on a copy of what `encodedFrame` has stored gives the frame back, by `rdcDecodeBody_copy`. -/
theorem rdcDecodeBody_encodedFrame (s u : State) (h0 : s.regs.wrNib = 0) (hc : s.cfg.outCap < 2 ^ 32)
    (hroom : RoomFor (bodyNibbles s) s) (h1 : 1 ≤ s.regs.npix.toNat) (hn : u.regs.npix = s.regs.npix)
    (hm : s.regs.npix.toNat ≤ u.cfg.maxPixels) (hu : ReadCursorOk u.regs) (hp : u.regs.rdPos = s.regs.wrPos)
    (hz : u.regs.rdNib = 0) (hlen : (encodedFrame s).regs.wrPos.toNat ≤ u.regs.inLen.toNat)
    (hb : ∀ a, a < (encodedFrame s).regs.wrPos.toNat → u.inByte a = (encodedFrame s).outByte a) :
    ∃ v, rdcDecodeBody u = .ok v ∧ v.status = u.status ∧ v.regs.width = u.regs.width ∧ v.regs.height = u.regs.height ∧
      ∀ j, j < s.regs.npix.toNat → v.pixel j = s.pixel j := by
  have hpixels := pixels_length s s.regs.npix.toNat
  have hlt := s.regs.npix.isLt
  obtain ⟨v, hv, -, hpix, hstatus, hwidth, hheight⟩ := rdcDecodeBody_copy (pixels s s.regs.npix.toNat) s u h0
    (List.ne_nil_of_length_pos (by omega)) (by omega) hc hroom (by rw [hpixels, hn]) (by omega) hu hp hz hlen
    fun a _ ha => hb a ha
  refine ⟨v, hv, hstatus, hwidth, hheight, fun j hj => ?_⟩
  rw [hpix j (by omega)]
  simp only [pixels, List.getElem_map, List.getElem_range]

/-- The whole words of a frame body fit after the header (42_frame.md R196: 20 + 4 * ceil(nibbles / 8) bytes). -/
theorem frameEncStart_room (s : State) (hm : s.cfg.maxPixels < 2 ^ 32) (h : WritableHeader s) {ns : List Nibble}
    (hns : frameNibbles (pixels s (s.regs.width.toNat * s.regs.height.toNat)) = ns)
    (hroom : 20 + 4 * ((ns.length + 7) / 8) ≤ s.cfg.outCap) :
    RoomFor (bodyNibbles (frameEncStart s)) (frameEncStart s) := by
  rw [frameEncStart_nibbles s hm h hns]
  refine .inr ?_
  rw [length_append_padding ns _ rfl]
  change 20 + 4 * ((0 + 8 * ((ns.length + 7) / 8)) / 8) ≤ s.cfg.outCap
  omega

/-- FRAME.DEC bin on a copy of what FRAME.ENC has stored for the frame of `s` (42_frame.md R198). -/
theorem exec_frameDec_copy (s u : State) (hc : s.cfg.Legal) (h : WritableHeader s) (hcfg : u.cfg = s.cfg)
    (hroom : RoomFor (bodyNibbles (frameEncStart s)) (frameEncStart s))
    (hlen : u.regs.inLen = (encodedFrame (frameEncStart s)).regs.wrPos)
    (hcopy : ∀ a, a < (encodedFrame (frameEncStart s)).regs.wrPos.toNat →
      u.inByte a = (encodedFrame (frameEncStart s)).outByte a) :
    ∃ v, exec .frameDecBin u = .next v ∧ v.status.err = u.status.err ∧ v.status.frameValid = true ∧
      v.regs.width = s.regs.width ∧ v.regs.height = s.regs.height ∧
      ∀ j, j < s.regs.width.toNat * s.regs.height.toNat → v.pixel j = s.pixel j := by
  obtain ⟨-, -, hout, -, hmax⟩ := hc
  obtain ⟨hge, hbelow⟩ := encodedFrame_below (frameEncStart s) hout hroom
  have hn := frameEncStart_npix s hmax h
  obtain ⟨hpos, hfits⟩ := h.2.pixelCount
  have hheader : BinHeaderAt u (writtenFields s.regs) := by
    refine header_copied s u (hlen ▸ hge) fun a ha => ?_
    rw [hcopy a (lt_of_lt_of_le ha hge), hbelow a ha, State.outByte, State.outByte, setNpixFromHeader_outMem]
  have hlegal : HeaderLegal u.cfg s.regs.width s.regs.height s.regs.near s.regs.far true := hcfg ▸ h.2
  have hnpix : (frameDecStart (writtenFields s.regs) (clearFrameValid u)).regs.npix = (frameEncStart s).regs.npix := by
    rw [setNpixFromHeader_regs, setNpixFromHeader_regs]
    rfl
  obtain ⟨v, hv, hstatus, hwidth, hheight, hpix⟩ := rdcDecodeBody_encodedFrame (frameEncStart s)
    (frameDecStart (writtenFields s.regs) (clearFrameValid u)) rfl hout hroom (hn ▸ hpos) hnpix
    (hn ▸ hcfg ▸ hfits) (setHeader_cursorOk _ _) rfl rfl (hlen ▸ le_rfl) hcopy
  refine ⟨completeCommand (setFrameValid v), ?_, ?_, rfl, hwidth, hheight, fun j hj => ?_⟩
  · rw [exec_frameDec_header .frameDecBin false false (by decide) u _ hheader hlegal, hv]
    rfl
  · change v.status.err = u.status.err
    rw [hstatus]
    rfl
  · exact hpix j (hn ▸ hj)

/-- Settles O43: FRAME.ENC stores the header and its frame, and FRAME.DEC bin reads both back from the copy. -/
theorem frameRoundTrip : Obligations.FrameRoundTrip := by
  intro s hi _ hclip h20 hlegal n hroom
  have hwritable : WritableHeader (acceptCommand (encode .frameEnc) s) := ⟨hclip, hlegal⟩
  obtain ⟨-, -, -, -, hmax⟩ := hi.caps
  have hfit := frameEncStart_room (acceptCommand (encode .frameEnc) s) hmax hwritable rfl hroom
  refine ⟨_, exec_frameEnc_frame _ hi.caps hwritable h20 hfit, rfl, fun u _ _ hcfg hlen hcopy => ?_⟩
  exact exec_frameDec_copy _ (acceptCommand (encode .frameDecBin) u) hi.caps hwritable hcfg hfit hlen hcopy

end Sys2Proof.Machine
end

section
/-! SUPPORT. The command lifecycle, the soft reset, and the register port while BUSY (43_control.md R220 to R228): O4, O5,
O6, O8, O10, O17, O50, O51, O53. -/

namespace Sys2Proof.Machine

open Sys2Proof

/-! ## Acceptance -/

theorem clearsFrame_iff_decode (c : Word) : clearsFrame c = true ↔
    decodeWord c = .ok .rdcDec ∨ decodeWord c = .ok .frameDecBin ∨ decodeWord c = .ok .frameDecText ∨
      decodeWord c = .ok .frameDecTextClip := by
  unfold clearsFrame
  cases decodeWord c with
  | error e => simp
  | ok i => cases i <;> simp

/-- The words whose acceptance clears FRAME_VALID (43_control.md R220). -/
theorem clearsFrame_iff (c : Word) : clearsFrame c = true ↔ c = 0x12 ∨ c = 0x22 ∨ c = 0x122 ∨ c = 0x322 := by
  rw [clearsFrame_iff_decode, decodeWord_ok_iff, decodeWord_ok_iff, decodeWord_ok_iff, decodeWord_ok_iff]
  rfl

theorem accepted_eq (c : Word) (t : Status) : t.accepted (clearsFrame c) =
    { busy := true, done := false, err := false, errcode := 0, drop := t.drop,
      frameValid := if c = 0x12 ∨ c = 0x22 ∨ c = 0x122 ∨ c = 0x322 then false else t.frameValid } := by
  rw [Status.accepted]
  congr 1
  by_cases h : clearsFrame c = true
  · rw [if_pos ((clearsFrame_iff c).1 h), h, Bool.not_true, Bool.and_false]
  · rw [if_neg (mt (clearsFrame_iff c).2 h), Bool.eq_false_of_not_eq_true h, Bool.not_false, Bool.and_true]

/-- A turn in which the host writes a register (00_scope.md R12; log 3). -/
theorem step_turnWr (r : RegName) (v : Word) (s : State) (rest : List Turn) (h : s.agenda = turnWr r v :: rest) :
    step s = .next (writeReg r v { s with agenda := rest }) := by
  rw [step, h]
  exact hostAccess_regWrite r v _

theorem writeReg_cmd_idle (c : Word) (s : State) (hb : s.status.busy = false) :
    writeReg .cmd c s = acceptCommand c s := if_neg (Bool.eq_false_iff.1 hb)

theorem writeReg_cmd_busy (c : Word) (s : State) (hb : s.status.busy = true) :
    writeReg .cmd c s = { s with status := { s.status with drop := true } } := if_pos hb

/-- Settles O4: the host's turn is `acceptCommand`, and `accepted_eq` says what that does to STATUS. -/
theorem commandIsAccepted : Obligations.CommandIsAccepted := by
  intro s c rest ha hb
  rw [step_turnWr .cmd c s rest ha, writeReg_cmd_idle c { s with agenda := rest } hb, ← accepted_eq]
  rfl

/-- Settles O5: the host's turn is a CMD write while BUSY. -/
theorem commandIsDroppedWhileBusy : Obligations.CommandIsDroppedWhileBusy := by
  intro s c rest ha hb
  rw [step_turnWr .cmd c s rest ha, writeReg_cmd_busy c { s with agenda := rest } hb]

/-! ## The engine's turn -/

theorem step_emptyAgenda (s : State) (h : s.agenda = []) : step s = engineTurn s := by
  rw [step, h]

theorem step_engine (s : State) (rest : List Turn) (h : s.agenda = .engine :: rest) :
    step s = engineTurn { s with agenda := rest } := by
  rw [step, h]
  rfl

theorem engineTurn_decoded (s : State) (i : Instr) (hb : s.status.busy = true) (hd : decodeWord s.regs.cmd = .ok i) :
    engineTurn s = exec i s := by
  rw [engineTurn, if_pos hb, State.fetchWord, hd]

/-- Settles O6: the engine's turn, with or without a turn pending, runs the decoded command. -/
theorem stepRunsTheDecodedCommand : Obligations.StepRunsTheDecodedCommand := fun s i hb hd =>
  ⟨fun ha => (step_emptyAgenda s ha).trans (engineTurn_decoded s i hb hd),
    fun rest ha => (step_engine s rest ha).trans (engineTurn_decoded _ i hb hd)⟩

/-- An illegal word where the registers are those of the snapshot (43_control.md R224): the roll back changes none. -/
theorem engineTurn_illegal (s : State) (e : DecodeError) (hb : s.status.busy = true) (hs : s.snapshot = some s.regs)
    (hd : decodeWord s.regs.cmd = .error e) :
    engineTurn s = .next { s with snapshot := none, status := s.status.failed .illegalCommand } := by
  have hraise : engineTurn s = .next (raiseError .illegalCommand .none s) := by
    rw [engineTurn, if_pos hb, State.fetchWord, hd]
    rfl
  rw [hraise, raiseError, hs]
  rfl

/-- Settles O10: the engine's turn, with or without a turn pending, is `engineTurn_illegal`. -/
theorem illegalCommandIsReported : Obligations.IllegalCommandIsReported := fun s e hb hs hd =>
  ⟨fun ha => (step_emptyAgenda s ha).trans (engineTurn_illegal s e hb hs hd),
    fun rest ha => (step_engine s rest ha).trans (engineTurn_illegal _ e hb hs hd)⟩

/-! ## Completion -/

/-- Settles O8: `completeCommand` and `raiseError` both set DONE, clear BUSY and let the snapshot go. -/
theorem everyCommandCompletes : Obligations.EveryCommandCompletes := by
  intro i s
  obtain ⟨t, ht⟩ := exec_next i s
  refine ⟨t, ht, ?_⟩
  rcases exec_cases i s t ht with ⟨u, -, rfl⟩ | ⟨e, -, rfl⟩
  · exact ⟨rfl, rfl, rfl⟩
  · rw [raiseError_status, raiseError_snapshot]
    exact ⟨rfl, rfl, rfl⟩

/-- Settles O17: NOP's pseudocode is empty, so only its completion is left. -/
theorem nopCompletes : Obligations.NopCompletes := fun s => exec_eq .nop s

/-! ## The register port while BUSY -/

theorem writeReg_busy (r : RegName) (v : Word) (s : State) (hr : r ∉ [RegName.ctrl, .status, .cmd])
    (hb : s.status.busy = true) : writeReg r v s = s := by
  cases r
  case ctrl | status | cmd => exact absurd (by decide) hr
  all_goals exact if_pos hb

theorem offset_of_regAt (off : Nat) (r : RegName) (h : regAt off = some r) : r.offset = off := by
  unfold regAt at h
  simpa only [beq_iff_eq] using List.find?_some h

/-- CTRL, STATUS and CMD are the registers below 0x0C (10_state.md R20). -/
theorem notMem_of_offset (r : RegName) (h : 0x0C ≤ r.offset) : r ∉ [RegName.ctrl, .status, .cmd] := by
  simp only [List.mem_cons, List.not_mem_nil, or_false]
  rintro (rfl | rfl | rfl) <;> exact absurd h (by decide)

/-- Settles O50: from 0x0C on an offset is a register that no write while BUSY changes, or reserved. -/
theorem busyRegisterWrites : Obligations.BusyRegisterWrites := by
  intro s v off hb h4 hlo hhi
  rw [hostAccess, goodAccess_aligned off h4 hhi, if_pos rfl, writeWindow]
  cases hat : regAt off with
  | none => rfl
  | some r =>
    obtain rfl := offset_of_regAt off r hat
    exact congrArg _ (writeReg_busy r v s (notMem_of_offset r hlo) hb)

/-- A host read at a register's offset is the read of that register (10_state.md R20). -/
theorem hostAccess_regRead (r : RegName) (s : State) :
    hostAccess (.regRead r.offset 4) s = .next (readReg r s) := by
  cases r <;> rfl

theorem readableWhileBusy_iff (r : RegName) :
    readableWhileBusy r = true ↔ r ∈ [RegName.ctrl, .status, .cmd, .inLen] := by
  cases r <;> decide

/-- Settles O51: a read is free exactly while BUSY and of a register that R228 does not name. -/
theorem registerReads : Obligations.RegisterReads := by
  intro s r
  rw [hostAccess_regRead, readReg, ← readableWhileBusy_iff]
  refine ⟨fun h => ?_, fun hb hr => ?_⟩
  · rcases h with hb | hr
    · rw [hb]
      rfl
    · rw [hr, Bool.not_true, Bool.and_false]
      rfl
  · rw [hb, Bool.eq_false_of_not_eq_true hr]
    rfl

/-! ## The soft reset -/

theorem abortWindow_idle (s : State) (hb : s.status.busy = false) : abortWindow s = .none :=
  if_neg (Bool.eq_false_iff.1 hb)

/-- What a reset with IE = `ie` does to the block, soft or hardware (43_control.md R225, 70_reset_and_hazards.md R270). -/
theorem reset_effect (ie : Bool) (s : State) :
    let t := resetRegisters ie (s.havoc (abortWindow s))
    t.ie = ie ∧ t.status = Status.reset ∧ t.regs = Regs.reset ∧ t.snapshot = none ∧ t.cfg = s.cfg ∧
      t.inMem = s.inMem ∧ (s.status.busy = false → t.outMem = s.outMem ∧ t.pixMem = s.pixMem) ∧
      (∀ a, (∀ lo n, abortWindow s = .out lo n → a < lo ∨ lo + n ≤ a) → t.outByte a = s.outByte a) ∧
      (∀ j, (∀ n, abortWindow s = .pix n → n ≤ j) → t.pixel j = s.pixel j) := by
  refine ⟨rfl, rfl, rfl, rfl, havoc_cfg s _, havoc_inMem s _, fun hb => ?_, fun a => ?_, fun j => ?_⟩
  · rw [abortWindow_idle s hb]
    exact ⟨rfl, rfl⟩
  · exact havoc_outByte s (abortWindow s) a
  · exact havoc_pixel s (abortWindow s) j

/-- Settles O53: a CTRL write with bit [1] = 1 is `softReset`, with IE from bit [0]. -/
theorem softReset_ctrlWrite : Obligations.SoftReset := by
  intro s v hv
  have hw : writeReg .ctrl v s = softReset (v.getLsbD 0) s := if_pos hv
  exact ⟨_, (hostAccess_regWrite .ctrl v s).trans (congrArg _ hw), reset_effect _ s⟩

end Sys2Proof.Machine
end

section
/-! SUPPORT. Errors and their codes, the write windows of a reset abort, the interrupt output and the idle engine
(60_exceptions.md): O9, O52, O55, O7, O15. -/

namespace Sys2Proof.Machine

open Sys2Proof

/-! ## Errors -/

/-- A raise leaves every byte of OUT_MEM outside its window (60_exceptions.md R243). -/
theorem raiseError_outByte (e : CmdError) (win : Window) (s : State) (a : Nat)
    (h : ∀ lo n, win = .out lo n → a < lo ∨ lo + n ≤ a) : (raiseError e win s).outByte a = s.outByte a :=
  havoc_outByte _ win a h

/-- A raise leaves every element of PIX_MEM outside its window (60_exceptions.md R243). -/
theorem raiseError_pixel (e : CmdError) (win : Window) (s : State) (j : Nat) (h : ∀ n, win = .pix n → n ≤ j) :
    (raiseError e win s).pixel j = s.pixel j :=
  havoc_pixel _ win j h

/-- A pseudocode that ends without an error does not touch STATUS.ERR. -/
theorem bodyOf_err (i : Instr) (s u : State) (h : bodyOf i (startOf i s) = .ok u) : u.status.err = s.status.err := by
  obtain ⟨-, _, _, _, _, rfl⟩ := bodyOf_footprint i _ u h
  rw [startOf_status]

/-- A command that sets ERR has raised one of its errors (60_exceptions.md R240). -/
theorem exec_err (i : Instr) (s t : State) (hm : s.cfg.maxPixels < 2 ^ 32) (hs : s.status.err = false)
    (h : exec i s = .next t) (ht : t.status.err = true) :
    ∃ e ∈ mayRaise i, t = raiseError e (errorWindow i s) (startOf i s) := by
  rcases exec_cases i s t h with ⟨u, hu, rfl⟩ | ⟨e, he, rfl⟩
  · have hkept : (completeCommand u).status.err = false := (bodyOf_err i s u hu).trans hs
    exact absurd ht (Bool.eq_false_iff.1 hkept)
  · exact ⟨e, bodyOf_raises i (startOf i s) ((startOf_cfg i s).symm ▸ hm) e he, rfl⟩

/-- Settles O9: ERR is set by a raise alone, and `raiseError` rolls back and keeps what is outside its window. -/
theorem errorsRollBack : Obligations.ErrorsRollBack := by
  intro i s t r hcaps hs hsnap h ht
  obtain ⟨-, -, -, -, hmax⟩ := hcaps
  obtain ⟨e, he, rfl⟩ := exec_err i s t hmax hs h ht
  refine ⟨?_, ?_, ⟨e, he, ?_⟩, ?_, fun a ha => ?_, fun j hj => ?_⟩
  · rw [raiseError_regs, startOf_snapshot, hsnap, Option.getD_some]
  · rw [raiseError_ie, startOf_ie]
  · rw [raiseError_status, startOf_status]
    rfl
  · rw [raiseError_inMem, startOf_inMem]
  · rw [raiseError_outByte e _ _ a ha, State.outByte, startOf_outMem, State.outByte]
  · rw [raiseError_pixel e _ _ j hj, State.pixel, startOf_pixMem, State.pixel]

/-- Settles O15: the table of R240 is the definition of `CmdError.code`. -/
theorem errorCodes : Obligations.ErrorCodes := ⟨rfl, rfl, rfl, rfl, rfl, rfl, rfl, rfl⟩

/-! ## Write windows of a reset abort -/

/-- A running command other than FC.WRITE has the window of its error (60_exceptions.md R244). -/
theorem abortWindow_running (s : State) (i : Instr) (hb : s.status.busy = true) (hd : decodeWord s.regs.cmd = .ok i)
    (hi : i ≠ .fcWrite) : abortWindow s = errorWindow i s := by
  rw [abortWindow, if_pos hb, State.fetchWord, hd]
  cases i
  case fcWrite => exact absurd rfl hi
  all_goals rfl

theorem abortWindow_fcWrite (s : State) (hb : s.status.busy = true) (hd : decodeWord s.regs.cmd = .ok .fcWrite) :
    abortWindow s = fcWriteResetWindow s := by
  rw [abortWindow, if_pos hb, State.fetchWord, hd]

/-- The commands without a window (60_exceptions.md R244). -/
theorem errorWindow_none (i : Instr) (s : State)
    (hi : i ∈ [Instr.nop, .zzEnc, .zzDec, .vleDec, .fcParseBin, .fcParseText, .fcParseTextClip]) :
    errorWindow i s = .none := by
  simp only [List.mem_cons, List.not_mem_nil, or_false] at hi
  rcases hi with rfl | rfl | rfl | rfl | rfl | rfl | rfl <;> rfl

/-- The commands that store from WR_POS on (60_exceptions.md R244). -/
theorem errorWindow_cursor (i : Instr) (s : State) (hi : i ∈ [Instr.vleEnc, .vleFlush, .rdcEnc]) :
    errorWindow i s = .out s.regs.wrPos.toNat (s.cfg.outCap - s.regs.wrPos.toNat) := by
  simp only [List.mem_cons, List.not_mem_nil, or_false] at hi
  rcases hi with rfl | rfl | rfl <;> rfl

/-- RDC.DEC's window in the words of R244. -/
theorem rdcDecWindow_eq (s : State) : rdcDecWindow s =
    if 1 ≤ s.regs.npix.toNat ∧ s.regs.npix.toNat ≤ s.cfg.maxPixels then .pix s.regs.npix.toNat else .none := by
  rw [rdcDecWindow]
  by_cases h : badPixelCount s = true
  · rw [if_pos h, if_neg (by have := (badPixelCount_true s).1 h; omega)]
  · rw [if_neg h, if_pos ((badPixelCount_false s).1 (Bool.eq_false_of_not_eq_true h))]

/-- A window that depends on `WriteHeaderBody`'s checks is there exactly if they pass (60_exceptions.md R244, log 7). -/
theorem windowIfHeaderChecks_iff (win : Window) (s : State) (hwin : win ≠ .none) :
    (windowIfHeaderChecks win s = win ↔ s.regs.clipValid = true ∧ 20 ≤ s.cfg.outCap ∧
      HeaderLegal s.cfg s.regs.width s.regs.height s.regs.near s.regs.far true) ∧
    (windowIfHeaderChecks win s = win ∨ windowIfHeaderChecks win s = .none) := by
  obtain ⟨hpass, hfail⟩ := windowIfHeaderChecks_eq win s
  by_cases h : WritableHeader s ∧ 20 ≤ s.cfg.outCap
  · obtain ⟨⟨hclip, hlegal⟩, h20⟩ := h
    have hw := hpass ⟨hclip, hlegal⟩ h20
    exact ⟨iff_of_true hw ⟨hclip, h20, hlegal⟩, .inl hw⟩
  · have hw := hfail h
    refine ⟨iff_of_false (fun hc => hwin (hc.symm.trans hw)) ?_, .inr hw⟩
    rintro ⟨hclip, h20, hlegal⟩
    exact h ⟨⟨hclip, hlegal⟩, h20⟩

/-- A running FRAME.DEC has the window of its shape (60_exceptions.md R244). -/
theorem abortWindow_frameDec (s : State) (i : Instr) (shape tclip : Bool) (hi : (i, shape, tclip) ∈ frameDecForms)
    (hb : s.status.busy = true) (hd : decodeWord s.regs.cmd = .ok i) :
    abortWindow s = frameDecWindow shape tclip s := by
  simp only [frameDecForms, List.mem_cons, Prod.mk.injEq, List.not_mem_nil, or_false] at hi
  rcases hi with ⟨rfl, rfl, rfl⟩ | ⟨rfl, rfl, rfl⟩ | ⟨rfl, rfl, rfl⟩ <;>
    exact abortWindow_running s _ hb hd (by decide)

theorem frameDecWindow_header (shape tclip : Bool) (s : State) (hd : Header) (h : HeaderAt shape tclip s hd)
    (hl : HeaderLegal s.cfg hd.width hd.height hd.near hd.far hd.clip) :
    frameDecWindow shape tclip s = .pix (hd.width.toNat * hd.height.toNat) := by
  rw [frameDecWindow, fcParseBody_header floatGrammar shape tclip s hd h hl]
  rfl

/-- Without the magic, or with no legal header after it, `FcParseBody` does not complete (60_exceptions.md R244). -/
theorem frameDecWindow_noHeader (shape tclip : Bool) (s : State)
    (h : BytesAt s 0 magicBytes → ∀ hd, HeaderAt shape tclip s hd →
      ¬ HeaderLegal s.cfg hd.width hd.height hd.near hd.far hd.clip) :
    frameDecWindow shape tclip s = .none := by
  rw [frameDecWindow]
  by_cases hmagic : BytesAt s 0 magicBytes
  · rw [fcParseBody_badHeader floatGrammar shape tclip s hmagic (h hmagic)]
  · rw [fcParseBody_badMagic shape tclip s hmagic]

/-- Settles O55: the windows row by row, each by the lemma of its command. -/
theorem abortWindows : Obligations.AbortWindows := by
  intro s i hb hdec
  refine ⟨fun hi => ?_, fun hi => ?_, ?_, ?_, fun shape tclip hd hi hat hl => ?_, fun shape tclip hi h => ?_, ?_⟩
  · rw [abortWindow_running s i hb hdec (ne_of_mem_of_not_mem hi (by decide)), errorWindow_none i s hi]
  · rw [abortWindow_running s i hb hdec (ne_of_mem_of_not_mem hi (by decide)), errorWindow_cursor i s hi]
  · rintro rfl
    exact (abortWindow_running s .rdcDec hb hdec (by decide)).trans (rdcDecWindow_eq s)
  · rintro rfl
    rw [abortWindow_fcWrite s hb hdec]
    exact windowIfHeaderChecks_iff (.out 0 20) s (by decide)
  · rw [abortWindow_frameDec s i shape tclip hi hb hdec, frameDecWindow_header shape tclip s hd hat hl]
  · rw [abortWindow_frameDec s i shape tclip hi hb hdec, frameDecWindow_noHeader shape tclip s h]
  · rintro rfl
    rw [abortWindow_running s .frameEnc hb hdec (by decide)]
    exact windowIfHeaderChecks_iff (.out 0 s.cfg.outCap) s Window.noConfusion

/-! ## The interrupt output -/

/-- A command ends with DONE set and IE as it was, so irq is IE (60_exceptions.md R247). -/
theorem exec_irq (i : Instr) (s t : State) (h : exec i s = .next t) : t.irq = s.ie := by
  obtain ⟨-, -, hie, -⟩ := commandsKeepTheRest i s t h
  obtain ⟨u, hu, hdone, -⟩ := everyCommandCompletes i s
  cases hu.symm.trans h
  rw [State.irq, hdone, hie, Bool.true_and]

theorem irq_of_not_done (s : State) (h : s.status.done = false) : s.irq = false := by
  rw [State.irq, h, Bool.false_and]

/-- Settles O52: completion by `exec_irq`; the other three events clear DONE. -/
theorem interruptIsALevel : Obligations.InterruptIsALevel := by
  refine ⟨fun s => rfl, exec_irq, fun s t h => ?_, fun s t c hb h => ?_, fun s t h => ?_⟩
  · cases (hostAccess_regWrite .status 2 s).symm.trans h
    have hbit : (2 : Word).getLsbD 1 = true := by decide
    refine irq_of_not_done (writeStatus 2 s) ?_
    rw [writeStatus_status, w1c_done, hbit, Bool.not_true, Bool.and_false]
  · cases (hostAccess_regWrite .cmd c s).symm.trans h
    rw [writeReg_cmd_idle c s hb]
    exact irq_of_not_done _ rfl
  · cases h
    exact irq_of_not_done (hardwareReset s) rfl

/-! ## The idle engine -/

theorem engineTurn_idle (s : State) (hb : s.status.busy = false) : engineTurn s = .next s :=
  if_neg (Bool.eq_false_iff.1 hb)

/-- Settles O7: the engine's turn, with or without a turn pending, is `engineTurn_idle`. -/
theorem idleEngineDoesNothing : Obligations.IdleEngineDoesNothing := fun s hb =>
  ⟨fun ha => (step_emptyAgenda s ha).trans (engineTurn_idle s hb),
    fun rest ha => (step_engine s rest ha).trans (engineTurn_idle _ hb)⟩

end Sys2Proof.Machine
end

section
/-! SUPPORT. The hardware reset and the state after it (70_reset_and_hazards.md R270, R271): O54, O58, O59. -/

namespace Sys2Proof.Machine

open Sys2Proof

/-! ## The hardware reset -/

/-- Settles O54: the reset input is `resetRegisters` with IE = 0 on the aborted command's window. -/
theorem hardwareReset_input : Obligations.HardwareReset := fun s => ⟨hardwareReset s, rfl, reset_effect false s⟩

/-! ## The reset state, for any capacities -/

/-- CTRL and STATUS read 0 because IE and all STATUS fields do, every other register because it is 0 (10_state.md R20). -/
theorem regValue_resetOf (c : Capacities) (r : RegName) : regValue r (State.resetOf c) = 0 := by
  cases r <;> rfl

@[simp] theorem inByte_resetOf (c : Capacities) (a : Nat) : (State.resetOf c).inByte a = Config.powerOnIn a := rfl

@[simp] theorem outByte_resetOf (c : Capacities) (a : Nat) : (State.resetOf c).outByte a = Config.powerOnOut a := rfl

@[simp] theorem pixel_resetOf (c : Capacities) (i : Nat) : (State.resetOf c).pixel i = Config.powerOnPixel i := rfl

/-- Settles O58: `State.reset` is `State.resetOf` of the example capacities. -/
theorem resetState : Obligations.ResetState :=
  ⟨regValue_resetOf _, irq_of_not_done State.reset rfl, rfl, rfl,
    fun a => ⟨inByte_resetOf _ a, outByte_resetOf _ a, pixel_resetOf _ a⟩⟩

/-- Empty cursors are legal (10_state.md R29 to R33), and IN_LEN = 0 is at most any IN_CAP (R34). -/
theorem regsOk_reset (c : Capacities) : RegsOk c Regs.reset :=
  ⟨(by decide : ReadCursorOk Regs.reset), (by decide : WriteCursorOk Regs.reset), Nat.zero_le c.inCap⟩

theorem statusOk_reset : StatusOk Status.reset := by decide

/-- An unwritten memory lists no index, so it is canonical and within every capacity. -/
theorem memoriesOk_resetOf (c : Capacities) : MemoriesOk (State.resetOf c) := ⟨⟨rfl, rfl⟩, ⟨rfl, rfl⟩, ⟨rfl, rfl⟩⟩

/-- Settles O59: the engine is idle, so no snapshot is due and no FRAME_VALID has to be clear. -/
theorem resetIsLegal : Obligations.ResetIsLegal := fun c hc =>
  { caps := hc
    regs := regsOk_reset c
    status := statusOk_reset
    memories := memoriesOk_resetOf c
    snapshot := rfl
    frame := fun hbusy => absurd hbusy Bool.false_ne_true }

end Sys2Proof.Machine
end
